-- ==== Sys2Proof/Word.lean ====
section
/-!
DEFINITION. The basic types of the NM3-AES engine: bytes, register words, byte strings, and the two named alternatives
a command carries (the source of DECRYPT, the mode of a frame reception).
-/
namespace Sys2Proof

/-- One byte (R12). -/
abbrev Byte := BitVec 8

/-- One 32-bit register word (R10). -/
abbrev Word := BitVec 32

/-- A byte offset in the 4 KiB register window (R10, R71). -/
abbrev Offset := BitVec 12

/-- `Bytes`, a finite sequence of 8-bit values, index 0 first (R12). -/
abbrev Bytes := List Byte

/-- The `SRC` field of DECRYPT (R103): which buffer holds the envelope text. -/
inductive Src where
  /-- `SRC = 0`: `RX_BUF[0..RX_LEN)`. -/
  | rxBuf
  /-- `SRC = 1`: `TX_BUF[0..TX_LEN)`. -/
  | txBuf
deriving DecidableEq, Repr, Inhabited

/-- The mode of a frame reception (R21). -/
inductive FrameMode where
  /-- FRAME_RECV: the complete frame is decrypted. -/
  | decode
  /-- FRAME_RAW: the complete frame is kept as it is. -/
  | raw
deriving DecidableEq, Repr, Inhabited

end Sys2Proof
end

