-- ==== Sys2Proof/Machine/Aes.lean ====
section
/-!
DEFINITION. The AES-256 block cipher (R130 to R141): field arithmetic, the S-box, the key expansion, the round
transformations with their inverses, the cipher and the inverse cipher. Pure functions of byte strings.
-/
namespace Sys2Proof.Machine

/-- Four bytes: a column of the cipher's state, or a word of the key schedule; `b0` is its first byte (R131). -/
structure Col where
  b0 : Byte
  b1 : Byte
  b2 : Byte
  b3 : Byte
deriving DecidableEq, Repr, Inhabited

/-- Sixteen bytes as the four columns of the state: byte `r + 4c` is row `r` of column `c` (R131). -/
structure Block where
  c0 : Col
  c1 : Col
  c2 : Col
  c3 : Col
deriving DecidableEq, Repr, Inhabited

/-- The byte at index `i` of a string; 0 beyond its end. -/
def byteAt (s : Bytes) (i : Nat) : Byte := s.getD i 0

/-- The four bytes of a string from index `i` on, as a column (R131). -/
def colAt (s : Bytes) (i : Nat) : Col := ⟨byteAt s i, byteAt s (i + 1), byteAt s (i + 2), byteAt s (i + 3)⟩

/-- `state(in)` of a 16-byte string (R131). -/
def blockOfBytes (s : Bytes) : Block := ⟨colAt s 0, colAt s 4, colAt s 8, colAt s 12⟩

/-- A column as a string. -/
def colBytes (c : Col) : Bytes := [c.b0, c.b1, c.b2, c.b3]

/-- `bytes(s)` of a state (R131). -/
def blockBytes (b : Block) : Bytes := colBytes b.c0 ++ colBytes b.c1 ++ colBytes b.c2 ++ colBytes b.c3

/-- Addition of columns: bytewise XOR (R12, R132). -/
def colXor (a b : Col) : Col := ⟨a.b0 ^^^ b.b0, a.b1 ^^^ b.b1, a.b2 ^^^ b.b2, a.b3 ^^^ b.b3⟩

/-- Bytewise XOR of blocks (R12). -/
def blockXor (a b : Block) : Block :=
  ⟨colXor a.c0 b.c0, colXor a.c1 b.c1, colXor a.c2 b.c2, colXor a.c3 b.c3⟩

/-- The same transformation of every column. -/
def blockMap (f : Col → Col) (s : Block) : Block := ⟨f s.c0, f s.c1, f s.c2, f s.c3⟩

/-- `xtime` (R132). -/
def xtime (a : Byte) : Byte := (a <<< 1) ^^^ (if a.msb then 0x1B else 0x00)

/-- `xtime^i(a)` (R132). -/
def xtimeIter : Nat → Byte → Byte
  | 0, a => a
  | i + 1, a => xtimeIter i (xtime a)

/-- The XOR of `xtime^i(a)` over the bits `i < n` set in `b` (R132). -/
def gmulBits : Nat → Byte → Byte → Byte
  | 0, _, _ => 0
  | n + 1, a, b => (if b.getLsbD 0 then a else 0) ^^^ gmulBits n (xtime a) (b >>> 1)

/-- `a • b` (R132): the XOR of `xtime^i(a)` over the bits `i` set in `b`. -/
def gmul (a b : Byte) : Byte := gmulBits 8 a b

/-- `b` is the multiplicative inverse of `a` (R132): `a • b = 0x01`, and 0x00 for 0x00. -/
def isInverse (a b : Byte) : Bool := if a = 0x00 then b == 0x00 else gmul a b == 0x01

/-- The affine map of the S-box (R133): `SBox(x)` is this of `x^-1`. -/
def sBoxAffine (b : Byte) : Byte :=
  b ^^^ b.rotateLeft 1 ^^^ b.rotateLeft 2 ^^^ b.rotateLeft 3 ^^^ b.rotateLeft 4 ^^^ 0x63

/-- The S-box (R134). -/
def sBoxTable : List (List Byte) :=
  [
   [0x63, 0x7c, 0x77, 0x7b, 0xf2, 0x6b, 0x6f, 0xc5, 0x30, 0x01, 0x67, 0x2b, 0xfe, 0xd7, 0xab, 0x76],
   [0xca, 0x82, 0xc9, 0x7d, 0xfa, 0x59, 0x47, 0xf0, 0xad, 0xd4, 0xa2, 0xaf, 0x9c, 0xa4, 0x72, 0xc0],
   [0xb7, 0xfd, 0x93, 0x26, 0x36, 0x3f, 0xf7, 0xcc, 0x34, 0xa5, 0xe5, 0xf1, 0x71, 0xd8, 0x31, 0x15],
   [0x04, 0xc7, 0x23, 0xc3, 0x18, 0x96, 0x05, 0x9a, 0x07, 0x12, 0x80, 0xe2, 0xeb, 0x27, 0xb2, 0x75],
   [0x09, 0x83, 0x2c, 0x1a, 0x1b, 0x6e, 0x5a, 0xa0, 0x52, 0x3b, 0xd6, 0xb3, 0x29, 0xe3, 0x2f, 0x84],
   [0x53, 0xd1, 0x00, 0xed, 0x20, 0xfc, 0xb1, 0x5b, 0x6a, 0xcb, 0xbe, 0x39, 0x4a, 0x4c, 0x58, 0xcf],
   [0xd0, 0xef, 0xaa, 0xfb, 0x43, 0x4d, 0x33, 0x85, 0x45, 0xf9, 0x02, 0x7f, 0x50, 0x3c, 0x9f, 0xa8],
   [0x51, 0xa3, 0x40, 0x8f, 0x92, 0x9d, 0x38, 0xf5, 0xbc, 0xb6, 0xda, 0x21, 0x10, 0xff, 0xf3, 0xd2]] ++ [
   [0xcd, 0x0c, 0x13, 0xec, 0x5f, 0x97, 0x44, 0x17, 0xc4, 0xa7, 0x7e, 0x3d, 0x64, 0x5d, 0x19, 0x73],
   [0x60, 0x81, 0x4f, 0xdc, 0x22, 0x2a, 0x90, 0x88, 0x46, 0xee, 0xb8, 0x14, 0xde, 0x5e, 0x0b, 0xdb],
   [0xe0, 0x32, 0x3a, 0x0a, 0x49, 0x06, 0x24, 0x5c, 0xc2, 0xd3, 0xac, 0x62, 0x91, 0x95, 0xe4, 0x79],
   [0xe7, 0xc8, 0x37, 0x6d, 0x8d, 0xd5, 0x4e, 0xa9, 0x6c, 0x56, 0xf4, 0xea, 0x65, 0x7a, 0xae, 0x08],
   [0xba, 0x78, 0x25, 0x2e, 0x1c, 0xa6, 0xb4, 0xc6, 0xe8, 0xdd, 0x74, 0x1f, 0x4b, 0xbd, 0x8b, 0x8a],
   [0x70, 0x3e, 0xb5, 0x66, 0x48, 0x03, 0xf6, 0x0e, 0x61, 0x35, 0x57, 0xb9, 0x86, 0xc1, 0x1d, 0x9e],
   [0xe1, 0xf8, 0x98, 0x11, 0x69, 0xd9, 0x8e, 0x94, 0x9b, 0x1e, 0x87, 0xe9, 0xce, 0x55, 0x28, 0xdf],
   [0x8c, 0xa1, 0x89, 0x0d, 0xbf, 0xe6, 0x42, 0x68, 0x41, 0x99, 0x2d, 0x0f, 0xb0, 0x54, 0xbb, 0x16]]

/-- The inverse S-box (R135). -/
def invSBoxTable : List (List Byte) :=
  [
   [0x52, 0x09, 0x6a, 0xd5, 0x30, 0x36, 0xa5, 0x38, 0xbf, 0x40, 0xa3, 0x9e, 0x81, 0xf3, 0xd7, 0xfb],
   [0x7c, 0xe3, 0x39, 0x82, 0x9b, 0x2f, 0xff, 0x87, 0x34, 0x8e, 0x43, 0x44, 0xc4, 0xde, 0xe9, 0xcb],
   [0x54, 0x7b, 0x94, 0x32, 0xa6, 0xc2, 0x23, 0x3d, 0xee, 0x4c, 0x95, 0x0b, 0x42, 0xfa, 0xc3, 0x4e],
   [0x08, 0x2e, 0xa1, 0x66, 0x28, 0xd9, 0x24, 0xb2, 0x76, 0x5b, 0xa2, 0x49, 0x6d, 0x8b, 0xd1, 0x25],
   [0x72, 0xf8, 0xf6, 0x64, 0x86, 0x68, 0x98, 0x16, 0xd4, 0xa4, 0x5c, 0xcc, 0x5d, 0x65, 0xb6, 0x92],
   [0x6c, 0x70, 0x48, 0x50, 0xfd, 0xed, 0xb9, 0xda, 0x5e, 0x15, 0x46, 0x57, 0xa7, 0x8d, 0x9d, 0x84],
   [0x90, 0xd8, 0xab, 0x00, 0x8c, 0xbc, 0xd3, 0x0a, 0xf7, 0xe4, 0x58, 0x05, 0xb8, 0xb3, 0x45, 0x06],
   [0xd0, 0x2c, 0x1e, 0x8f, 0xca, 0x3f, 0x0f, 0x02, 0xc1, 0xaf, 0xbd, 0x03, 0x01, 0x13, 0x8a, 0x6b]] ++ [
   [0x3a, 0x91, 0x11, 0x41, 0x4f, 0x67, 0xdc, 0xea, 0x97, 0xf2, 0xcf, 0xce, 0xf0, 0xb4, 0xe6, 0x73],
   [0x96, 0xac, 0x74, 0x22, 0xe7, 0xad, 0x35, 0x85, 0xe2, 0xf9, 0x37, 0xe8, 0x1c, 0x75, 0xdf, 0x6e],
   [0x47, 0xf1, 0x1a, 0x71, 0x1d, 0x29, 0xc5, 0x89, 0x6f, 0xb7, 0x62, 0x0e, 0xaa, 0x18, 0xbe, 0x1b],
   [0xfc, 0x56, 0x3e, 0x4b, 0xc6, 0xd2, 0x79, 0x20, 0x9a, 0xdb, 0xc0, 0xfe, 0x78, 0xcd, 0x5a, 0xf4],
   [0x1f, 0xdd, 0xa8, 0x33, 0x88, 0x07, 0xc7, 0x31, 0xb1, 0x12, 0x10, 0x59, 0x27, 0x80, 0xec, 0x5f],
   [0x60, 0x51, 0x7f, 0xa9, 0x19, 0xb5, 0x4a, 0x0d, 0x2d, 0xe5, 0x7a, 0x9f, 0x93, 0xc9, 0x9c, 0xef],
   [0xa0, 0xe0, 0x3b, 0x4d, 0xae, 0x2a, 0xf5, 0xb0, 0xc8, 0xeb, 0xbb, 0x3c, 0x83, 0x53, 0x99, 0x61],
   [0x17, 0x2b, 0x04, 0x7e, 0xba, 0x77, 0xd6, 0x26, 0xe1, 0x69, 0x14, 0x63, 0x55, 0x21, 0x0c, 0x7d]]

/-- The entry of a table in the form of R134: the row is the high nibble, the column the low one. -/
def tableAt (t : List (List Byte)) (x : Byte) : Byte :=
  (t.getD (x >>> 4).toNat []).getD (x &&& 0x0F).toNat 0

/-- `SBox` (R133), read from the table of R134. `sBox_eq_affine` in Laws/Aes.lean proves it is R133's (log entry 5). -/
def sBox (x : Byte) : Byte := tableAt sBoxTable x

/-- `InvSBox` (R133), read from the table of R135. -/
def invSBox (x : Byte) : Byte := tableAt invSBoxTable x

/-- `SubWord` (R137). -/
def subWord (a : Col) : Col := ⟨sBox a.b0, sBox a.b1, sBox a.b2, sBox a.b3⟩

/-- `RotWord` (R137). -/
def rotWord (a : Col) : Col := ⟨a.b1, a.b2, a.b3, a.b0⟩

/-- `Rcon[j]` for `j` in 1..7 (R136): `rc_1 = 0x01`, `rc_{j+1} = xtime(rc_j)`. -/
def rcon (j : Nat) : Col := ⟨xtimeIter (j - 1) 0x01, 0, 0, 0⟩

/-- The word `w[i]` for `i ≥ 8` (R137), from the words before it, latest first. -/
def nextKeyWord (i : Nat) (rev : List Col) : Col :=
  let t := rev.getD 0 default
  let t :=
    if i % 8 = 0 then colXor (subWord (rotWord t)) (rcon (i / 8))
    else if i % 8 = 4 then subWord t
    else t
  colXor (rev.getD 7 default) t

/-- `KeyExpansion(key)` (R137): the 60 words of a 32-byte key. -/
def keyExpansion (key : Bytes) : List Col :=
  let first := (List.range 8).map (fun i => colAt key (4 * i))
  ((List.range' 8 52).foldl (fun rev i => nextKeyWord i rev :: rev) first.reverse).reverse

/-- Round key `r` (R137): the words `w[4r]` to `w[4r+3]`, one for each column. -/
def roundKey (w : List Col) (r : Nat) : Block :=
  ⟨w.getD (4 * r) default, w.getD (4 * r + 1) default, w.getD (4 * r + 2) default, w.getD (4 * r + 3) default⟩

/-- `SubBytes` (R138). -/
def subBytes (s : Block) : Block := blockMap subWord s

/-- `ShiftRows` (R138): row `r` of column `c` comes from column `c + r`. -/
def shiftRows (s : Block) : Block :=
  ⟨⟨s.c0.b0, s.c1.b1, s.c2.b2, s.c3.b3⟩, ⟨s.c1.b0, s.c2.b1, s.c3.b2, s.c0.b3⟩,
   ⟨s.c2.b0, s.c3.b1, s.c0.b2, s.c1.b3⟩, ⟨s.c3.b0, s.c0.b1, s.c1.b2, s.c2.b3⟩⟩

/-- One row of a column product: `k0 • a XOR k1 • b XOR k2 • c XOR k3 • d` (R138, R140). -/
def mixByte (k0 k1 k2 k3 a b c d : Byte) : Byte := gmul a k0 ^^^ gmul b k1 ^^^ gmul c k2 ^^^ gmul d k3

/-- A column multiplied by the circulant matrix of four constants (R138, R140). -/
def mixCol (k0 k1 k2 k3 : Byte) (a : Col) : Col :=
  ⟨mixByte k0 k1 k2 k3 a.b0 a.b1 a.b2 a.b3, mixByte k0 k1 k2 k3 a.b1 a.b2 a.b3 a.b0,
   mixByte k0 k1 k2 k3 a.b2 a.b3 a.b0 a.b1, mixByte k0 k1 k2 k3 a.b3 a.b0 a.b1 a.b2⟩

/-- `MixColumns` (R138). -/
def mixColumns (s : Block) : Block := blockMap (mixCol 0x02 0x03 0x01 0x01) s

/-- `AddRoundKey(r)` (R138). -/
def addRoundKey (w : List Col) (r : Nat) (s : Block) : Block := blockXor s (roundKey w r)

/-- `InvSubBytes` (R140). -/
def invSubBytes (s : Block) : Block :=
  blockMap (fun a => ⟨invSBox a.b0, invSBox a.b1, invSBox a.b2, invSBox a.b3⟩) s

/-- `InvShiftRows` (R140): row `r` of column `c` goes to column `c + r`. -/
def invShiftRows (s : Block) : Block :=
  ⟨⟨s.c0.b0, s.c3.b1, s.c2.b2, s.c1.b3⟩, ⟨s.c1.b0, s.c0.b1, s.c3.b2, s.c2.b3⟩,
   ⟨s.c2.b0, s.c1.b1, s.c0.b2, s.c3.b3⟩, ⟨s.c3.b0, s.c2.b1, s.c1.b2, s.c0.b3⟩⟩

/-- `InvMixColumns` (R140). -/
def invMixColumns (s : Block) : Block := blockMap (mixCol 0x0E 0x0B 0x0D 0x09) s

/-- `AES_Enc(w, in)` (R139). -/
def aesEnc (w : List Col) (b : Block) : Block :=
  let s := (List.range' 1 13).foldl (fun s r => addRoundKey w r (mixColumns (shiftRows (subBytes s))))
    (addRoundKey w 0 b)
  addRoundKey w 14 (shiftRows (subBytes s))

/-- `AES_Dec(w, in)` (R141): the rounds 13 down to 1, so a fold from the right of 1..13. -/
def aesDec (w : List Col) (b : Block) : Block :=
  let s := (List.range' 1 13).foldr (fun r s => invMixColumns (addRoundKey w r (invSubBytes (invShiftRows s))))
    (addRoundKey w 14 b)
  addRoundKey w 0 (invSubBytes (invShiftRows s))

end Sys2Proof.Machine
end

