-- ==== Sys2Proof/Machine/Event.lean ====
section
/-!
DEFINITION. What can happen to the block: one event per step. An event is either one step of one agent (R17), the reset
step (R270), or one whole clock cycle with the values of every input port (R53, R250, R276). Events are plain data.
-/
namespace Sys2Proof.Machine

/-- One host bus access: the byte offset `paddr[11:0]` (R71) and the byte strobes. The block's port has no strobes
(R53); the bus variant of R72 carries them, and a port without them is `strb = 0b1111`. -/
structure Access where
  addr : Offset
  strb : BitVec 4
deriving DecidableEq, Repr, Inhabited

/-- The access of the whole word at an offset: every strobe set (R72). -/
def wordAccess (off : Offset) : Access := ⟨off, 0b1111⟩

/-- The values of the input ports in one `clk` cycle (R53), and `engineReady`, which is no port: it says whether the step of
the running cipher command's internal work that comes next, whose length no rule fixes (R187, R281), ends in this cycle (log
entry 11). -/
structure ClockIn where
  /-- `rst_n`, active low (R270). -/
  rstN : Bool
  /-- `psel`, `penable`, `pwrite` (R70). -/
  psel : Bool
  penable : Bool
  pwrite : Bool
  /-- `paddr`, and the strobes of the variant bus (R72). -/
  access : Access
  pwdata : Word
  /-- `rx_valid`, `rx_data` (R201). -/
  rxValid : Bool
  rxData : Byte
  /-- `tick` (R203, R276). -/
  tick : Bool
  /-- `ent_valid`, `ent_fail`, `ent_data` (R176). -/
  entValid : Bool
  entFail : Bool
  entData : BitVec 128
  /-- Not a port: the unspecified latency of the Engine. -/
  engineReady : Bool
deriving DecidableEq, Repr, Inhabited

/-- One step of the run (R17). -/
inductive Event where
  /-- Host: `MemRead(addr, 4)` (R14). -/
  | memRead (a : Access)
  /-- Host: `MemWrite(addr, 4, v)` (R14). -/
  | memWrite (a : Access) (v : Word)
  /-- Engine: one step (R177, R183, R206), with the Entropy source's answer (R15, R176) used if the step draws one:
  `some iv` with IV byte `i` in bits `[8i+7:8i]` (R74), or `none`. -/
  | engine (entropy : Option (BitVec 128))
  /-- RX line: one received byte (R201). -/
  | rxByte (b : Byte)
  /-- Timer: one tick (R203). -/
  | tick
  /-- Reset, a step of its own (R270). -/
  | reset
  /-- One whole clock cycle (R250, R276). -/
  | clock (c : ClockIn)
deriving DecidableEq, Repr, Inhabited

end Sys2Proof.Machine
end

