-- ==== Sys2Proof/Config.lean ====
section
/-!
DEFINITION. The fixed sizes of the block (R9), its open parameters (R9, R22, 92_eei_decisions), and the free values: every
value the spec leaves open is an opaque constant here, so that no proof can know it.
-/
namespace Sys2Proof.Config

/-- `KEY_BYTES` (R9). -/
def keyBytes : Nat := 32
/-- `IV_BYTES` (R9). -/
def ivBytes : Nat := 16
/-- `BLOCK` (R9). -/
def block : Nat := 16
/-- `MAX_PT` (R9): the largest plaintext ENCRYPT accepts. -/
def maxPt : Nat := 255
/-- `PT_CAP` (R9): bytes in `PT_BUF`. -/
def ptCap : Nat := 256
/-- `MAX_CT` (R9): the largest ciphertext. -/
def maxCt : Nat := 256
/-- `MAX_HEX` (R9): the largest envelope text. -/
def maxHex : Nat := 544
/-- `TX_CAP` (R9): bytes in `TX_BUF`. -/
def txCap : Nat := 546
/-- `RX_CAP` (R9): bytes in `RX_BUF`, the longest frame. -/
def rxCap : Nat := 546
/-- `RX_FIFO_DEPTH` (R9). -/
def rxFifoDepth : Nat := 32
/-- `TICK_HZ` (R9): parameter `tick_hz`, 1000 in this hardware; no rule reads it but through `timeoutReset`. -/
def tickHz : Nat := 1000
/-- `TIMEOUT_RESET` (R9): two seconds of ticks. -/
def timeoutReset : Word := 2000
/-- `ENT_WAIT_MAX` (R9): the cycles the engine waits for the entropy source. -/
def entWaitMax : Nat := 256

/-- `BASE` (R9, R22): the bus address of the register window, left open to the platform (parameter `base`). DESIGN CHOICE
(log entry 20): 32 bits wide; the spec states no width of a bus address outside the block. -/
opaque base : Word

/-- The bus address of a window offset (R22, R82), modulo 2^32 (DESIGN CHOICE, log entry 20). No rule of the block reads it: the port carries the offset only. -/
def busAddress (off : Offset) : Word := base + off.setWidth 32

/-- FREE VALUE (93 U1, log entry 3): what the storage byte at a window offset holds after the reset numbered `epoch`,
until it is written. -/
opaque resetByte (epoch : Nat) (off : Nat) : Byte

/-- FREE VALUE (R78, R79, 93 U2 and U3, log entry 4): the `n`-th word a host read of a running command's output gives. -/
opaque freeWord (n : Nat) : Word

/-- FREE VALUE (R17, 93 U6, log entry 1): the event that comes when no event is listed. -/
opaque freeEvent (n : Nat) : Machine.Event

end Sys2Proof.Config
end

