-- ==== Sys2Proof/Machine/State.lean ====
section
/-!
DEFINITION. The state of the NM3-AES engine as plain data, everything the spec gives the machine (R20 to R54), its state
after reset (R54), and the reasons a step can stop (R246, R258).
-/
namespace Sys2Proof.Machine

/-- The engine state `state` (R21). `BUSY` is not stored: it is 1 exactly when this is not `idle` (R26). -/
inductive EngineState where
  /-- `IDLE`. -/
  | idle
  /-- `EXEC(0x01, 0)`: an ENCRYPT accepted and not completed. -/
  | encrypting
  /-- `EXEC(0x02, src)`: a DECRYPT accepted and not completed. -/
  | decrypting (src : Src)
  /-- `RECV(mode)`: a frame reception accepted and not completed. -/
  | receiving (mode : FrameMode)
deriving DecidableEq, Repr, Inhabited

/-- The result codes (R240). Codes 10 to 15 are never produced (R32), so they have no constructor. -/
inductive ResultCode where
  | none
  | ok
  | timeout
  | malformedEnvelope
  | invalidPadding
  | randomUnavailable
  | frameOverflow
  | badLength
  | noKey
  | illegalCommand
deriving DecidableEq, Repr, Inhabited

/-- The entropy handshake of the clock level (R52, R176). `ent_req` is 1 exactly in `waiting`. -/
inductive EntropyPort where
  /-- No request. -/
  | idle
  /-- `ent_req = 1`; `cycles` of it have passed without an answer. -/
  | waiting (cycles : Nat)
  /-- The draw is made and the command has not yet completed. -/
  | answered (draw : Option (BitVec 128))
deriving DecidableEq, Repr, Inhabited

/-- The stored bytes of the three buffers, keyed by window offset, strictly rising. An unlisted storage byte has no
listed value: it reads as the free value of its reset (R54, 93 U1, log entry 3). -/
abbrev Memory := List Host.Cell

/-- The machine (R54: nothing else holds state), its bus output ports, and the model's own bookkeeping. -/
@[ext]
structure State where
  /-- `state` (R21). -/
  engine : EngineState
  /-- `CTRL.TX_TERM` (R24). -/
  txTerm : Bool
  /-- `CTRL.IE` (R24). -/
  ie : Bool
  /-- `STATUS.DONE` (R27). -/
  done : Bool
  /-- `STATUS.KEY_LOCKED` (R28). -/
  keyLocked : Bool
  /-- `STATUS.CMD_REJECTED` (R29). -/
  cmdRejected : Bool
  /-- `STATUS.RX_OVF` (R30). -/
  rxOvf : Bool
  /-- `STATUS.WR_IGNORED` (R31). -/
  wrIgnored : Bool
  /-- `STATUS.RESULT` (R32). -/
  result : ResultCode
  /-- `STATUS.LAST_OP` (R33). -/
  lastOp : BitVec 8
  /-- `STATUS.KEY_WMASK` (R34). -/
  keyWmask : BitVec 8
  /-- `TIMEOUT` (R37). -/
  timeout : Word
  /-- `MONO` (R38). -/
  mono : Word
  /-- `DEADLINE` (R39). -/
  deadline : Word
  /-- The latch `START` (R51). -/
  frameStart : Word
  /-- The latch `TO` (R51). -/
  frameTo : Word
  /-- `PT_LEN` (R40). -/
  ptLen : BitVec 9
  /-- `TX_LEN` (R41). -/
  txLen : BitVec 10
  /-- `RX_LEN` (R42). -/
  rxLen : BitVec 10
  /-- `KEY0`–`KEY7` (R44). -/
  key : Vector Word 8
  /-- `IV0`–`IV3` (R45). -/
  iv : Vector Word 4
  /-- The bytes of `PT_BUF`, `TX_BUF` and `RX_BUF` (R46 to R48). -/
  mem : Memory
  /-- The RX FIFO, head first (R50). Its length is `RX_LEVEL` (R43). -/
  rxFifo : Bytes
  /-- The entropy handshake (R52, R176). -/
  entropy : EntropyPort
  /-- The registered output `irq` of the clock level (R248). -/
  irqPin : Bool
  /-- The bus output `prdata`: what the last host read returned (R70). -/
  prdata : Word
  /-- The bus output `pslverr` of the last clock cycle (R72; log entry 22 where no access completed). -/
  pslverr : Bool
  /-- The model's own: the events to come, oldest first (R17, log entry 1). -/
  inputs : List Event
  /-- The model's own: the index of the next free value (log entry 8). -/
  draws : Nat
  /-- The model's own: how many resets there were (log entry 3). -/
  epoch : Nat
deriving DecidableEq, Repr

/-- The state right after reset (R54, R272). `prdata`, `pslverr` and the model's own fields: log entry 8. -/
def State.reset : State where
  engine := .idle
  txTerm := false
  ie := false
  done := false
  keyLocked := false
  cmdRejected := false
  rxOvf := false
  wrIgnored := false
  result := .none
  lastOp := 0
  keyWmask := 0
  timeout := Config.timeoutReset
  mono := 0
  deadline := 0
  frameStart := 0
  frameTo := 0
  ptLen := 0
  txLen := 0
  rxLen := 0
  key := Vector.replicate 8 0
  iv := Vector.replicate 4 0
  mem := []
  rxFifo := []
  entropy := .idle
  irqPin := false
  prdata := 0
  pslverr := false
  inputs := []
  draws := 0
  epoch := 0

/-- The faults (R246, R258): the one fault of the block. -/
inductive Fault where
  /-- `raise BusError(addr)`: an unsupported host access, raised by `hostRead` and `hostWrite` (R72, R246). Safe: the spec
  calls it a fault of the host program that a model records and claims exclude; the run stops there. -/
  | busError (addr : Offset)
deriving DecidableEq, Repr

/-- The refusals. The spec refuses nothing (R258). -/
inductive Refusal where
  /-- A command not modelled yet, raised by no arm of `exec` now. Safe: the run stops. -/
  | notModelled (mnemonic : String)
deriving DecidableEq, Repr

end Sys2Proof.Machine
end

