-- ==== Sys2Proof/Machine/Envelope.lean ====
section
/-!
DEFINITION. CBC mode (R142, R143), padding (R145, R146), hex text (R147 to R150), the terminator (R151), and the two
envelope procedures (R172, R181). Pure functions of byte strings.
-/
namespace Sys2Proof.Machine

/-- The first `m` blocks of a string: `P_i = p[16(i-1) .. 16i)` for `i` in 1..m (R142). -/
def takeBlocks : Nat → Bytes → List Block
  | 0, _ => []
  | m + 1, p => blockOfBytes (p.take 16) :: takeBlocks m (p.drop 16)

/-- The concatenation of blocks. -/
def joinBlocks (bs : List Block) : Bytes := bs.flatMap blockBytes

/-- `C_i = AES_Enc(w, P_i XOR C_(i-1))`, from `C_0` on (R142). -/
def cbcEncBlocks (w : List Col) : Block → List Block → List Block
  | _, [] => []
  | prev, p :: ps => let c := aesEnc w (blockXor p prev); c :: cbcEncBlocks w c ps

/-- `P_i = AES_Dec(w, C_i) XOR C_(i-1)`, from `C_0` on (R143). -/
def cbcDecBlocks (w : List Col) : Block → List Block → List Block
  | _, [] => []
  | prev, c :: cs => blockXor (aesDec w c) prev :: cbcDecBlocks w c cs

/-- `CBC_Enc(key, iv, p)` (R142). -/
def cbcEnc (key iv p : Bytes) : Bytes :=
  joinBlocks (cbcEncBlocks (keyExpansion key) (blockOfBytes iv) (takeBlocks (p.length / 16) p))

/-- `CBC_Dec(key, iv, c)` (R143). -/
def cbcDec (key iv c : Bytes) : Bytes :=
  joinBlocks (cbcDecBlocks (keyExpansion key) (blockOfBytes iv) (takeBlocks (c.length / 16) c))

/-- The pad length of a plaintext of `len` bytes (R145): 1 to 16. -/
def padLength (len : Nat) : Nat := 16 - len % 16

/-- `Pad(p)` (R145). -/
def pad (p : Bytes) : Bytes := p ++ List.replicate (padLength p.length) (BitVec.ofNat 8 (padLength p.length))

/-- `Unpad(d)` (R146): only the last byte is checked; `none` is `InvalidPadding`. -/
def unpad (d : Bytes) : Option Bytes :=
  if d.length = 0 then none
  else
    let n := (byteAt d (d.length - 1)).toNat
    if n < 1 ∨ n > 16 ∨ n > d.length then none else some (d.take (d.length - n))

/-- `HexDigit(v)`, `v` in 0..15 (R147). -/
def hexDigit (v : Byte) : Byte := if v ≤ 9 then 0x30 + v else 0x61 + (v - 10)

/-- `HexVal(ch)` (R148); `none` is `invalid`. -/
def hexVal (ch : Byte) : Option Byte :=
  if 0x30 ≤ ch ∧ ch ≤ 0x39 then some (ch - 0x30)
  else if 0x61 ≤ ch ∧ ch ≤ 0x66 then some (ch - 0x61 + 10)
  else if 0x41 ≤ ch ∧ ch ≤ 0x46 then some (ch - 0x41 + 10)
  else none

/-- `HexEnc(s)` (R149): the high nibble first. -/
def hexEnc (s : Bytes) : Bytes := s.flatMap (fun (b : Byte) => [hexDigit (b >>> 4), hexDigit (b &&& 0x0F)])

/-- `HexDec(t)` (R150); `none` is `MalformedEnvelope`: an odd length or an invalid character. -/
def hexDec : Bytes → Option Bytes
  | [] => some []
  | [_] => none
  | hi :: lo :: rest =>
    match hexVal hi, hexVal lo, hexDec rest with
    | some h, some l, some s => some ((16 * h + l) :: s)
    | _, _, _ => none

/-- `TERM = 0D 0A` (R151). -/
def terminator : Bytes := [0x0D, 0x0A]

/-- `EndsWithTerm(s)` (R151). -/
def endsWithTerm (s : Bytes) : Bool :=
  2 ≤ s.length && byteAt s (s.length - 2) == 0x0D && byteAt s (s.length - 1) == 0x0A

/-- `EnvelopeEncrypt(K, iv, p, term)` (R172). -/
def envelopeEncrypt (key iv p : Bytes) (term : Bool) : Bytes :=
  let c := cbcEnc key iv (pad p)
  let t := hexEnc (iv ++ c)
  if term then t ++ terminator else t

/-- What `EnvelopeDecrypt` returns (R181). -/
inductive EnvelopeResult where
  | ok (p iv : Bytes)
  | fail (code : ResultCode)
deriving DecidableEq, Repr

/-- The text `EnvelopeDecrypt` parses: one trailing CR LF is stripped (R181). -/
def stripTerm (s : Bytes) : Bytes := if endsWithTerm s then s.take (s.length - 2) else s

/-- `EnvelopeDecrypt(K, s)` (R181). -/
def envelopeDecrypt (key s : Bytes) : EnvelopeResult :=
  let t := stripTerm s
  if t.length < 32 then .fail .malformedEnvelope
  else
    match hexDec t with
    | none => .fail .malformedEnvelope
    | some e =>
      let iv := e.take 16
      let c := e.drop 16
      if c.length % 16 ≠ 0 then .fail .malformedEnvelope
      else if c.length = 0 then .fail .invalidPadding
      else
        match unpad (cbcDec key iv c) with
        | none => .fail .invalidPadding
        | some p => .ok p iv

end Sys2Proof.Machine
end

