-- ==== Sys2Proof/Machine/Ops.lean ====
section
/-!
DEFINITION. The operations every command and every event is built from: byte order (R74), the storage bytes of the
buffers, the session key and IV as strings (R45, R49), acceptance of a command (R101, R77), completion (`finish`, R15),
and reset (R270). The block has no exceptions (R245, R247): `finish` with a result code is how every command ends.
-/
namespace Sys2Proof.Machine

/-! Byte order (R74). -/

/-- Byte `j` of a word: bits `[8j+7:8j]`. -/
def wordByte (w : Word) (j : Nat) : Byte := w.extractLsb' (8 * j) 8

/-- The word whose bytes are given, least significant first. -/
def wordOfBytes (b0 b1 b2 b3 : Byte) : Word := b3 ++ b2 ++ b1 ++ b0

/-- The four bytes of a word, least significant first. -/
def bytesOfWord (w : Word) : Bytes := [wordByte w 0, wordByte w 1, wordByte w 2, wordByte w 3]

/-- The 16 bytes of `ent_data`: IV byte `i` is bits `[8i+7:8i]` (R74, R176). -/
def bytesOfDraw (d : BitVec 128) : Bytes := (List.range 16).map (fun i => d.extractLsb' (8 * i) 8)

/-- The words `IV0..3` of a 16-byte IV (R45). -/
def ivWords (b : Bytes) : Vector Word 4 :=
  let word (i : Nat) := wordOfBytes (b.getD (4 * i) 0) (b.getD (4 * i + 1) 0) (b.getD (4 * i + 2) 0) (b.getD (4 * i + 3) 0)
  #v[word 0, word 1, word 2, word 3]

/-- `IVR`, the 16 bytes of `IV0..3` (R45). -/
def ivString (s : State) : Bytes := s.iv.toList.flatMap bytesOfWord

/-- `K`, the 32 bytes of `KEY0..7` (R49). -/
def keyString (s : State) : Bytes := s.key.toList.flatMap bytesOfWord

/-! The buffers' storage (R46 to R48). -/

/-- The window offset of byte 0 of `PT_BUF` (R46). -/
def ptBase : Nat := 0x100
/-- The window offset of byte 0 of `TX_BUF` (R47). -/
def txBase : Nat := 0x400
/-- The window offset of byte 0 of `RX_BUF` (R48). -/
def rxBase : Nat := 0x800

/-- The offsets that hold storage bytes (R46 to R48). -/
def isStorage (off : Nat) : Bool :=
  (ptBase ≤ off && off < ptBase + Config.ptCap) || (txBase ≤ off && off < txBase + Config.txCap)
    || (rxBase ≤ off && off < rxBase + Config.rxCap)

/-- The byte listed at an offset, if one is. -/
def Memory.get : Memory → Nat → Option Byte
  | [], _ => none
  | (a, b) :: rest, off => if a = off then some b else if off < a then none else Memory.get rest off

/-- The memory with the byte at an offset set. -/
def Memory.set : Memory → Nat → Byte → Memory
  | [], off, v => [(off, v)]
  | (a, b) :: rest, off, v =>
    if a = off then (off, v) :: rest
    else if off < a then (off, v) :: (a, b) :: rest
    else (a, b) :: Memory.set rest off v

/-- Every address of the list is storage, and all are above `low`, strictly rising. -/
def Memory.risingFrom : Nat → Memory → Bool
  | _, [] => true
  | low, (a, _) :: rest => low ≤ a && isStorage a && Memory.risingFrom (a + 1) rest

/-- The canonical form: storage addresses only, strictly rising. An unlisted byte reads as no listed value, so no entry
can equal what an unlisted address reads as. -/
def Memory.wf (m : Memory) : Bool := Memory.risingFrom 0 m

/-- A byte of the window's buffers: what was last written there since the reset numbered `epoch`, the free value of that
reset (R54, 93 U1), or 0 where there is no storage (R47, R48). -/
def loadByte (m : Memory) (epoch off : Nat) : Byte :=
  if isStorage off then (Memory.get m off).getD (Config.resetByte epoch off) else 0

/-- Write one byte; a byte without storage ignores it (R47, R48, R71). -/
def storeByte (m : Memory) (off : Nat) (v : Byte) : Memory := if isStorage off then Memory.set m off v else m

/-- Write a string from an offset on. -/
def storeBytes : Memory → Nat → Bytes → Memory
  | m, _, [] => m
  | m, off, v :: vs => storeBytes (storeByte m off v) (off + 1) vs

/-- A byte of the buffers in a state. -/
def readByte (s : State) (off : Nat) : Byte := loadByte s.mem s.epoch off

/-- `BUF[0..n)` of the buffer at `base` (R13). -/
def readBytes (s : State) (base n : Nat) : Bytes := (List.range n).map (fun i => readByte s (base + i))

/-! Commands. -/

/-- `STATUS.BUSY` (R26). -/
def State.busy (s : State) : Bool := s.engine != .idle

/-- `finish(code)` (R15): `RESULT <- code; DONE <- 1; BUSY <- 0; state <- IDLE`. -/
def finish (code : ResultCode) (s : State) : State :=
  { s with result := code, done := true, engine := .idle }

/-- The common part of every acceptance (R101): `LAST_OP <- OP; DONE <- 0; RESULT <- NONE`. -/
def beginCommand (op : BitVec 8) (s : State) : State :=
  { s with lastOp := op, done := false, result := .none }

/-- `CMD_REJECTED <- 1` (R77). -/
def rejectCommand (s : State) : State := { s with cmdRejected := true }

/-- A write to `CMD` of a word with opcode `op` whose acceptance part is `body`: accepted when not busy (R101); while busy
it is not accepted and sets `CMD_REJECTED` only (R77). -/
def accept (op : BitVec 8) (body : State → State) (s : State) : State :=
  if s.busy then rejectCommand s else body (beginCommand op s)

/-- An illegal word (R101, R105): accepted, and completed at once with `ILLEGAL_COMMAND`. -/
def acceptIllegal (op : BitVec 8) (s : State) : State := accept op (finish .illegalCommand) s

/-- Reset (R270, R54): every piece of the spec's state takes its reset value; the buffers get new free contents (93 U1);
the events still to come stay. -/
def resetState (s : State) : State :=
  { State.reset with inputs := s.inputs, draws := s.draws, epoch := s.epoch + 1 }

end Sys2Proof.Machine
end

