-- ==== Sys2Proof/Machine/Operands.lean ====
section
/-!
DEFINITION. Operands: the register map that names what an offset addresses (R22, R71), and the implicit operands of the
commands (R103, R104).
-/
namespace Sys2Proof.Machine

/-- What an aligned offset addresses (R22). Words of `TX_BUF` and `RX_BUF` without a storage byte are reserved (R71, R82). -/
inductive Reg where
  | ctrl
  | status
  | cmd
  | timeout
  | mono
  | deadline
  | ptLen
  | txLen
  | rxLen
  | rxLevel
  | key (i : Fin 8)
  | iv (i : Fin 4)
  /-- Word `k` of `PT_BUF`. -/
  | ptBuf (k : Nat)
  /-- Word `k` of `TX_BUF`. -/
  | txBuf (k : Nat)
  /-- Word `k` of `RX_BUF`. -/
  | rxBuf (k : Nat)
  /-- RAZ/WI. -/
  | reserved
deriving DecidableEq, Repr

/-- The offset of `CMD` (R36). -/
def cmdOffset : Offset := 0x008

/-- The number of words that hold a buffer of `cap` bytes. -/
def bufWords (cap : Nat) : Nat := (cap + 3) / 4

/-- The register map (R22). -/
def regOf (off : Offset) : Reg :=
  let n := off.toNat
  if n < 0x040 then
    if n = 0x000 then .ctrl
    else if n = 0x004 then .status
    else if n = 0x008 then .cmd
    else if n = 0x00C then .timeout
    else if n = 0x010 then .mono
    else if n = 0x014 then .deadline
    else if n = 0x018 then .ptLen
    else if n = 0x01C then .txLen
    else if n = 0x020 then .rxLen
    else if n = 0x024 then .rxLevel
    else .reserved
  else if n < 0x060 then .key (Fin.ofNat 8 ((n - 0x040) / 4))
  else if n < 0x070 then .iv (Fin.ofNat 4 ((n - 0x060) / 4))
  else if ptBase ≤ n ∧ n < ptBase + 4 * bufWords Config.ptCap then .ptBuf ((n - ptBase) / 4)
  else if txBase ≤ n ∧ n < txBase + 4 * bufWords Config.txCap then .txBuf ((n - txBase) / 4)
  else if rxBase ≤ n ∧ n < rxBase + 4 * bufWords Config.rxCap then .rxBuf ((n - rxBase) / 4)
  else .reserved

/-- `PT_BUF[0..PT_LEN)`, the plaintext operand of ENCRYPT (R173). -/
def ptText (s : State) : Bytes := readBytes s ptBase s.ptLen.toNat

/-- `TX_BUF[0..TX_LEN)` (R103). -/
def txText (s : State) : Bytes := readBytes s txBase s.txLen.toNat

/-- `RX_BUF[0..RX_LEN)` (R103, R206). -/
def rxText (s : State) : Bytes := readBytes s rxBase s.rxLen.toNat

/-- The envelope text DECRYPT reads (R103, R183). -/
def srcText (src : Src) (s : State) : Bytes :=
  match src with
  | .rxBuf => rxText s
  | .txBuf => txText s

/-- The source length and its buffer's capacity (R179). -/
def srcLimits (src : Src) (s : State) : Nat × Nat :=
  match src with
  | .rxBuf => (s.rxLen.toNat, Config.rxCap)
  | .txBuf => (s.txLen.toNat, Config.txCap)

end Sys2Proof.Machine
end

