-- ==== Sys2Proof/Machine/Cipher.lean ====
section
/-!
DEFINITION. The cipher commands: KEY_LOCK (R170), ENCRYPT (R173 to R178), DECRYPT (R179 to R184). A command's meaning is
its acceptance, the Host step that writes its word to `CMD`; the completions are the Engine's steps.
-/
namespace Sys2Proof.Machine

/-- `KEY_LOCKED <- 1` (R170). -/
def lockKey (s : State) : State := { s with keyLocked := true }

/-- `TX_LEN <- 0`, the effect of every failure of ENCRYPT (R178). -/
def clearTxLen (s : State) : State := { s with txLen := 0 }

/-- `PT_LEN <- 0`, the effect of every failure of DECRYPT (R184), and of FRAME_RECV's acceptance (R207). -/
def clearPtLen (s : State) : State := { s with ptLen := 0 }

/-- The entropy handshake is over (R176): no request, no answer held. -/
def releaseEntropy (s : State) : State := { s with entropy := .idle }

/-- KEY_LOCK's acceptance part, which completes in the same step (R170). -/
def keyLockBody (s : State) : State :=
  if s.keyLocked then finish .ok s
  else if s.keyWmask = 0xFF then finish .ok (lockKey s)
  else finish .noKey s

/-- `KEY_LOCK` (R170). -/
def execKeyLock (s : State) : Host.Outcome State Fault Refusal := .next (accept 0x06 keyLockBody s)

/-- `state <- EXEC(0x01, 0)` (R173). -/
def startEncrypt (s : State) : State := { s with engine := .encrypting }

/-- ENCRYPT's acceptance part (R173, R174). -/
def encryptBody (s : State) : State :=
  if !s.keyLocked then finish .noKey (clearTxLen s)
  else if s.ptLen.toNat > Config.maxPt then finish .badLength (clearTxLen s)
  else startEncrypt s

/-- `ENCRYPT` (R173). -/
def execEncrypt (s : State) : Host.Outcome State Fault Refusal := .next (accept 0x01 encryptBody s)

/-- The outputs of a successful ENCRYPT (R177): the envelope text `t` and the IV. -/
def putEnvelope (t iv : Bytes) (s : State) : State :=
  { s with
    mem := storeBytes s.mem txBase t
    txLen := BitVec.ofNat 10 t.length
    iv := ivWords iv }

/-- ENCRYPT's completion with the entropy draw `e` (R177). -/
def encryptComplete (e : Option (BitVec 128)) (s : State) : State :=
  match e with
  | none => finish .randomUnavailable (clearTxLen (releaseEntropy s))
  | some d =>
    finish .ok
      (putEnvelope (envelopeEncrypt (keyString s) (bytesOfDraw d) (ptText s) s.txTerm) (bytesOfDraw d)
        (releaseEntropy s))

/-- The outputs of a successful decryption (R183, R208): the plaintext `p` and the IV of the envelope. -/
def putPlaintext (p iv : Bytes) (s : State) : State :=
  { s with
    mem := storeBytes s.mem ptBase p
    ptLen := BitVec.ofNat 9 p.length
    iv := ivWords iv }

/-- What DECRYPT and the decode of a frame do with the result of `EnvelopeDecrypt` (R183, R208). -/
def finishDecrypt (r : EnvelopeResult) (s : State) : State :=
  match r with
  | .ok p iv => finish .ok (putPlaintext p iv s)
  | .fail code => finish code (clearPtLen s)

/-- `state <- EXEC(0x02, SRC)` (R179). -/
def startDecrypt (src : Src) (s : State) : State := { s with engine := .decrypting src }

/-- DECRYPT's acceptance part (R179, R180). -/
def decryptBody (src : Src) (s : State) : State :=
  let (n, cap) := srcLimits src s
  if !s.keyLocked then finish .noKey (clearPtLen s)
  else if n > cap then finish .badLength (clearPtLen s)
  else startDecrypt src s

/-- `DECRYPT` (R179). -/
def execDecrypt (src : Src) (s : State) : Host.Outcome State Fault Refusal := .next (accept 0x02 (decryptBody src) s)

/-- DECRYPT's completion (R183). -/
def decryptComplete (src : Src) (s : State) : State :=
  finishDecrypt (envelopeDecrypt (keyString s) (srcText src s)) s

end Sys2Proof.Machine
end

