-- ==== Sys2Proof/Machine/Frame.lean ====
section
/-!
DEFINITION. The frame unit: the RX line's step (R201), the Timer's step and the timeout test (R203, R204), frame acceptance
(R205), the byte step (R206, R208), and the commands FRAME_RECV (R207), FRAME_RAW (R209), RX_FLUSH (R210).
-/
namespace Sys2Proof.Machine

/-- The byte enters the RX FIFO at its tail (R201). -/
def pushByte (b : Byte) (s : State) : State := { s with rxFifo := s.rxFifo ++ [b] }

/-- The byte is lost: `RX_OVF <- 1` (R201). -/
def loseByte (s : State) : State := { s with rxOvf := true }

/-- The RX line delivers a byte (R201). -/
def rxDeliver (b : Byte) (s : State) : State :=
  if s.rxFifo.length < Config.rxFifoDepth then pushByte b s else loseByte s

/-- The timeout test (R204), after the increment of `MONO`. -/
def timeoutTest (s : State) : State :=
  if s.frameTo ≤ s.mono - s.frameStart then finish .timeout s else s

/-- `MONO <- MONO + 1` (R203). -/
def countTick (s : State) : State := { s with mono := s.mono + 1 }

/-- A tick (R203): counted in every engine state, and tested against the deadline in `RECV`. -/
def tickStep (s : State) : State :=
  match s.engine with
  | .receiving _ => timeoutTest (countTick s)
  | .idle => countTick s
  | .encrypting => countTick s
  | .decrypting _ => countTick s

/-- The registers frame acceptance sets (R205): the length, the latches and the deadline. -/
def latchFrame (s : State) : State :=
  { s with
    rxLen := 0
    frameStart := s.mono
    frameTo := s.timeout
    deadline := s.mono + s.timeout }

/-- `state <- RECV(mode)` (R21, R205). -/
def startReceiving (mode : FrameMode) (s : State) : State := { s with engine := .receiving mode }

/-- Frame acceptance (R205): a deadline of 0 ticks has already elapsed. -/
def frameAccept (mode : FrameMode) (s : State) : State :=
  if s.timeout = 0 then finish .timeout (latchFrame s) else startReceiving mode (latchFrame s)

/-- The end of a complete frame: kept raw (R209), or decrypted in the same step (R208). -/
def completeFrame (mode : FrameMode) (s : State) : State :=
  match mode with
  | .raw => finish .ok s
  | .decode => finishDecrypt (envelopeDecrypt (keyString s) (rxText s)) s

/-- The head of the FIFO moves to index `RX_LEN` of `RX_BUF` (R206). -/
def takeByte (b : Byte) (rest : Bytes) (s : State) : State :=
  { s with
    rxFifo := rest
    mem := storeByte s.mem (rxBase + s.rxLen.toNat) b
    rxLen := s.rxLen + 1 }

/-- What follows a stored byte (R206): the terminator test, then the overflow test. -/
def afterByte (mode : FrameMode) (s : State) : State :=
  if endsWithTerm (rxText s) then completeFrame mode s
  else if s.rxLen.toNat = Config.rxCap then finish .frameOverflow s
  else s

/-- The frame byte step (R206). With no byte available it does nothing: an empty read is no error. -/
def frameByte (mode : FrameMode) (s : State) : State :=
  match s.rxFifo with
  | [] => s
  | b :: rest => afterByte mode (takeByte b rest s)

/-- FRAME_RECV's acceptance part (R207). -/
def frameRecvBody (s : State) : State :=
  if !s.keyLocked then finish .noKey (clearPtLen s) else frameAccept .decode (clearPtLen s)

/-- `FRAME_RECV` (R207). -/
def execFrameRecv (s : State) : Host.Outcome State Fault Refusal := .next (accept 0x03 frameRecvBody s)

/-- `FRAME_RAW` (R209). -/
def execFrameRaw (s : State) : Host.Outcome State Fault Refusal := .next (accept 0x04 (frameAccept .raw) s)

/-- The RX FIFO emptied (R210). -/
def emptyFifo (s : State) : State := { s with rxFifo := [] }

/-- RX_FLUSH's acceptance part, which completes in the same step (R210). -/
def rxFlushBody (s : State) : State := finish .ok (emptyFifo s)

/-- `RX_FLUSH` (R210). -/
def execRxFlush (s : State) : Host.Outcome State Fault Refusal := .next (accept 0x05 rxFlushBody s)

end Sys2Proof.Machine
end

