-- ==== Sys2Proof/Machine/Engine.lean ====
section
/-!
DEFINITION. The Engine's step at the event level (R17): completing an accepted ENCRYPT (R177) or DECRYPT (R183), or moving
one byte from the RX FIFO during a reception (R206). In `IDLE` no Engine step is enabled: it changes nothing (log entry 12).
-/
namespace Sys2Proof.Machine

/-- The draw the completion of an ENCRYPT uses: the one the entropy port already holds, else this step's (R176, R52). -/
def drawOf (p : EntropyPort) (e : Option (BitVec 128)) : Option (BitVec 128) :=
  match p with
  | .answered d => d
  | .idle => e
  | .waiting _ => e

/-- One Engine step, with the Entropy source's answer for this step. -/
def engineStep (e : Option (BitVec 128)) (s : State) : State :=
  match s.engine with
  | .idle => s
  | .encrypting => encryptComplete (drawOf s.entropy e) s
  | .decrypting src => decryptComplete src s
  | .receiving mode => frameByte mode s

end Sys2Proof.Machine
end

