-- ==== Sys2Proof/Syntax.lean ====
section
/-!
DEFINITION. The instructions: the six commands of the opcode map (R102), one constructor per row of spec/opcode_table.json.
-/
namespace Sys2Proof

/-- A command (R18, R102). Only DECRYPT carries an operand field, its source select (R103, R104). -/
inductive Instr where
  /-- `ENCRYPT`, R173. -/
  | encrypt
  /-- `DECRYPT`, R179. -/
  | decrypt (src : Src)
  /-- `FRAME_RECV`, R207. -/
  | frameRecv
  /-- `FRAME_RAW`, R209. -/
  | frameRaw
  /-- `RX_FLUSH`, R210. -/
  | rxFlush
  /-- `KEY_LOCK`, R170. -/
  | keyLock
deriving DecidableEq, Repr, Inhabited

end Sys2Proof
end

