-- ==== Sys2Proof/WellFormed.lean ====
section
/-!
DEFINITION. The one command format CMDW (R100) as its three fields, and the checks a command word must pass (R101, R105).
A value of `Instr` cannot break them: its constructors hold legal fields only. They are checks on the fields of a word.
-/
namespace Sys2Proof

/-- The fields of a command word (R100). -/
structure CmdWord where
  /-- `OP`, bits [7:0]. -/
  op : BitVec 8
  /-- `SRC`, bit [8]. -/
  src : BitVec 1
  /-- `RSVD`, bits [31:9]. -/
  rsvd : BitVec 23
deriving DecidableEq, Repr

/-- `RSVD` must be 0 (R100). -/
def CmdWord.rsvdOk (c : CmdWord) : Bool := c.rsvd == 0

/-- `SRC` must be 0 for every opcode but DECRYPT's (R100). -/
def CmdWord.srcOk (c : CmdWord) : Bool := c.src == 0 || c.op == 0x02

/-- `OP` is one of the six opcodes (R101, R102). -/
def CmdWord.opOk (c : CmdWord) : Bool := [0x01, 0x02, 0x03, 0x04, 0x05, 0x06].contains c.op

/-- A word that is not illegal (R105). -/
def CmdWord.wellFormed (c : CmdWord) : Bool := c.rsvdOk && c.srcOk && c.opOk

end Sys2Proof
end

