-- ==== Sys2Proof/Decode.lean ====
section
/-!
DEFINITION. Decoding a command word (R101), rejecting every illegal word by name (R105), and after it the encoder, both
written from R100 and R102.
-/
namespace Sys2Proof

/-- Why a word is illegal (R105). -/
inductive DecodeError where
  /-- `RSVD ≠ 0`. -/
  | reservedBits
  /-- `SRC = 1` with an opcode other than DECRYPT's. -/
  | sourceBit
  /-- `OP` in {0x00, 0x07, ..., 0xFF}. -/
  | opcode
deriving DecidableEq, Repr

/-- The fields of a word (R100). -/
def wordFields (w : Word) : CmdWord where
  op := w.extractLsb' 0 8
  src := w.extractLsb' 8 1
  rsvd := w.extractLsb' 9 23

/-- The word of the fields (R100). -/
def fieldsWord (c : CmdWord) : Word := c.rsvd ++ c.src ++ c.op

/-- The `SRC` bit as the buffer it selects (R103). -/
def decodeSrc (b : BitVec 1) : Src := if b = 0 then .rxBuf else .txBuf

/-- The `SRC` bit of a source (R103). -/
def encodeSrc : Src → BitVec 1
  | .rxBuf => 0
  | .txBuf => 1

/-- Decode of a command word (R101, R102). Total: a word is a command or is illegal, by name. -/
def decode (w : Word) : Except DecodeError Instr :=
  let c := wordFields w
  if !c.rsvdOk then .error .reservedBits
  else if !c.srcOk then .error .sourceBit
  else if c.op = 0x01 then .ok .encrypt
  else if c.op = 0x02 then .ok (.decrypt (decodeSrc c.src))
  else if c.op = 0x03 then .ok .frameRecv
  else if c.op = 0x04 then .ok .frameRaw
  else if c.op = 0x05 then .ok .rxFlush
  else if c.op = 0x06 then .ok .keyLock
  else .error .opcode

/-- A word laid out as the hardware stores it (R74): four bytes, the least significant first. Any other number of bytes
is no command word (R100: there is no other length). -/
def decodeBytes : Bytes → Option Instr
  | [b0, b1, b2, b3] => (decode (b3 ++ b2 ++ b1 ++ b0)).toOption
  | _ => none

/-- The instruction the decoder reads from the bits `w`, every bit above `nbits` being 0. -/
def decodeTableWord (nbits w : Nat) : Option Instr :=
  let v : Word := BitVec.ofNat 32 (w % 2 ^ nbits)
  decodeBytes [v.extractLsb' 0 8, v.extractLsb' 8 8, v.extractLsb' 16 8, v.extractLsb' 24 8]

/-- The opcode of a command (R102). -/
def opcodeOf : Instr → BitVec 8
  | .encrypt => 0x01
  | .decrypt _ => 0x02
  | .frameRecv => 0x03
  | .frameRaw => 0x04
  | .rxFlush => 0x05
  | .keyLock => 0x06

/-- The fields of a command (R100, R102, R103). -/
def instrFields : Instr → CmdWord
  | .encrypt => ⟨0x01, 0, 0⟩
  | .decrypt src => ⟨0x02, encodeSrc src, 0⟩
  | .frameRecv => ⟨0x03, 0, 0⟩
  | .frameRaw => ⟨0x04, 0, 0⟩
  | .rxFlush => ⟨0x05, 0, 0⟩
  | .keyLock => ⟨0x06, 0, 0⟩

/-- The word of a command (R102). -/
def encode (i : Instr) : Word := fieldsWord (instrFields i)

/-- A command is well-formed when its fields are (R105); every command is. -/
def instrWellFormed (i : Instr) : Bool := (instrFields i).wellFormed

end Sys2Proof
end

