-- ==== Sys2Proof/Machine/Dispatch.lean ====
section
/-! DEFINITION. The dispatch: one arm per command, each one direct call of its meaning. -/
namespace Sys2Proof.Machine

/-- What a host write of a command's word to `CMD` does (R101, R77). -/
def exec (i : Instr) (s : State) : Host.Outcome State Fault Refusal :=
  match i with
  | .encrypt => Sys2Proof.Machine.execEncrypt s
  | .decrypt src => Sys2Proof.Machine.execDecrypt src s
  | .frameRecv => Sys2Proof.Machine.execFrameRecv s
  | .frameRaw => Sys2Proof.Machine.execFrameRaw s
  | .rxFlush => Sys2Proof.Machine.execRxFlush s
  | .keyLock => Sys2Proof.Machine.execKeyLock s

end Sys2Proof.Machine
end

