-- ==== Sys2Proof/Machine/Flags.lean ====
section
/-!
DEFINITION. The flags: the numbers of the result codes (R240), `STATUS` as a word (R25), its write-one-to-clear write
(R35), the views `RX_LEVEL` (R43), `CTRL` (R24) and `irq` (R248).
-/
namespace Sys2Proof.Machine

/-- The value of `STATUS.RESULT` (R240). -/
def resultBits : ResultCode → BitVec 4
  | .none => 0
  | .ok => 1
  | .timeout => 2
  | .malformedEnvelope => 3
  | .invalidPadding => 4
  | .randomUnavailable => 5
  | .frameOverflow => 6
  | .badLength => 7
  | .noKey => 8
  | .illegalCommand => 9

/-- `STATUS` as the host reads it (R25). -/
def statusWord (s : State) : Word :=
  s.keyWmask ++ s.lastOp ++ (0 : BitVec 4) ++ resultBits s.result ++ (0 : BitVec 2) ++ BitVec.ofBool s.wrIgnored
    ++ BitVec.ofBool s.rxOvf ++ BitVec.ofBool s.cmdRejected ++ BitVec.ofBool s.keyLocked ++ BitVec.ofBool s.done
    ++ BitVec.ofBool s.busy

/-- A host write `v` to `STATUS` (R35): a 1 in bit 1, 3, 4 or 5 clears that flag; every other bit is ignored. -/
def writeStatus (v : Word) (s : State) : State :=
  { s with
    done := s.done && !v.getLsbD 1
    cmdRejected := s.cmdRejected && !v.getLsbD 3
    rxOvf := s.rxOvf && !v.getLsbD 4
    wrIgnored := s.wrIgnored && !v.getLsbD 5 }

/-- `CTRL` as the host reads it (R24). -/
def ctrlWord (s : State) : Word := (0 : BitVec 30) ++ BitVec.ofBool s.ie ++ BitVec.ofBool s.txTerm

/-- `RX_LEVEL` as the host reads it (R43): bits [5:0]. -/
def rxLevelWord (s : State) : Word := (BitVec.ofNat 6 s.rxFifo.length).setWidth 32

/-- `irq = STATUS.DONE AND CTRL.IE` (R248), a function of the state. -/
def irq (s : State) : Bool := s.done && s.ie

end Sys2Proof.Machine
end

