-- ==== Sys2Proof/Machine/HostPort.lean ====
section
/-!
DEFINITION. The host's steps: reading and writing the register window (R22, R23, R70 to R72, R76 to R80), and a write of
`CMD` (R77, R101), which decodes the word and runs the command.
-/
namespace Sys2Proof.Machine

/-- An access the block supports: aligned, all strobes set (R72). -/
def supported (a : Access) : Bool := a.addr.extractLsb' 0 2 == 0 && a.strb == 0b1111

/-- Word `k` of the buffer at `base` (R46 to R48, R74). -/
def bufWord (s : State) (base k : Nat) : Word :=
  wordOfBytes (readByte s (base + 4 * k)) (readByte s (base + 4 * k + 1)) (readByte s (base + 4 * k + 2))
    (readByte s (base + 4 * k + 3))

/-- The current value of a register as a read returns it (R22, R23): write-only and reserved ones read 0. -/
def currentWord (s : State) (r : Reg) : Word :=
  match r with
  | .ctrl => ctrlWord s
  | .status => statusWord s
  | .cmd => 0
  | .timeout => s.timeout
  | .mono => s.mono
  | .deadline => s.deadline
  | .ptLen => s.ptLen.setWidth 32
  | .txLen => s.txLen.setWidth 32
  | .rxLen => s.rxLen.setWidth 32
  | .rxLevel => rxLevelWord s
  | .key _ => 0
  | .iv i => s.iv.get i
  | .ptBuf k => bufWord s ptBase k
  | .txBuf k => bufWord s txBase k
  | .rxBuf k => bufWord s rxBase k
  | .reserved => 0

/-- The locations DECRYPT and FRAME_RECV write with a plaintext (R78). -/
def plaintextOutput (r : Reg) : Bool :=
  match r with
  | .ptBuf _ | .ptLen | .iv _ => true
  | _ => false

/-- The locations ENCRYPT writes (R78). -/
def envelopeOutput (r : Reg) : Bool :=
  match r with
  | .txBuf _ | .txLen | .iv _ => true
  | _ => false

/-- The words of `RX_BUF` that hold a byte at index `≥ RX_LEN` (R78, R79). -/
def unreceived (s : State) (r : Reg) : Bool :=
  match r with
  | .rxBuf k => s.rxLen.toNat < 4 * k + 4
  | _ => false

/-- Whether a read is of a location the running command will write, so that its value is open (R78). -/
def readOpen (s : State) (r : Reg) : Bool :=
  match s.engine with
  | .idle => false
  | .encrypting => envelopeOutput r
  | .decrypting _ => plaintextOutput r
  | .receiving .decode => plaintextOutput r || unreceived s r
  | .receiving .raw => unreceived s r

/-- A word of `RX_BUF` during reception: the stored bytes in their lanes, free values in the others (R79). -/
def receivingWord (s : State) (k : Nat) : Word :=
  let lane (j : Nat) : Byte :=
    if 4 * k + j < s.rxLen.toNat then readByte s (rxBase + 4 * k + j) else wordByte (Config.freeWord s.draws) j
  wordOfBytes (lane 0) (lane 1) (lane 2) (lane 3)

/-- An open read's value (R78, R79). -/
def openWord (s : State) (r : Reg) : Word :=
  match r with
  | .rxBuf k => receivingWord s k
  | _ => Config.freeWord s.draws

/-- What `MemRead(addr, 4)` of a supported access returns. -/
def readWord (s : State) (r : Reg) : Word := if readOpen s r then openWord s r else currentWord s r

/-- A supported read: no state of the block changes (R80); `prdata` carries the value, and an open read uses up one free
value. -/
def readReg (r : Reg) (s : State) : State :=
  { s with prdata := readWord s r, draws := if readOpen s r then s.draws + 1 else s.draws }

/-- `MemRead(addr, 4)` (R14, R70, R72). -/
def hostRead (a : Access) (s : State) : Host.Outcome State Fault Refusal :=
  if supported a then .next (readReg (regOf a.addr) s) else .fault (.busError a.addr)

/-- `WR_IGNORED <- 1`, the mark of a dropped write (R31). -/
def dropWrite (s : State) : State := { s with wrIgnored := true }

/-- A write the busy rule guards (R76): dropped while busy, with `WR_IGNORED <- 1`. -/
def guardedWrite (f : State → State) (s : State) : State :=
  if s.busy then dropWrite s else f s

/-- An effective write of `KEYi` (R44, R34). -/
def setKey (i : Fin 8) (v : Word) (s : State) : State :=
  { s with key := s.key.set i v, keyWmask := s.keyWmask ||| BitVec.twoPow 8 i.val }

/-- A write of `KEYi` (R44): dropped when locked or busy. -/
def writeKey (i : Fin 8) (v : Word) (s : State) : State :=
  if s.keyLocked then dropWrite s
  else guardedWrite (setKey i v) s

/-- A write of word `k` of the buffer at `base` (R46, R48). -/
def writeBuf (base k : Nat) (v : Word) (s : State) : State :=
  { s with mem := storeBytes s.mem (base + 4 * k) (bytesOfWord v) }

/-- A write of `CTRL` (R24). -/
def setCtrl (v : Word) (s : State) : State := { s with txTerm := v.getLsbD 0, ie := v.getLsbD 1 }

/-- A write of `TIMEOUT` (R37). -/
def setTimeout (v : Word) (s : State) : State := { s with timeout := v }

/-- A write of `PT_LEN` (R40): bits [8:0]. -/
def setPtLen (v : Word) (s : State) : State := { s with ptLen := v.setWidth 9 }

/-- A write of `RX_LEN` (R42): bits [9:0]. -/
def setRxLen (v : Word) (s : State) : State := { s with rxLen := v.setWidth 10 }

/-- A write to `CMD` (R77, R101, R105). -/
def writeCmd (v : Word) (s : State) : Host.Outcome State Fault Refusal :=
  match decode v with
  | .ok i => exec i s
  | .error _ => .next (acceptIllegal (wordFields v).op s)

/-- A supported write (R23, R35, R44, R76): read-only and reserved registers ignore it. -/
def writeReg (r : Reg) (v : Word) (s : State) : Host.Outcome State Fault Refusal :=
  match r with
  | .ctrl => .next (guardedWrite (setCtrl v) s)
  | .status => .next (writeStatus v s)
  | .cmd => writeCmd v s
  | .timeout => .next (guardedWrite (setTimeout v) s)
  | .mono => .next s
  | .deadline => .next s
  | .ptLen => .next (guardedWrite (setPtLen v) s)
  | .txLen => .next s
  | .rxLen => .next (guardedWrite (setRxLen v) s)
  | .rxLevel => .next s
  | .key i => .next (writeKey i v s)
  | .iv _ => .next s
  | .ptBuf k => .next (guardedWrite (writeBuf ptBase k v) s)
  | .txBuf _ => .next s
  | .rxBuf k => .next (guardedWrite (writeBuf rxBase k v) s)
  | .reserved => .next s

/-- `MemWrite(addr, 4, v)` (R14, R70, R72). -/
def hostWrite (a : Access) (v : Word) (s : State) : Host.Outcome State Fault Refusal :=
  if supported a then writeReg (regOf a.addr) v s else .fault (.busError a.addr)

end Sys2Proof.Machine
end

