-- ==== Sys2Proof/Machine/Clock.lean ====
section
/-!
DEFINITION. One whole `clk` cycle (R250, R276): the host access sees the state at the start of the cycle, then the Engine,
then the RX line, then the tick; reset wins over everything. The entropy handshake (R176) and the registered `irq` (R248)
exist at this level only.
-/
namespace Sys2Proof.Machine

/-- The bus outputs `pslverr` and `prdata` (R70, R72). -/
def answerBus (error : Bool) (data : Word) (s : State) : State := { s with pslverr := error, prdata := data }

/-- The host's part of a cycle (R70, R72, R250). An unsupported access answers with `pslverr = 1`, reads 0, and changes
nothing of the block. DESIGN CHOICE (log entry 22): where no access completes (`psel` and `penable` not both 1) `pslverr` is
0, and `prdata` keeps its value there and in a write. -/
def busPhase (c : ClockIn) (s : State) : Host.Outcome State Fault Refusal :=
  if c.psel && c.penable then
    if supported c.access then
      if c.pwrite then writeReg (regOf c.access.addr) c.pwdata (answerBus false s.prdata s)
      else .next (readReg (regOf c.access.addr) (answerBus false s.prdata s))
    else .next (answerBus true (if c.pwrite then s.prdata else 0) s)
  else .next (answerBus false s.prdata s)

/-- The state of the entropy handshake (R176). -/
def setEntropy (p : EntropyPort) (s : State) : State := { s with entropy := p }

/-- `ent_req` rises for a running ENCRYPT when the engine is ready for it (R176). The cycle is free: it may be the one that
accepts the command (R187, log entry 11). -/
def requestEntropy (c : ClockIn) (s : State) : State :=
  if c.engineReady && s.engine == .encrypting && s.entropy == .idle then setEntropy (.waiting 0) s else s

/-- The draw is made: the completion follows in this cycle when the engine is ready, else the draw is held (R177, R187, log
entry 11). Either way `ent_req` is 0 in the cycle after (R176). -/
def takeDraw (c : ClockIn) (d : Option (BitVec 128)) (s : State) : State :=
  if c.engineReady then encryptComplete d s else setEntropy (.answered d) s

/-- One cycle of the entropy handshake and of the ENCRYPT it serves (R176): `ent_fail` wins over `ent_valid`; without an
answer the wait ends after `ENT_WAIT_MAX` cycles; a held draw is the one the completion uses. -/
def entropyCycle (c : ClockIn) (s : State) : State :=
  match s.entropy with
  | .idle => requestEntropy c s
  | .waiting n =>
    if c.entFail then takeDraw c none s
    else if c.entValid then takeDraw c (some c.entData) s
    else if n + 1 < Config.entWaitMax then setEntropy (.waiting (n + 1)) s
    else takeDraw c none s
  | .answered d => takeDraw c d s

/-- `ent_req` (R53, R176). -/
def entReq (s : State) : Bool :=
  match s.entropy with
  | .waiting _ => true
  | .idle => false
  | .answered _ => false

/-- The Engine's part of a cycle, by the engine state at the start of the cycle (R250): a command accepted in this cycle
does not complete before the next, since its `BUSY` is readable (R26); an ENCRYPT may ask for its entropy. A reception takes one byte per cycle while there is one (R216). -/
def enginePhase (c : ClockIn) (atStart : EngineState) (s : State) : State :=
  match atStart with
  | .idle => requestEntropy c s
  | .encrypting => entropyCycle c s
  | .decrypting src => if c.engineReady then decryptComplete src s else s
  | .receiving mode => frameByte mode s

/-- The RX line's part of a cycle, after the Engine's pop (R201, R250). -/
def rxPhase (c : ClockIn) (s : State) : State := if c.rxValid then rxDeliver c.rxData s else s

/-- The Timer's part of a cycle, last: a frame completed in this cycle has left `RECV` (R215, R250), and a frame command
accepted in this cycle counts this tick (R250). -/
def tickPhase (c : ClockIn) (s : State) : State := if c.tick then tickStep s else s

/-- The registered output `irq` (R248). -/
def showIrq (pin : Bool) (s : State) : State := { s with irqPin := pin }

/-- One `clk` cycle (R250, R270, R273, R276). The `irq` pin shows the formula for the state before this cycle's changes
(R248). -/
def clockCycle (c : ClockIn) (s : State) : Host.Outcome State Fault Refusal :=
  if c.rstN then
    match busPhase c s with
    | .next t => .next (showIrq (irq s) (tickPhase c (rxPhase c (enginePhase c s.engine t))))
    | .fault f => .fault f
    | .refused r => .refused r
  else .next (resetState s)

end Sys2Proof.Machine
end

