-- ==== Sys2Proof/Machine/Events.lean ====
section
/-!
DEFINITION. Running one event (R17), and which event is next: the first of those listed in the state, or a free value when
none is listed (93 U6, log entry 1).
-/
namespace Sys2Proof.Machine

/-- What one event does. -/
def runEvent (e : Event) (s : State) : Host.Outcome State Fault Refusal :=
  match e with
  | .memRead a => hostRead a s
  | .memWrite a v => hostWrite a v s
  | .engine d => .next (engineStep d s)
  | .rxByte b => .next (rxDeliver b s)
  | .tick => .next (tickStep s)
  | .reset => .next (resetState s)
  | .clock c => clockCycle c s

/-- The next event, and the state with that event taken off. -/
def nextEvent (s : State) : Event × State :=
  match s.inputs with
  | e :: rest => (e, { s with inputs := rest })
  | [] => (Config.freeEvent s.draws, { s with draws := s.draws + 1 })

/-- The host's write of a command word (R36). -/
def cmdWriteEvent (v : Word) : Event := .memWrite (wordAccess cmdOffset) v

end Sys2Proof.Machine
end

