-- ==== Sys2Proof/Machine/Step.lean ====
section
/-! DEFINITION. One step of the machine: the next event is taken and run (R17). -/
namespace Sys2Proof.Machine

/-- One step. -/
def step (s : State) : Host.Outcome State Fault Refusal :=
  let (e, t) := nextEvent s
  runEvent e t

/-- The state whose next event is the host's write of the word `w` to `CMD`, every bit above `nbits` being 0: the very next
step runs that command (R36, R101, log entry 2). Nothing else changes. -/
def State.withFetchWord (s : State) (nbits w : Nat) : State :=
  { s with inputs := cmdWriteEvent (BitVec.ofNat 32 (w % 2 ^ nbits)) :: s.inputs }

end Sys2Proof.Machine
end

