-- ==== Sys2Proof/Safety.lean ====
section
/-!
DEFINITION. What claims are stated in: the invariant every step keeps, and the premise "no BusError" of R72 and R246.
-/
namespace Sys2Proof.Machine

/-- The values `TX_LEN` can take (R41): 0, or one of 64, 96, ..., 544, or such a value plus 2. -/
def txLenLegal (n : Nat) : Prop := n = 0 ∨ ∃ k, 2 ≤ k ∧ k ≤ 17 ∧ (n = 32 * k ∨ n = 32 * k + 2)

/-- The opcode of the command an engine state runs (R21). -/
def runningOp : EngineState → Option (BitVec 8)
  | .idle => none
  | .encrypting => some 0x01
  | .decrypting _ => some 0x02
  | .receiving .decode => some 0x03
  | .receiving .raw => some 0x04

/-- The invariant of the machine, in the terms of the rules named. -/
structure StateInv (s : State) : Prop where
  /-- The buffers hold storage bytes only, each once, in order (R46 to R48). -/
  memWf : Memory.wf s.mem = true
  /-- `RX_LEVEL` is 0 to `RX_FIFO_DEPTH` (R43). -/
  fifo : s.rxFifo.length ≤ Config.rxFifoDepth
  /-- R41. -/
  txLen : txLenLegal s.txLen.toNat
  /-- `DEADLINE = START + TO` (R51). -/
  deadline : s.deadline = s.frameStart + s.frameTo
  /-- KEY_LOCK needs all eight words (R34, R170). -/
  locked : s.keyLocked = true → s.keyWmask = 0xFF
  /-- A running command has `DONE = 0` and `RESULT = NONE`, and `LAST_OP` is its opcode (R27, R32, R33). -/
  running : ∀ op, runningOp s.engine = some op → s.done = false ∧ s.result = .none ∧ s.lastOp = op
  /-- What ENCRYPT's acceptance checked still holds (R173, R76). -/
  encrypting : s.engine = .encrypting → s.keyLocked = true ∧ s.ptLen.toNat ≤ Config.maxPt
  /-- What DECRYPT's acceptance checked still holds (R179, R76). -/
  decrypting : ∀ src, s.engine = .decrypting src → s.keyLocked = true ∧ (srcLimits src s).1 ≤ (srcLimits src s).2
  /-- A reception has room for the next byte, and its deadline has not come (R206, R204). -/
  receiving : ∀ mode, s.engine = .receiving mode →
    s.rxLen.toNat < Config.rxCap ∧ s.mono - s.frameStart < s.frameTo
  /-- FRAME_RECV runs with the key locked and `PT_LEN = 0` (R207). -/
  decoding : s.engine = .receiving .decode → s.keyLocked = true ∧ s.ptLen = 0
  /-- The entropy handshake serves a running ENCRYPT, and never waits `ENT_WAIT_MAX` cycles or more (R176). -/
  entropy : s.entropy ≠ .idle → s.engine = .encrypting
  waiting : ∀ n, s.entropy = .waiting n → n < Config.entWaitMax

/-- The premise "no BusError" for one event (R72, R246): at the event level an unsupported access is the host's fault. -/
def noBusError (e : Event) : Bool :=
  match e with
  | .memRead a => supported a
  | .memWrite a _ => supported a
  | .engine _ => true
  | .rxByte _ => true
  | .tick => true
  | .reset => true
  | .clock _ => true

/-- Whether an event resets the block (R270). -/
def resets (e : Event) : Bool :=
  match e with
  | .reset => true
  | .clock c => !c.rstN
  | .memRead _ => false
  | .memWrite _ _ => false
  | .engine _ => false
  | .rxByte _ => false
  | .tick => false

/-- Whether an event is or contains a tick that counts (R203, R270). -/
def ticks (e : Event) : Bool :=
  match e with
  | .tick => true
  | .clock c => c.rstN && c.tick
  | .memRead _ => false
  | .memWrite _ _ => false
  | .engine _ => false
  | .rxByte _ => false
  | .reset => false

/-- The events that only the RX line, the Timer and the Engine take (R200). -/
def isFrameEvent (e : Event) : Bool :=
  match e with
  | .rxByte _ => true
  | .tick => true
  | .engine _ => true
  | .memRead _ => false
  | .memWrite _ _ => false
  | .reset => false
  | .clock _ => false

/-- The bytes the RX line delivers in a list of events, in order (R201). -/
def delivered : List Event → Bytes
  | [] => []
  | .rxByte b :: es => b :: delivered es
  | _ :: es => delivered es

/-- How many ticks there are in a list of events. -/
def tickCount (es : List Event) : Nat := es.countP ticks

/-- A byte string whose only CR LF is its end: no proper initial part ends with the terminator (R211). -/
def firstTermAtEnd (frame : Bytes) : Prop :=
  endsWithTerm frame = true ∧ ∀ n, n < frame.length → endsWithTerm (frame.take n) = false

/-- Run events one after the other, stopping at the first that gives no next state. -/
def runEvents : List Event → State → Host.Outcome State Fault Refusal
  | [], s => .next s
  | e :: es, s =>
    match runEvent e s with
    | .next t => runEvents es t
    | .fault f => .fault f
    | .refused r => .refused r

end Sys2Proof.Machine
end

