-- ==== Sys2Proof/Certificates/Slice0/Obligations.lean ====
section
/-!
DEFINITION. The statements for the provers, from the spec's numbered rules. Each docstring names the rule it formalises.
-/
open Sys2Proof Sys2Proof.Machine

/-! Encoding and decoding. -/

/-- R102: the words of the opcode map decode to their commands, and words beside them do not decode. -/
def Obligations.DecodeTableWords : Prop :=
  decode 0x00000001 = .ok .encrypt ∧ decode 0x00000002 = .ok (.decrypt .rxBuf) ∧
  decode 0x00000102 = .ok (.decrypt .txBuf) ∧ decode 0x00000003 = .ok .frameRecv ∧
  decode 0x00000004 = .ok .frameRaw ∧ decode 0x00000005 = .ok .rxFlush ∧ decode 0x00000006 = .ok .keyLock ∧
  decode 0x00000101 = .error .sourceBit ∧ decode 0x00000302 = .error .reservedBits ∧ decode 0x00000007 = .error .opcode

/-- R100, R102: decoding and encoding agree in both directions, on every 32-bit word and every command. -/
def Obligations.DecodeAgreesWithEncode : Prop :=
  ∀ (w : Word) (i : Instr), decode w = .ok i ↔ w = encode i

/-- R105: which words are illegal, and that an illegal word written while not busy completes at once with
`ILLEGAL_COMMAND` and changes nothing but `STATUS`. -/
def Obligations.IllegalWordsCompleteAtOnce : Prop :=
  ∀ w : Word,
    ((∃ e, decode w = .error e) ↔
      (w.extractLsb' 0 8 = 0x00 ∨ 0x07 ≤ w.extractLsb' 0 8 ∨ w.extractLsb' 9 23 ≠ 0 ∨
        (w.getLsbD 8 = true ∧ w.extractLsb' 0 8 ≠ 0x02))) ∧
    ((∃ e, decode w = .error e) → ∀ s : State, s.busy = false →
      runEvent (cmdWriteEvent w) s =
        .next { s with lastOp := w.extractLsb' 0 8, done := true, result := .illegalCommand })

/-! The step. -/

/-- R36, R101: when the next event is the host's write of a command's word to `CMD`, the step is the command's meaning, on
the state with that event taken off. -/
def Obligations.StepRunsWrittenCommand : Prop :=
  (∀ (s : State) (w : Word) (rest : List Event) (i : Instr), s.inputs = cmdWriteEvent w :: rest → decode w = .ok i →
    step s = exec i { s with inputs := rest }) ∧
  (∀ (s : State) (i : Instr), step (s.withFetchWord 32 (encode i).toNat) = exec i s)

/-- R77: a `CMD` write while busy is not accepted and sets `CMD_REJECTED` only; while not busy, the write of a command's
word starts that command, whose opcode `LAST_OP` then shows. -/
def Obligations.CommandWriteWhileBusyIsRejected : Prop :=
  ∀ (w : Word) (s : State),
    (s.busy = true → runEvent (cmdWriteEvent w) s = .next { s with cmdRejected := true }) ∧
    (∀ i, s.busy = false → decode w = .ok i → ∃ t, runEvent (cmdWriteEvent w) s = .next t ∧ exec i s = .next t ∧
      t.lastOp = w.extractLsb' 0 8 ∧ t.cmdRejected = s.cmdRejected)

/-! Reset and the invariant. -/

/-- R54: the state after reset. The unspecified buffer bytes are the free values of log entry 3. -/
def Obligations.ResetValues : Prop :=
  State.reset.engine = .idle ∧ ctrlWord State.reset = 0 ∧ statusWord State.reset = 0 ∧ State.reset.timeout = 2000 ∧
  State.reset.mono = 0 ∧ State.reset.deadline = 0 ∧ State.reset.ptLen = 0 ∧ State.reset.txLen = 0 ∧
  State.reset.rxLen = 0 ∧ rxLevelWord State.reset = 0 ∧ keyString State.reset = List.replicate 32 0 ∧
  ivString State.reset = List.replicate 16 0 ∧ State.reset.rxFifo = [] ∧ State.reset.frameStart = 0 ∧
  State.reset.frameTo = 0 ∧ irq State.reset = false ∧ State.reset.irqPin = false ∧ entReq State.reset = false ∧
  (∀ off, isStorage off = true → readByte State.reset off = Config.resetByte 0 off)

/-- R270, R271, R273, R274: a reset step and a clock cycle with `rst_n = 0` both end in the reset state, whatever the state
and the other inputs; the buffers then hold the free values of that reset (log entries 3 and 21), and `prdata` and `pslverr`
are 0 (R273, log entry 8). -/
def Obligations.ResetWinsFromEveryState : Prop :=
  ∀ (e : Event) (s : State), resets e = true →
    ∃ t, runEvent e s = .next t ∧ { t with inputs := [], draws := 0, epoch := 0 } = State.reset ∧
      t.inputs = s.inputs ∧ t.epoch = s.epoch + 1 ∧
      ∀ off, isStorage off = true → readByte t off = Config.resetByte t.epoch off

/-- The invariant holds at reset (R54). -/
def Obligations.ResetMeetsInvariant : Prop := StateInv State.reset

/-- Every step keeps the invariant (R21 to R51): canonical buffers, FIFO bound, legal `TX_LEN`, `DEADLINE = START + TO`,
lock only with all key words, a running command's status and operands, room and time left in a reception. -/
def Obligations.StepKeepsInvariant : Prop :=
  ∀ s t : State, StateInv s → step s = .next t → StateInv t

/-! The host port. -/

/-- R72: an access that is misaligned or lacks a strobe has no effect; at the event level it is `BusError`, at the clock
level it completes with `pslverr = 1` and, for a read, `prdata = 0`, and the cycle does all else as without it. -/
def Obligations.UnsupportedAccessHasNoEffect : Prop :=
  ∀ (a : Access) (s : State), (a.addr.toNat % 4 ≠ 0 ∨ a.strb ≠ 0b1111) →
    runEvent (.memRead a) s = .fault (.busError a.addr) ∧
    (∀ v, runEvent (.memWrite a v) s = .fault (.busError a.addr)) ∧
    (∀ c : ClockIn, c.rstN = true → c.psel = true → c.penable = true → c.access = a →
      ∃ t u, clockCycle { c with psel := false } s = .next t ∧ clockCycle c s = .next u ∧
        u = { t with pslverr := true, prdata := u.prdata } ∧ (c.pwrite = false → u.prdata = 0))

/-- R246, R258: `BusError` is the only fault and nothing is refused: a step whose event is no unsupported access answers a
next state, in every state. -/
def Obligations.OnlyBusErrorStops : Prop :=
  ∀ s : State,
    (noBusError (nextEvent s).1 = true → ∃ t, step s = .next t) ∧
    (∀ f, step s = .fault f → noBusError (nextEvent s).1 = false) ∧
    (∀ r, step s ≠ .refused r)

/-- R80: a read changes nothing of the block; only the port's `prdata` and the model's count of free values may change. Two
reads of a location no running command writes return the same value. -/
def Obligations.ReadsHaveNoSideEffect : Prop :=
  ∀ (a : Access) (s : State), supported a = true →
    ∃ t, runEvent (.memRead a) s = .next t ∧ t = { s with prdata := t.prdata, draws := t.draws } ∧
      (readOpen s (regOf a.addr) = false → t.draws = s.draws ∧ runEvent (.memRead a) t = .next t)

/-- R44: a key write is dropped with `WR_IGNORED` when locked or busy, else it sets the word and its `KEY_WMASK` bit; the key
is never readable: no read of any register depends on it, and `KEYi` reads 0. -/
def Obligations.KeyRegisterRule : Prop :=
  ∀ (i : Fin 8) (v : Word) (s : State),
    ((s.keyLocked = true ∨ s.busy = true) →
      runEvent (.memWrite (wordAccess (BitVec.ofNat 12 (0x040 + 4 * i.val))) v) s =
        .next { s with wrIgnored := true }) ∧
    (s.keyLocked = false → s.busy = false →
      runEvent (.memWrite (wordAccess (BitVec.ofNat 12 (0x040 + 4 * i.val))) v) s =
        .next { s with key := s.key.set i v, keyWmask := s.keyWmask ||| BitVec.twoPow 8 i.val }) ∧
    (∃ t, runEvent (.memRead (wordAccess (BitVec.ofNat 12 (0x040 + 4 * i.val)))) s = .next t ∧ t.prdata = 0) ∧
    (∀ (a : Access) (k : Vector Word 8), supported a = true →
      ∃ t, runEvent (.memRead a) s = .next t ∧ runEvent (.memRead a) { s with key := k } = .next { t with key := k })

/-- R25, R240: the fields of `STATUS`, its reserved bits, and the number of each result code, as a read of offset 0x004 returns
them in every state. -/
def Obligations.StatusReadsItsFields : Prop :=
  ∀ s : State, ∃ t, runEvent (.memRead (wordAccess 0x004)) s = .next t ∧
    t.prdata.getLsbD 0 = s.busy ∧ t.prdata.getLsbD 1 = s.done ∧ t.prdata.getLsbD 2 = s.keyLocked ∧
    t.prdata.getLsbD 3 = s.cmdRejected ∧ t.prdata.getLsbD 4 = s.rxOvf ∧ t.prdata.getLsbD 5 = s.wrIgnored ∧
    t.prdata.extractLsb' 6 2 = 0 ∧ t.prdata.extractLsb' 12 4 = 0 ∧
    t.prdata.extractLsb' 16 8 = s.lastOp ∧ t.prdata.extractLsb' 24 8 = s.keyWmask ∧
    ∀ p ∈ [(ResultCode.none, 0), (.ok, 1), (.timeout, 2), (.malformedEnvelope, 3), (.invalidPadding, 4),
        (.randomUnavailable, 5), (.frameOverflow, 6), (.badLength, 7), (.noKey, 8), (.illegalCommand, 9)],
      s.result = p.1 → (t.prdata.extractLsb' 8 4).toNat = p.2

/-- R35: a write to `STATUS` clears exactly the write-one-to-clear bits written 1, busy or not, and sets nothing. -/
def Obligations.StatusWriteClearsFlags : Prop :=
  ∀ (v : Word) (s : State), ∃ t, runEvent (.memWrite (wordAccess 0x004) v) s = .next t ∧
    t = { s with done := t.done, cmdRejected := t.cmdRejected, rxOvf := t.rxOvf, wrIgnored := t.wrIgnored } ∧
    (t.done = true ↔ s.done = true ∧ v.getLsbD 1 = false) ∧
    (t.cmdRejected = true ↔ s.cmdRejected = true ∧ v.getLsbD 3 = false) ∧
    (t.rxOvf = true ↔ s.rxOvf = true ∧ v.getLsbD 4 = false) ∧
    (t.wrIgnored = true ↔ s.wrIgnored = true ∧ v.getLsbD 5 = false)

/-- R76: while busy, writes of `CTRL`, `TIMEOUT`, `PT_LEN`, `RX_LEN`, `KEY0..7`, `PT_BUF`, `RX_BUF` are dropped with
`WR_IGNORED`; a `STATUS` write is applied (R35), a `CMD` write follows R77; a write to a read-only or reserved offset has no
effect at any time. -/
def Obligations.BusyWritesAreDropped : Prop :=
  ∀ (off : Offset) (v : Word) (s : State), off.toNat % 4 = 0 →
    (s.busy = true →
      (off.toNat ∈ [0x000, 0x00C, 0x018, 0x020] ∨ (0x040 ≤ off.toNat ∧ off.toNat < 0x060) ∨
        (0x100 ≤ off.toNat ∧ off.toNat < 0x200) ∨ (0x800 ≤ off.toNat ∧ off.toNat < 0xA24)) →
      runEvent (.memWrite (wordAccess off) v) s = .next { s with wrIgnored := true }) ∧
    (s.busy = true → off.toNat = 0x004 → runEvent (.memWrite (wordAccess off) v) s = .next (writeStatus v s)) ∧
    (s.busy = true → off.toNat = 0x008 →
      runEvent (.memWrite (wordAccess off) v) s = .next { s with cmdRejected := true }) ∧
    ((off.toNat ∈ [0x010, 0x014, 0x01C] ∨ (0x024 ≤ off.toNat ∧ off.toNat < 0x040) ∨
        (0x060 ≤ off.toNat ∧ off.toNat < 0x100) ∨ (0x200 ≤ off.toNat ∧ off.toNat < 0x800) ∨ 0xA24 ≤ off.toNat) →
      runEvent (.memWrite (wordAccess off) v) s = .next s)

/-- R24, R37, R40, R42: while not busy, a write of `CTRL`, `TIMEOUT`, `PT_LEN` or `RX_LEN` sets the writable bits of that
register to those of what was written and changes nothing else, and a read then returns them. -/
def Obligations.RegisterWritesReadBack : Prop :=
  ∀ (v : Word) (s : State), s.busy = false →
    (∃ t u, runEvent (.memWrite (wordAccess 0x000) v) s = .next t ∧
      t = { s with txTerm := v.getLsbD 0, ie := v.getLsbD 1 } ∧
      runEvent (.memRead (wordAccess 0x000)) t = .next u ∧ u.prdata = v &&& 0x3) ∧
    (∃ t u, runEvent (.memWrite (wordAccess 0x00C) v) s = .next t ∧ t = { s with timeout := v } ∧
      runEvent (.memRead (wordAccess 0x00C)) t = .next u ∧ u.prdata = v) ∧
    (∃ t u, runEvent (.memWrite (wordAccess 0x018) v) s = .next t ∧ t = { s with ptLen := v.extractLsb' 0 9 } ∧
      runEvent (.memRead (wordAccess 0x018)) t = .next u ∧ u.prdata = v &&& 0x1FF) ∧
    (∃ t u, runEvent (.memWrite (wordAccess 0x020) v) s = .next t ∧ t = { s with rxLen := v.extractLsb' 0 10 } ∧
      runEvent (.memRead (wordAccess 0x020)) t = .next u ∧ u.prdata = v &&& 0x3FF)

/-- R46, R48, R74: while not busy, a write of a word of `PT_BUF` or `RX_BUF` sets its storage bytes, least significant first,
and no other byte; a read returns the word, with the bytes beyond the storage 0. -/
def Obligations.BufferWritesReadBack : Prop :=
  ∀ (off : Offset) (v : Word) (s : State), s.busy = false → off.toNat % 4 = 0 →
    ((0x100 ≤ off.toNat ∧ off.toNat < 0x200) ∨ (0x800 ≤ off.toNat ∧ off.toNat < 0xA24)) →
    ∃ t u, runEvent (.memWrite (wordAccess off) v) s = .next t ∧ t = { s with mem := t.mem } ∧
      (∀ j, j < 4 → isStorage (off.toNat + j) = true → readByte t (off.toNat + j) = v.extractLsb' (8 * j) 8) ∧
      (∀ other, other < off.toNat ∨ off.toNat + 4 ≤ other → readByte t other = readByte s other) ∧
      runEvent (.memRead (wordAccess off)) t = .next u ∧
      u.prdata = (if off.toNat = 0xA20 then v &&& 0xFFFF else v)

/-- R23, R71: reserved offsets, the buffer words beyond the storage, `CMD` and the key registers read 0 in every state. -/
def Obligations.ReservedOffsetsReadZero : Prop :=
  ∀ (off : Offset) (s : State), off.toNat % 4 = 0 →
    (off.toNat = 0x008 ∨ (0x028 ≤ off.toNat ∧ off.toNat < 0x060) ∨ (0x070 ≤ off.toNat ∧ off.toNat < 0x100) ∨
      (0x200 ≤ off.toNat ∧ off.toNat < 0x400) ∨ (0x624 ≤ off.toNat ∧ off.toNat < 0x800) ∨ 0xA24 ≤ off.toNat) →
    runEvent (.memRead (wordAccess off)) s = .next { s with prdata := 0 }

/-- R22, R78, R79: what a host read returns, in every state. `CTRL`, `TIMEOUT`, `MONO`, `DEADLINE`, `RX_LEN` and `RX_LEVEL` are
always current. The outputs of the running command of R78's table read as a free word, a fresh one at each read (log entry 4);
a word of `RX_BUF` during a reception is current when all its bytes are received, and when some are it has those in their
lanes and free values in the others. Every other read of `PT_LEN`, `TX_LEN`, `IV0..3` and the buffers is current (`STATUS`, and
the offsets that read 0: `StatusReadsItsFields`, `ReservedOffsetsReadZero`). -/
def Obligations.ReadsWhileRunning : Prop :=
  ∀ s : State,
    let read (off : Nat) : Host.Outcome State Fault Refusal := runEvent (.memRead (wordAccess (BitVec.ofNat 12 off))) s
    let current (off : Nat) (v : Word) : Prop := read off = .next { s with prdata := v }
    let currentBytes (off : Nat) : Prop :=
      current off (readByte s (off + 3) ++ readByte s (off + 2) ++ readByte s (off + 1) ++ readByte s off)
    let free (off : Nat) : Prop :=
      read off = .next { s with prdata := Config.freeWord s.draws, draws := s.draws + 1 }
    let decodes : Prop := (∃ src, s.engine = .decrypting src) ∨ s.engine = .receiving .decode
    (current 0x000 ((0 : BitVec 30) ++ BitVec.ofBool s.ie ++ BitVec.ofBool s.txTerm) ∧ current 0x00C s.timeout ∧
      current 0x010 s.mono ∧ current 0x014 s.deadline ∧ current 0x020 (s.rxLen.setWidth 32) ∧
      (s.rxFifo.length ≤ 32 → current 0x024 (BitVec.ofNat 32 s.rxFifo.length))) ∧
    (s.engine = .encrypting →
      free 0x01C ∧ (∀ i, i < 4 → free (0x060 + 4 * i)) ∧ ∀ k, k < 137 → free (0x400 + 4 * k)) ∧
    (decodes → free 0x018 ∧ (∀ i, i < 4 → free (0x060 + 4 * i)) ∧ ∀ k, k < 64 → free (0x100 + 4 * k)) ∧
    ((∃ mode, s.engine = .receiving mode) → ∀ k, k < 137 →
      (s.rxLen.toNat ≤ 4 * k → free (0x800 + 4 * k)) ∧
      (4 * k + 4 ≤ s.rxLen.toNat → currentBytes (0x800 + 4 * k)) ∧
      (4 * k < s.rxLen.toNat → s.rxLen.toNat < 4 * k + 4 →
        ∃ v, read (0x800 + 4 * k) = .next { s with prdata := v, draws := s.draws + 1 } ∧
          ∀ j, j < 4 → v.extractLsb' (8 * j) 8 =
            if 4 * k + j < s.rxLen.toNat then readByte s (0x800 + 4 * k + j)
            else (Config.freeWord s.draws).extractLsb' (8 * j) 8)) ∧
    (¬decodes → current 0x018 (s.ptLen.setWidth 32) ∧ ∀ k, k < 64 → currentBytes (0x100 + 4 * k)) ∧
    (s.engine ≠ .encrypting → current 0x01C (s.txLen.setWidth 32) ∧ ∀ k, k < 137 → currentBytes (0x400 + 4 * k)) ∧
    (s.engine ≠ .encrypting → ¬decodes → ∀ i : Fin 4, current (0x060 + 4 * i.val) (s.iv.get i)) ∧
    ((∀ mode, s.engine ≠ .receiving mode) → ∀ k, k < 137 → currentBytes (0x800 + 4 * k))

/-! KEY_LOCK, ENCRYPT, DECRYPT. -/

/-- R170: KEY_LOCK completes at acceptance: `OK` and locked when the key was locked or all eight words were written, else
`NO_KEY`; nothing else changes. -/
def Obligations.KeyLockResult : Prop :=
  ∀ s : State, s.busy = false →
    (s.keyLocked = true ∨ s.keyWmask = 0xFF →
      exec .keyLock s = .next { s with lastOp := 0x06, keyLocked := true, done := true, result := .ok }) ∧
    (s.keyLocked = false → s.keyWmask ≠ 0xFF →
      exec .keyLock s = .next { s with lastOp := 0x06, done := true, result := .noKey })

/-- R173, R174: ENCRYPT's acceptance: `NO_KEY` first, then `BAD_LENGTH`, each with `TX_LEN` 0 and nothing else changed, else
it runs. -/
def Obligations.EncryptAcceptance : Prop :=
  ∀ s : State, s.busy = false →
    (s.keyLocked = false →
      exec .encrypt s = .next { s with lastOp := 0x01, txLen := 0, done := true, result := .noKey }) ∧
    (s.keyLocked = true → 255 < s.ptLen.toNat →
      exec .encrypt s = .next { s with lastOp := 0x01, txLen := 0, done := true, result := .badLength }) ∧
    (s.keyLocked = true → s.ptLen.toNat ≤ 255 →
      exec .encrypt s =
        .next { s with lastOp := 0x01, done := false, result := .none, engine := .encrypting })

/-- R177 with R172: an accepted ENCRYPT whose entropy draw is `some iv` completes: `TX_BUF` holds the envelope text, `TX_LEN`
its length, `IV0..3` the IV, `RESULT = OK`; every other byte and register is unchanged. The byte order of the key, the draw and
the IV registers (R45, R49, R74): byte `4i + j` is bits `[8j+7:8j]` of word `i`, byte `i` of a draw its bits `[8i+7:8i]`. -/
def Obligations.EncryptCompletes : Prop :=
  (∀ (s : State) (d : BitVec 128), s.busy = false → s.keyLocked = true → s.ptLen.toNat ≤ 255 → s.entropy = .idle →
    ∃ t u, exec .encrypt s = .next t ∧ t.busy = true ∧ runEvent (.engine (some d)) t = .next u ∧
      u.txLen.toNat = (envelopeEncrypt (keyString s) (bytesOfDraw d) (ptText s) s.txTerm).length ∧
      txText u = envelopeEncrypt (keyString s) (bytesOfDraw d) (ptText s) s.txTerm ∧
      ivString u = bytesOfDraw d ∧
      (∀ off, off < txBase ∨
          txBase + (envelopeEncrypt (keyString s) (bytesOfDraw d) (ptText s) s.txTerm).length ≤ off →
        readByte u off = readByte s off) ∧
      u = { s with lastOp := 0x01, done := true, result := .ok, mem := u.mem, txLen := u.txLen, iv := u.iv }) ∧
  (∀ s : State, (keyString s).length = 32 ∧ (ivString s).length = 16 ∧ ∀ j, j < 4 →
    (∀ i : Fin 8, (keyString s)[4 * i.val + j]? = some ((s.key.get i).extractLsb' (8 * j) 8)) ∧
    (∀ i : Fin 4, (ivString s)[4 * i.val + j]? = some ((s.iv.get i).extractLsb' (8 * j) 8))) ∧
  (∀ d : BitVec 128, (bytesOfDraw d).length = 16 ∧ ∀ i, i < 16 → (bytesOfDraw d)[i]? = some (d.extractLsb' (8 * i) 8))

/-- R178: on every failure of ENCRYPT `TX_LEN` becomes 0 and `TX_BUF`, `IV0..3`, `PT_BUF` and all else but `STATUS` keep their
values; no entropy ends in `RANDOM_UNAVAILABLE`. -/
def Obligations.EncryptFailureEffects : Prop :=
  ∀ s : State, s.busy = false → s.entropy = .idle →
    (s.keyLocked = false ∨ 255 < s.ptLen.toNat →
      ∃ t, exec .encrypt s = .next t ∧ (t.result = .noKey ∨ t.result = .badLength) ∧
        t = { s with lastOp := 0x01, done := true, result := t.result, txLen := 0 }) ∧
    (s.keyLocked = true → s.ptLen.toNat ≤ 255 →
      ∃ t, exec .encrypt s = .next t ∧ runEvent (.engine none) t =
        .next { s with lastOp := 0x01, done := true, result := .randomUnavailable, txLen := 0 })

/-- R186: the shape of the envelope after an ENCRYPT that ended with `OK`: the ciphertext's length, the text's length without
the CR LF, and `TX_LEN`. -/
def Obligations.EnvelopeShape : Prop :=
  ∀ (s u : State) (e : Option (BitVec 128)), s.engine = .encrypting → s.ptLen.toNat ≤ 255 →
    runEvent (.engine e) s = .next u → u.result = .ok →
    u.txLen.toNat = 32 + 32 * (s.ptLen.toNat / 16 + 1) + 2 * s.txTerm.toNat ∧
    ∃ (iv c text : Bytes), c = cbcEnc (keyString s) iv (pad (ptText s)) ∧ c.length % 16 = 0 ∧ 16 ≤ c.length ∧
      ivString u = iv ∧ text = hexEnc (iv ++ c) ∧ text.length % 2 = 0 ∧ 64 ≤ text.length ∧
      txText u = text ++ (if s.txTerm then [0x0D, 0x0A] else [])

/-- R179, R180: DECRYPT's acceptance, for both sources: `NO_KEY` first, then `BAD_LENGTH`, each with `PT_LEN` 0 and nothing
else changed, else it runs. Where the invariant holds, `TX_LEN` never exceeds 546, so `TX_BUF` never gives `BAD_LENGTH`. -/
def Obligations.DecryptAcceptance : Prop :=
  ∀ (src : Src) (s : State), s.busy = false →
    (s.keyLocked = false →
      exec (.decrypt src) s = .next { s with lastOp := 0x02, ptLen := 0, done := true, result := .noKey }) ∧
    (s.keyLocked = true → 546 < (if src = .rxBuf then s.rxLen.toNat else s.txLen.toNat) →
      exec (.decrypt src) s = .next { s with lastOp := 0x02, ptLen := 0, done := true, result := .badLength }) ∧
    (s.keyLocked = true → (if src = .rxBuf then s.rxLen.toNat else s.txLen.toNat) ≤ 546 →
      exec (.decrypt src) s =
        .next { s with lastOp := 0x02, done := false, result := .none, engine := .decrypting src }) ∧
    (StateInv s → s.txLen.toNat ≤ 546)

/-- R183: an accepted DECRYPT completes: a good envelope's plaintext, length and IV are written, `RESULT = OK`; a bad one
leaves `PT_LEN = 0`, its code, and everything else as it was. -/
def Obligations.DecryptCompletes : Prop :=
  ∀ (src : Src) (s : State) (e : Option (BitVec 128)), s.busy = false → s.keyLocked = true →
    (if src = .rxBuf then s.rxLen.toNat else s.txLen.toNat) ≤ 546 →
    ∃ t u, exec (.decrypt src) s = .next t ∧ t.busy = true ∧ runEvent (.engine e) t = .next u ∧
      (∀ p iv, envelopeDecrypt (keyString s) (srcText src s) = .ok p iv →
        u.ptLen.toNat = p.length ∧ ptText u = p ∧ ivString u = iv ∧
        (∀ off, off < ptBase ∨ ptBase + p.length ≤ off → readByte u off = readByte s off) ∧
        u = { s with lastOp := 0x02, done := true, result := .ok, mem := u.mem, ptLen := u.ptLen, iv := u.iv }) ∧
      (∀ code, envelopeDecrypt (keyString s) (srcText src s) = .fail code →
        (code = .malformedEnvelope ∨ code = .invalidPadding) ∧
        u = { s with lastOp := 0x02, done := true, result := code, ptLen := 0 })

/-! The frame unit. -/

/-- R207: FRAME_RECV without a locked key ends at acceptance with `NO_KEY` and `PT_LEN` 0; nothing else changes. -/
def Obligations.FrameRecvNeedsKey : Prop :=
  ∀ s : State, s.busy = false → s.keyLocked = false →
    exec .frameRecv s = .next { s with lastOp := 0x03, ptLen := 0, done := true, result := .noKey }

/-- R205: frame acceptance, for FRAME_RAW, and for FRAME_RECV with the key locked (whose acceptance also clears `PT_LEN`,
R207): the length, the latches and the deadline are set; with `TIMEOUT = 0` it ends at once with `TIMEOUT` and no byte is
consumed, else it receives. -/
def Obligations.FrameAcceptance : Prop :=
  ∀ s : State, s.busy = false →
    (s.timeout = 0 →
      exec .frameRaw s = .next { s with
        lastOp := 0x04, rxLen := 0, frameStart := s.mono, frameTo := 0, deadline := s.mono, done := true,
        result := .timeout } ∧
      (s.keyLocked = true → exec .frameRecv s = .next { s with
        lastOp := 0x03, ptLen := 0, rxLen := 0, frameStart := s.mono, frameTo := 0, deadline := s.mono, done := true,
        result := .timeout })) ∧
    (s.timeout ≠ 0 →
      exec .frameRaw s = .next { s with
        lastOp := 0x04, rxLen := 0, frameStart := s.mono, frameTo := s.timeout, deadline := s.mono + s.timeout,
        done := false, result := .none, engine := .receiving .raw } ∧
      (s.keyLocked = true → exec .frameRecv s = .next { s with
        lastOp := 0x03, ptLen := 0, rxLen := 0, frameStart := s.mono, frameTo := s.timeout,
        deadline := s.mono + s.timeout, done := false, result := .none, engine := .receiving .decode }))

/-- R210: RX_FLUSH empties the RX FIFO and completes at acceptance with `OK`; `RX_OVF`, `RX_BUF` and all else stay. -/
def Obligations.RxFlushEmptiesFifo : Prop :=
  ∀ s : State, s.busy = false →
    exec .rxFlush s = .next { s with lastOp := 0x05, rxFifo := [], done := true, result := .ok }

/-- R201: a received byte enters the FIFO, or is lost and sets `RX_OVF` when 32 are held, in every engine state; at the clock
level the Engine's pop comes first, so a full FIFO that is popped accepts the byte. -/
def Obligations.RxByteDelivery : Prop :=
  ∀ (b : Byte) (s : State),
    (s.rxFifo.length < 32 → runEvent (.rxByte b) s = .next { s with rxFifo := s.rxFifo ++ [b] }) ∧
    (32 ≤ s.rxFifo.length → runEvent (.rxByte b) s = .next { s with rxOvf := true }) ∧
    (∀ (c : ClockIn) (mode : FrameMode), s.engine = .receiving mode → s.rxFifo.length = 32 → c.rstN = true →
      c.psel = false → c.rxValid = true → c.rxData = b →
      ∃ t, clockCycle c s = .next t ∧ t.rxFifo = s.rxFifo.tail ++ [b] ∧ t.rxOvf = s.rxOvf)

/-- R203, R204: a tick increments `MONO` in every engine state; during a reception it then ends the command with `TIMEOUT`
exactly when `(MONO - START) mod 2^32 ≥ TO`, keeping the bytes received; nothing else changes. -/
def Obligations.TickAndTimeoutTest : Prop :=
  ∀ s : State,
    ((∀ mode, s.engine ≠ .receiving mode) → runEvent .tick s = .next { s with mono := s.mono + 1 }) ∧
    (∀ mode, s.engine = .receiving mode →
      (s.frameTo.toNat ≤ (s.mono.toNat + 1 + (2 ^ 32 - s.frameStart.toNat)) % 2 ^ 32 →
        runEvent .tick s =
          .next { s with mono := s.mono + 1, result := .timeout, done := true, engine := .idle }) ∧
      ((s.mono.toNat + 1 + (2 ^ 32 - s.frameStart.toNat)) % 2 ^ 32 < s.frameTo.toNat →
        runEvent .tick s = .next { s with mono := s.mono + 1 }))

/-- R204, R205, R218: with no byte arriving, a frame command is still running after every number of ticks below `TIMEOUT`, and
ends with `TIMEOUT` at exactly the `TIMEOUT`-th tick, wherever `MONO` stood and though it wraps. -/
def Obligations.ReceptionEndsAtDeadlineTick : Prop :=
  ∀ (i : Instr) (s : State) (n : Nat), (i = .frameRaw ∨ (i = .frameRecv ∧ s.keyLocked = true)) → s.busy = false →
    n < s.timeout.toNat →
    ∃ t u, exec i s = .next t ∧ runEvents (List.replicate n .tick) t = .next u ∧
      u = { t with mono := s.mono + BitVec.ofNat 32 n } ∧ u.busy = true ∧ u.rxLen = 0 ∧ u.rxFifo = s.rxFifo ∧
      (n + 1 = s.timeout.toNat → runEvent .tick u =
        .next { u with mono := s.mono + s.timeout, result := .timeout, done := true, engine := .idle })

/-- R206 (with R209 for the raw mode): the byte step. The head of the FIFO is stored at index `RX_LEN`. The frame ends when
the stored text ends with CR LF; a text of 546 bytes without it ends with `FRAME_OVERFLOW`; else the reception goes on. With
no byte there is no step. -/
def Obligations.FrameByteStep : Prop :=
  ∀ (mode : FrameMode) (s : State) (e : Option (BitVec 128)), s.engine = .receiving mode →
    (s.rxFifo = [] → runEvent (.engine e) s = .next s) ∧
    (∀ b rest, s.rxFifo = b :: rest → s.rxLen.toNat < 546 →
      ∃ t, runEvent (.engine e) s = .next t ∧ t.rxFifo = rest ∧ t.rxLen.toNat = s.rxLen.toNat + 1 ∧
        rxText t = rxText s ++ [b] ∧
        (∀ off, (off < ptBase ∨ ptBase + Config.ptCap ≤ off) → off ≠ rxBase + s.rxLen.toNat →
          readByte t off = readByte s off) ∧
        (mode = .raw → endsWithTerm (rxText s ++ [b]) = true →
          t = { s with rxFifo := rest, rxLen := t.rxLen, mem := t.mem, result := .ok, done := true, engine := .idle }) ∧
        (endsWithTerm (rxText s ++ [b]) = false → s.rxLen.toNat + 1 = 546 →
          t = { s with
            rxFifo := rest, rxLen := t.rxLen, mem := t.mem, result := .frameOverflow, done := true, engine := .idle }) ∧
        (endsWithTerm (rxText s ++ [b]) = false → s.rxLen.toNat + 1 < 546 →
          t = { s with rxFifo := rest, rxLen := t.rxLen, mem := t.mem }) ∧
        ((mode = .raw ∨ endsWithTerm (rxText s ++ [b]) = false) →
          ∀ off, off ≠ rxBase + s.rxLen.toNat → readByte t off = readByte s off))

/-- R208: in a FRAME_RECV the step that stores the terminator decrypts the frame: a good envelope's plaintext, length and IV
are written, `RESULT = OK`; a bad one leaves `PT_LEN = 0`, `PT_BUF` and the IV as they were, and its code. `RX_BUF` keeps
the frame. -/
def Obligations.FrameDecodeStep : Prop :=
  ∀ (s : State) (e : Option (BitVec 128)) (b : Byte) (rest : Bytes), s.engine = .receiving .decode →
    s.rxFifo = b :: rest → s.rxLen.toNat < 546 → endsWithTerm (rxText s ++ [b]) = true →
    ∃ t, runEvent (.engine e) s = .next t ∧ rxText t = rxText s ++ [b] ∧
      (∀ p iv, envelopeDecrypt (keyString s) (rxText s ++ [b]) = .ok p iv →
        ptText t = p ∧ t.ptLen.toNat = p.length ∧ ivString t = iv ∧
        (∀ off, (off < ptBase ∨ ptBase + p.length ≤ off) → off ≠ rxBase + s.rxLen.toNat →
          readByte t off = readByte s off) ∧
        t = { s with
          rxFifo := rest, rxLen := s.rxLen + 1, mem := t.mem, ptLen := t.ptLen, iv := t.iv, result := .ok, done := true,
          engine := .idle }) ∧
      (∀ code, envelopeDecrypt (keyString s) (rxText s ++ [b]) = .fail code →
        (code = .malformedEnvelope ∨ code = .invalidPadding) ∧
        (∀ off, off ≠ rxBase + s.rxLen.toNat → readByte t off = readByte s off) ∧
        t = { s with
          rxFifo := rest, rxLen := s.rxLen + 1, mem := t.mem, ptLen := 0, result := code, done := true,
          engine := .idle })

/-- R211: the frame ends at its first CR LF whatever the chunking: for every schedule of received bytes, fewer than `TO` ticks
and Engine steps, if no byte was dropped and the Engine then takes enough steps, the frame received is the stream up to
its first CR LF, and the bytes after it are in the FIFO. -/
def Obligations.FrameIndependentOfChunking : Prop :=
  ∀ (s u : State) (es : List Event) (frame tail : Bytes) (n : Nat),
    s.engine = .receiving .raw → s.rxLen = 0 → s.mono = s.frameStart → s.rxOvf = false →
    (∀ e ∈ es, isFrameEvent e = true) → tickCount es < s.frameTo.toNat →
    firstTermAtEnd frame → frame.length ≤ 546 → s.rxFifo ++ delivered es = frame ++ tail → frame.length ≤ n →
    runEvents (es ++ List.replicate n (.engine none)) s = .next u → u.rxOvf = false →
    u.engine = .idle ∧ u.result = .ok ∧ rxText u = frame ∧ u.rxFifo = tail

/-- R214: for every schedule, FRAME_RECV gives the same `RX_BUF`, `RX_LEN`, `PT_BUF`, `PT_LEN`, `IV0..3`, FIFO and result as
FRAME_RAW followed by DECRYPT of `RX_BUF`, when the schedule completes a frame. -/
def Obligations.FrameRecvIsRawThenDecrypt : Prop :=
  ∀ (s t0 t r0 r : State) (es : List Event), s.busy = false → s.keyLocked = true →
    (∀ e ∈ es, isFrameEvent e = true) →
    exec .frameRecv s = .next t0 → runEvents es t0 = .next t →
    exec .frameRaw s = .next r0 → runEvents es r0 = .next r →
    r.engine = .idle → r.result = .ok →
    ∃ u v, exec (.decrypt .rxBuf) r = .next u ∧ runEvent (.engine none) u = .next v ∧
      v.busy = false ∧ t.busy = false ∧ t.rxLen = v.rxLen ∧ t.ptLen = v.ptLen ∧ t.iv = v.iv ∧ t.result = v.result ∧
      t.rxFifo = v.rxFifo ∧ ∀ off, readByte t off = readByte v off

/-! Results. -/

/-- R241: which step can end a command with which code, and no other combination occurs. -/
def Obligations.ResultCodesPerCommand : Prop :=
  ∀ (s t : State) (e : Option (BitVec 128)),
    (s.busy = false → t.done = true →
      (exec .encrypt s = .next t → t.result = .noKey ∨ t.result = .badLength) ∧
      (∀ src, exec (.decrypt src) s = .next t → t.result = .noKey ∨ t.result = .badLength) ∧
      (exec .frameRecv s = .next t → t.result = .noKey ∨ t.result = .timeout) ∧
      (exec .frameRaw s = .next t → t.result = .timeout) ∧
      (exec .rxFlush s = .next t → t.result = .ok) ∧
      (exec .keyLock s = .next t → t.result = .ok ∨ t.result = .noKey) ∧
      (∀ w, (∀ i, decode w ≠ .ok i) → runEvent (cmdWriteEvent w) s = .next t → t.result = .illegalCommand)) ∧
    (s.busy = true → t.busy = false → runEvent (.engine e) s = .next t →
      (s.engine = .encrypting → t.result = .ok ∨ t.result = .randomUnavailable) ∧
      (∀ src, s.engine = .decrypting src →
        t.result = .ok ∨ t.result = .malformedEnvelope ∨ t.result = .invalidPadding) ∧
      (s.engine = .receiving .decode →
        t.result = .ok ∨ t.result = .malformedEnvelope ∨ t.result = .invalidPadding ∨ t.result = .frameOverflow) ∧
      (s.engine = .receiving .raw → t.result = .ok ∨ t.result = .frameOverflow)) ∧
    (s.busy = true → t.busy = false → runEvent .tick s = .next t →
      t.result = .timeout ∧ ∃ mode, s.engine = .receiving mode)

/-! The cryptographic primitives. -/

/-- R141: the inverse cipher undoes the cipher, for every key and block. -/
def Obligations.AesInverse : Prop :=
  ∀ (key : Bytes) (b : Block), aesDec (keyExpansion key) (aesEnc (keyExpansion key) b) = b

/-- R143: CBC decryption undoes CBC encryption, for every key, IV and whole number of blocks. -/
def Obligations.CbcInverse : Prop :=
  ∀ key iv p : Bytes, p.length % 16 = 0 → cbcDec key iv (cbcEnc key iv p) = p

/-- R145: padding appends `n` bytes of value `n`, 1 to 16, up to the least multiple of 16 greater than the length. -/
def Obligations.PaddingRule : Prop :=
  ∀ p : Bytes, ∃ n : Nat, 1 ≤ n ∧ n ≤ 16 ∧ n = 16 - p.length % 16 ∧ pad p = p ++ List.replicate n (BitVec.ofNat 8 n) ∧
    (pad p).length % 16 = 0 ∧ ∀ m, m % 16 = 0 → p.length < m → (pad p).length ≤ m

/-- R146: unpadding checks the last byte only, strips that many bytes, and undoes padding. -/
def Obligations.UnpaddingRule : Prop :=
  (∀ d p : Bytes, unpad d = some p ↔
    ∃ n : Byte, d.getLast? = some n ∧ 1 ≤ n.toNat ∧ n.toNat ≤ 16 ∧ n.toNat ≤ d.length ∧ p = d.take (d.length - n.toNat)) ∧
  (∀ p : Bytes, unpad (pad p) = some p)

/-- R150: hex decoding fails exactly on an odd length or an invalid character, else gives byte `j` from characters `2j` and
`2j+1`, the high nibble first; it undoes hex encoding. -/
def Obligations.HexDecodingRule : Prop :=
  (∀ t : Bytes, hexDec t = none ↔ t.length % 2 = 1 ∨ ∃ ch ∈ t, hexVal ch = none) ∧
  (∀ t e : Bytes, hexDec t = some e → e.length = t.length / 2 ∧
    ∀ j, j < e.length → ∃ h l : Byte, hexVal (byteAt t (2 * j)) = some h ∧ hexVal (byteAt t (2 * j + 1)) = some l ∧
      byteAt e j = 16 * h + l) ∧
  (∀ s : Bytes, hexDec (hexEnc s) = some s)

/-- R152: no output of `HexEnc` contains 0x0D or 0x0A; every digit is in 0x30..0x39 or 0x61..0x66. -/
def Obligations.HexTextHasNoTerminator : Prop :=
  ∀ (s : Bytes) (ch : Byte), ch ∈ hexEnc s →
    ch ≠ 0x0D ∧ ch ≠ 0x0A ∧ ((0x30 ≤ ch ∧ ch ≤ 0x39) ∨ (0x61 ≤ ch ∧ ch ≤ 0x66))

/-- R185: the round trip. Decrypting an encrypted plaintext of 0 to 255 bytes gives it back with its IV; on the machine,
ENCRYPT followed by DECRYPT of `TX_BUF` leaves in `PT_BUF[0..PT_LEN)` the plaintext ENCRYPT read. -/
def Obligations.RoundTrip : Prop :=
  (∀ (key iv p : Bytes) (term : Bool), iv.length = 16 → p.length ≤ 255 →
    envelopeDecrypt key (envelopeEncrypt key iv p term) = .ok p iv) ∧
  (∀ (s : State) (d : BitVec 128) (e : Option (BitVec 128)), s.busy = false → s.keyLocked = true →
    s.ptLen.toNat ≤ 255 → s.entropy = .idle →
    ∃ t u v w, exec .encrypt s = .next t ∧ runEvent (.engine (some d)) t = .next u ∧
      exec (.decrypt .txBuf) u = .next v ∧ runEvent (.engine e) v = .next w ∧
      w.result = .ok ∧ ptText w = ptText s ∧ w.ptLen = s.ptLen ∧ ivString w = bytesOfDraw d)

/-- R182: a text of at most 546 bytes gives a plaintext of at most 255 bytes and a 16-byte IV. -/
def Obligations.DecryptedLengths : Prop :=
  ∀ key s p iv : Bytes, s.length ≤ 546 → envelopeDecrypt key s = .ok p iv → p.length ≤ 255 ∧ iv.length = 16

/-- R181: `EnvelopeDecrypt`. The text judged is the source without one trailing CR LF, or the source as it is when it has none.
It is malformed exactly when it is shorter than 32 characters, odd, not hex, or its ciphertext no whole number of blocks; else
its padding is invalid exactly when there is no ciphertext or the last decrypted byte is no pad length of 1 to 16 within the
decrypted length; else the result is the decrypted text without that many bytes, and the IV. -/
def Obligations.EnvelopeFailures : Prop :=
  ∀ key s : Bytes,
    let t := stripTerm s
    let malformed : Prop := t.length < 32 ∨ t.length % 2 = 1 ∨ (∃ ch ∈ t, hexVal ch = none) ∨ (t.length / 2 - 16) % 16 ≠ 0
    (∀ t', s = t' ++ [0x0D, 0x0A] → t = t') ∧
    ((∀ t', s ≠ t' ++ [0x0D, 0x0A]) → t = s) ∧
    (envelopeDecrypt key s = .fail .malformedEnvelope ↔ malformed) ∧
    (¬malformed → t.length = 32 → envelopeDecrypt key s = .fail .invalidPadding) ∧
    (¬malformed → 32 < t.length → ∃ (iv c d : Bytes) (n : Byte), hexDec t = some (iv ++ c) ∧ iv.length = 16 ∧ c ≠ [] ∧
      c.length % 16 = 0 ∧ d = cbcDec key iv c ∧ d.getLast? = some n ∧
      (n.toNat < 1 ∨ 16 < n.toNat ∨ d.length < n.toNat → envelopeDecrypt key s = .fail .invalidPadding) ∧
      (1 ≤ n.toNat → n.toNat ≤ 16 → n.toNat ≤ d.length →
        envelopeDecrypt key s = .ok (d.take (d.length - n.toNat)) iv))

/-! Rules of the whole machine. -/

/-- R28, R171, R275: once locked, the key and the lock never change but by reset, whatever the step. -/
def Obligations.LockedKeyIsImmutable : Prop :=
  ∀ s t : State, s.keyLocked = true → resets (nextEvent s).1 = false → step s = .next t →
    t.keyLocked = true ∧ t.key = s.key ∧ t.keyWmask = s.keyWmask

/-- R38: `MONO` is incremented by every tick in every engine state, and nothing else but reset changes it. -/
def Obligations.MonoCountsTicks : Prop :=
  ∀ (e : Event) (s t : State), runEvent e s = .next t →
    t.mono = if resets e then 0 else if ticks e then s.mono + 1 else s.mono

/-- R39: but for reset, `DEADLINE` changes only by a write to `CMD` of a frame command while not busy, and then becomes
`MONO + TIMEOUT` of the state before. -/
def Obligations.DeadlineWrittenOnlyByFrameAcceptance : Prop :=
  ∀ (e : Event) (s t : State), resets e = false → runEvent e s = .next t → t.deadline ≠ s.deadline →
    s.busy = false ∧ t.deadline = s.mono + s.timeout ∧
    ∃ v, (v = encode .frameRecv ∨ v = encode .frameRaw) ∧
      (e = cmdWriteEvent v ∨ ∃ c, e = .clock c ∧ c.psel = true ∧ c.penable = true ∧ c.pwrite = true ∧
        c.access = wordAccess cmdOffset ∧ c.pwdata = v)

/-- R47: but for reset, a byte of `TX_BUF` changes only in the step that completes an ENCRYPT with `OK`. -/
def Obligations.TxBufWrittenOnlyByEncrypt : Prop :=
  ∀ (e : Event) (s t : State) (off : Nat), resets e = false → runEvent e s = .next t →
    txBase ≤ off → off < txBase + Config.txCap → readByte t off ≠ readByte s off →
    s.engine = .encrypting ∧ t.engine = .idle ∧ t.result = .ok

/-- R45: but for reset, `IV0..3` change only in a step that completes an ENCRYPT, a DECRYPT or a FRAME_RECV with `OK`. -/
def Obligations.IvWrittenOnlyBySuccess : Prop :=
  ∀ (e : Event) (s t : State), resets e = false → runEvent e s = .next t → t.iv ≠ s.iv →
    (s.engine = .encrypting ∨ (∃ src, s.engine = .decrypting src) ∨ s.engine = .receiving .decode) ∧
    t.engine = .idle ∧ t.result = .ok

/-- R27, R29, R30, R31: but for reset, `CMD_REJECTED`, `RX_OVF` and `WR_IGNORED` are cleared only by a host write of 1 to that
bit of `STATUS`, and `DONE` only so or by a `CMD` write while not busy. -/
def Obligations.FlagsClearedOnlyByHost : Prop :=
  ∀ (e : Event) (s t : State), resets e = false → runEvent e s = .next t →
    let writes (off : Offset) (p : Word → Prop) : Prop := ∃ v, p v ∧ (e = .memWrite (wordAccess off) v ∨
      ∃ c, e = .clock c ∧ c.psel = true ∧ c.penable = true ∧ c.pwrite = true ∧ c.access = wordAccess off ∧
        c.pwdata = v)
    (s.cmdRejected = true → t.cmdRejected = false → writes 0x004 (fun v => v.getLsbD 3 = true)) ∧
    (s.rxOvf = true → t.rxOvf = false → writes 0x004 (fun v => v.getLsbD 4 = true)) ∧
    (s.wrIgnored = true → t.wrIgnored = false → writes 0x004 (fun v => v.getLsbD 5 = true)) ∧
    (s.done = true → t.done = false →
      writes 0x004 (fun v => v.getLsbD 1 = true) ∨ (s.busy = false ∧ writes 0x008 (fun _ => True)))

/-- R49, R171, R256: the key reaches nothing but through a running ENCRYPT, DECRYPT or FRAME_RECV: in every other engine state
any event, with any key in the key registers, leaves the same state but for those registers. -/
def Obligations.KeyReachesOnlyCipherCommands : Prop :=
  ∀ (e : Event) (s t : State) (k : Vector Word 8), (s.engine = .idle ∨ s.engine = .receiving .raw) →
    runEvent e s = .next t → ∃ k', runEvent e { s with key := k } = .next { t with key := k' }

/-- R79: during a reception a stored byte of `RX_BUF` does not change, whatever the step, but for reset. -/
def Obligations.StoredFrameBytesAreStable : Prop :=
  ∀ (e : Event) (s t : State) (mode : FrameMode) (i : Nat), s.engine = .receiving mode → resets e = false →
    runEvent e s = .next t → i < s.rxLen.toNat → s.rxLen.toNat < Config.rxCap →
    readByte t (rxBase + i) = readByte s (rxBase + i)

/-! The clock level. -/

/-- R215: when the Engine stores the terminator in the cycle of a tick, the frame completes, with the result it has without
the tick, and the tick only increments `MONO`, whatever the host does in that cycle. -/
def Obligations.TerminatorBeatsDeadline : Prop :=
  ∀ (c : ClockIn) (mode : FrameMode) (s : State) (b : Byte) (rest : Bytes), s.engine = .receiving mode →
    s.rxFifo = b :: rest → s.rxLen.toNat < 546 → endsWithTerm (rxText s ++ [b]) = true → c.rstN = true → c.tick = true →
    ∃ t, clockCycle c s = .next t ∧ t.engine = .idle ∧ t.done = true ∧ t.mono = s.mono + 1 ∧ rxText t = rxText s ++ [b] ∧
      (mode = .raw → t.result = .ok) ∧
      (mode = .decode → ∀ p iv, envelopeDecrypt (keyString s) (rxText s ++ [b]) = .ok p iv →
        t.result = .ok ∧ ptText t = p ∧ ivString t = iv) ∧
      (mode = .decode → ∀ code, envelopeDecrypt (keyString s) (rxText s ++ [b]) = .fail code →
        t.result = code ∧ t.ptLen = 0 ∧ code ≠ .timeout)

/-- R250: the other same-cycle outcomes. A read returns what it returns at the start of the cycle; `BUSY` is taken at the start
of the cycle, so a `CMD` write and a write of any register of R76 then change one flag and the cycle does all else as without
them; `finish` wins over a write-one-to-clear of `DONE`; a dropped byte wins over one of `RX_OVF`; a frame command accepted with
a tick uses the old `MONO`, and the tick is counted. The model's own choices it rests on: the busy-write clauses equate whole
states, so they claim also that `pslverr` is 0 in the cycle without an access and that `prdata` is kept (log entry 22, DESIGN
CHOICE, unsafe); a busy write of a guarded word without storage (log entry 17) and the tick where `TIMEOUT` is 1 (log entry 10)
are DEDUCED. What a write while not busy does in a cycle, but for the acceptance of
a frame command, is no part of this statement. -/
def Obligations.SameCycleOutcomes : Prop :=
  ∀ (c : ClockIn) (s t : State), c.rstN = true → c.psel = true → c.penable = true → clockCycle c s = .next t →
    (c.pwrite = false → ∀ u, runEvent (.memRead c.access) s = .next u → t.prdata = u.prdata) ∧
    (c.pwrite = true → s.busy = true → ∃ u, clockCycle { c with psel := false } s = .next u ∧
      (c.access = wordAccess cmdOffset → t = { u with cmdRejected := true }) ∧
      (∀ off : Offset, c.access = wordAccess off → off.toNat % 4 = 0 →
        (off.toNat ∈ [0x000, 0x00C, 0x018, 0x020] ∨ (0x040 ≤ off.toNat ∧ off.toNat < 0x060) ∨
          (0x100 ≤ off.toNat ∧ off.toNat < 0x200) ∨ (0x800 ≤ off.toNat ∧ off.toNat < 0xA24)) →
        t = { u with wrIgnored := true })) ∧
    (c.pwrite = true → c.access = wordAccess 0x004 → s.busy = true → t.busy = false → t.done = true) ∧
    (c.pwrite = true → c.access = wordAccess 0x004 → (∀ mode, s.engine ≠ .receiving mode) → c.rxValid = true →
      s.rxFifo.length = 32 → t.rxOvf = true) ∧
    (c.pwrite = true → c.access = wordAccess cmdOffset →
      (c.pwdata = encode .frameRaw ∨ (c.pwdata = encode .frameRecv ∧ s.keyLocked = true)) → s.busy = false →
      s.timeout ≠ 0 → c.tick = true → t.frameStart = s.mono ∧ t.frameTo = s.timeout ∧ t.deadline = s.mono + s.timeout ∧
      t.mono = s.mono + 1 ∧ (t.busy = false ↔ s.timeout = 1))

/-- R176: the entropy handshake, whatever the host, the RX line and the Timer do. In every cycle of the wait `ent_fail`, or the
256th cycle without an answer, makes the draw `none`, and wins over `ent_valid`; `ent_valid` alone makes it the data; `ent_req`
is then 0 in the cycle after, and the draw is used at once or held (log entry 11); else the wait goes on, for at most 256
cycles. While `ent_req` is 0 an answer is ignored. -/
def Obligations.EntropyWaitIsBounded : Prop :=
  (∀ (c : ClockIn) (s : State) (n : Nat), s.engine = .encrypting → s.entropy = .waiting n → n < 256 → c.rstN = true →
    ∃ t, clockCycle c s = .next t ∧
      ((c.entFail = true ∨ (c.entValid = false ∧ n = 255)) → entReq t = false ∧
        (c.engineReady = false → t.entropy = .answered none ∧ t.busy = true) ∧
        (c.engineReady = true → t.busy = false ∧ t.result = .randomUnavailable ∧ t.txLen = 0)) ∧
      (c.entFail = false → c.entValid = true → entReq t = false ∧
        (c.engineReady = false → t.entropy = .answered (some c.entData) ∧ t.busy = true) ∧
        (c.engineReady = true → t.busy = false ∧ t.result = .ok ∧ ivString t = bytesOfDraw c.entData)) ∧
      (c.entFail = false → c.entValid = false → n < 255 →
        t.entropy = .waiting (n + 1) ∧ entReq t = true ∧ t.busy = true)) ∧
  (∀ (c : ClockIn) (s : State), s.engine = .encrypting → s.entropy = .idle → c.rstN = true →
    ∃ t, clockCycle c s = .next t ∧ t.busy = true ∧ t.entropy = if c.engineReady then .waiting 0 else .idle) ∧
  (∀ (s : State) (cs : List ClockIn), s.engine = .encrypting → s.entropy = .waiting 0 → cs.length ≤ 256 →
    (∀ c ∈ cs, c.rstN = true ∧ c.entFail = false ∧ c.entValid = false) →
    ∃ t, runEvents (cs.map .clock) s = .next t ∧ (cs.length < 256 → entReq t = true ∧ t.busy = true) ∧
      (cs.length = 256 → entReq t = false ∧
        ((t.entropy = .answered none ∧ t.busy = true) ∨ (t.busy = false ∧ t.result = .randomUnavailable))))

/-- R248: `irq = DONE AND IE`, a function of the state; the clock-level pin shows it for the state of the previous cycle's
end, so one cycle later. -/
def Obligations.IrqFollowsDone : Prop :=
  (∀ s : State, irq s = true ↔ s.done = true ∧ s.ie = true) ∧
  (∀ (c : ClockIn) (s t : State), c.rstN = true → clockCycle c s = .next t → t.irqPin = irq s) ∧
  (∀ s t : State, s.busy = false → s.ie = true → exec .rxFlush s = .next t → irq t = true) ∧
  (∀ (s t : State) (v : Word), v.getLsbD 1 = true → runEvent (.memWrite (wordAccess 0x004) v) s = .next t →
    irq t = false)

/-- R176, R177, R183: the completions in a clock cycle, whatever the host, the RX line and the Timer do in it, and of a held
draw at both levels. With the engine ready, an ENCRYPT that holds a draw completes with that draw, and a DECRYPT completes, each
with the outputs of its rule; with it not ready they go on. An Engine step of an ENCRYPT that holds a draw uses it too. That `engineReady` decides the cycle,
that a draw is held until the completion, and that an Engine step at the event level uses a held draw are the model's reading
(log entry 11, DEDUCED), not rules of the spec. -/
def Obligations.ClockCycleCompletesCipherCommands : Prop :=
  let encrypted (d : Option (BitVec 128)) (s t : State) : Prop := t.busy = false ∧ t.done = true ∧ t.entropy = .idle ∧
    (d = none → t.result = .randomUnavailable ∧ t.txLen = 0 ∧ t.iv = s.iv ∧ ∀ off, readByte t off = readByte s off) ∧
    ∀ iv, d = some iv →
      t.result = .ok ∧ txText t = envelopeEncrypt (keyString s) (bytesOfDraw iv) (ptText s) s.txTerm ∧
      ivString t = bytesOfDraw iv ∧ ∀ off, off < txBase ∨ txBase + (txText t).length ≤ off → readByte t off = readByte s off
  let decrypted (src : Src) (s t : State) : Prop := t.busy = false ∧ t.done = true ∧
    (∀ p iv, envelopeDecrypt (keyString s) (srcText src s) = .ok p iv → t.result = .ok ∧ ptText t = p ∧ ivString t = iv ∧
      ∀ off, off < ptBase ∨ ptBase + p.length ≤ off → readByte t off = readByte s off) ∧
    (∀ code, envelopeDecrypt (keyString s) (srcText src s) = .fail code →
      t.result = code ∧ t.ptLen = 0 ∧ t.iv = s.iv ∧ ∀ off, readByte t off = readByte s off)
  (∀ (s : State) (d e : Option (BitVec 128)), s.engine = .encrypting → s.entropy = .answered d → s.ptLen.toNat ≤ 255 →
    ∃ t, runEvent (.engine e) s = .next t ∧ encrypted d s t) ∧
  (∀ (c : ClockIn) (s : State) (d : Option (BitVec 128)), s.engine = .encrypting → s.entropy = .answered d →
    s.ptLen.toNat ≤ 255 → c.rstN = true → ∃ t, clockCycle c s = .next t ∧ (c.engineReady = true → encrypted d s t) ∧
      (c.engineReady = false → t.engine = .encrypting ∧ t.entropy = .answered d)) ∧
  (∀ (c : ClockIn) (s : State) (src : Src), s.engine = .decrypting src →
    (if src = .rxBuf then s.rxLen.toNat else s.txLen.toNat) ≤ 546 → c.rstN = true →
    ∃ t, clockCycle c s = .next t ∧ (c.engineReady = true → decrypted src s t) ∧
      (c.engineReady = false → t.engine = .decrypting src))
end

