-- ==== Sys2Proof/Laws/Aes.lean ====
section
/-!
SUPPORT. The S-box table against R133, and the parts of the inverse cipher: each round transformation of R138 is undone by
its inverse of R140.
-/
namespace Sys2Proof.Machine

/-- The affine map of R133, undone. -/
def sBoxAffineInv (y : Byte) : Byte := y.rotateLeft 1 ^^^ y.rotateLeft 3 ^^^ y.rotateLeft 6 ^^^ 0x05

theorem sBoxAffine_inv (y : Byte) : sBoxAffine (sBoxAffineInv y) = y := by
  revert y; decide +kernel

/-- The table of R134 is R133 evaluated: its entry for `x` is the affine map of an inverse of `x`. -/
theorem sBox_eq_affine (x : Byte) : ∃ b, isInverse x b = true ∧ sBox x = sBoxAffine b := by
  refine ⟨sBoxAffineInv (sBox x), ?_, (sBoxAffine_inv _).symm⟩
  revert x; decide +kernel

/-- The table of R135 is the inverse permutation of the table of R134. -/
theorem invSBox_sBox (x : Byte) : invSBox (sBox x) = x := by
  revert x; decide +kernel

theorem sBox_invSBox (x : Byte) : sBox (invSBox x) = x := by
  revert x; decide +kernel

theorem invSubBytes_subBytes (s : Block) : invSubBytes (subBytes s) = s := by
  simp only [invSubBytes, subBytes, blockMap, subWord, invSBox_sBox]

theorem invShiftRows_shiftRows (s : Block) : invShiftRows (shiftRows s) = s := rfl

theorem colXor_cancel (a b : Col) : colXor (colXor a b) b = a := by
  simp only [colXor, BitVec.xor_assoc, BitVec.xor_self, BitVec.xor_zero]

/-- Bytewise XOR with the same block twice is nothing. -/
theorem blockXor_cancel (a b : Block) : blockXor (blockXor a b) b = a := by
  simp only [blockXor, colXor_cancel]

theorem addRoundKey_addRoundKey (w : List Col) (r : Nat) (s : Block) :
    addRoundKey w r (addRoundKey w r s) = s := blockXor_cancel s (roundKey w r)

/-- `xtime` is linear. -/
theorem xtime_xor (a b : Byte) : xtime (a ^^^ b) = xtime a ^^^ xtime b := by
  have h : ∀ (p q : Bool), (if (p ^^ q) then (0x1B : Byte) else 0x00)
      = (if p then 0x1B else 0x00) ^^^ (if q then 0x1B else 0x00) := by decide
  simp only [xtime, BitVec.msb_xor, h, BitVec.shiftLeft_xor_distrib]
  ac_rfl

/-- Multiplication by a constant is linear. -/
theorem gmulBits_xor (n : Nat) (a b k : Byte) : gmulBits n (a ^^^ b) k = gmulBits n a k ^^^ gmulBits n b k := by
  induction n generalizing a b k with
  | zero => simp [gmulBits]
  | succ n ih =>
    simp only [gmulBits, xtime_xor, ih]
    split
    · ac_rfl
    · simp

theorem gmul_xor (a b k : Byte) : gmul (a ^^^ b) k = gmul a k ^^^ gmul b k := gmulBits_xor 8 a b k

/-- The products by the constants of R138 and R140, as XORs of iterated `xtime`. -/
theorem gmul_const (a : Byte) :
    gmul a 0x01 = a ∧ gmul a 0x02 = xtime a ∧ gmul a 0x03 = a ^^^ xtime a
    ∧ gmul a 0x09 = a ^^^ xtime (xtime (xtime a))
    ∧ gmul a 0x0B = a ^^^ (xtime a ^^^ xtime (xtime (xtime a)))
    ∧ gmul a 0x0D = a ^^^ (xtime (xtime a) ^^^ xtime (xtime (xtime a)))
    ∧ gmul a 0x0E = xtime a ^^^ (xtime (xtime a) ^^^ xtime (xtime (xtime a))) := by
  simp [gmul, gmulBits]

theorem xor_cancel_left (a b : Byte) : a ^^^ (a ^^^ b) = b := by
  rw [← BitVec.xor_assoc, BitVec.xor_self, BitVec.zero_xor]

theorem xor_left_comm (a b c : Byte) : a ^^^ (b ^^^ c) = b ^^^ (a ^^^ c) := by ac_rfl

/-- The four coefficients of the product of the matrix of R140 with that of R138: 1, 0, 0, 0. -/
theorem mix_coefficients (a : Byte) :
    gmul (gmul a 0x02) 0x0E ^^^ (gmul a 0x0B ^^^ (gmul a 0x0D ^^^ gmul (gmul a 0x03) 0x09)) = a
    ∧ gmul (gmul a 0x03) 0x0E ^^^ (gmul (gmul a 0x02) 0x0B ^^^ (gmul a 0x0D ^^^ gmul a 0x09)) = 0
    ∧ gmul a 0x0E ^^^ (gmul (gmul a 0x03) 0x0B ^^^ (gmul (gmul a 0x02) 0x0D ^^^ gmul a 0x09)) = 0
    ∧ gmul a 0x0E ^^^ (gmul a 0x0B ^^^ (gmul (gmul a 0x03) 0x0D ^^^ gmul (gmul a 0x02) 0x09)) = 0 := by
  simp only [gmul_const, xtime_xor]
  generalize xtime (xtime (xtime (xtime a))) = x4
  generalize xtime (xtime (xtime a)) = x3
  generalize xtime (xtime a) = x2
  generalize xtime a = x1
  refine ⟨?_, ?_, ?_, ?_⟩ <;>
    simp [BitVec.xor_assoc, BitVec.xor_comm, xor_left_comm, xor_cancel_left]

/-- One byte of the product of the matrix of R140 with that of R138 is that byte again. -/
theorem mixByte_inv (a b c d : Byte) :
    mixByte 0x0E 0x0B 0x0D 0x09 (mixByte 0x02 0x03 0x01 0x01 a b c d) (mixByte 0x02 0x03 0x01 0x01 b c d a)
      (mixByte 0x02 0x03 0x01 0x01 c d a b) (mixByte 0x02 0x03 0x01 0x01 d a b c) = a := by
  simp only [mixByte, gmul_xor, (gmul_const _).1]
  calc _ = (gmul (gmul a 0x02) 0x0E ^^^ (gmul a 0x0B ^^^ (gmul a 0x0D ^^^ gmul (gmul a 0x03) 0x09)))
      ^^^ (gmul (gmul b 0x03) 0x0E ^^^ (gmul (gmul b 0x02) 0x0B ^^^ (gmul b 0x0D ^^^ gmul b 0x09)))
      ^^^ (gmul c 0x0E ^^^ (gmul (gmul c 0x03) 0x0B ^^^ (gmul (gmul c 0x02) 0x0D ^^^ gmul c 0x09)))
      ^^^ (gmul d 0x0E ^^^ (gmul d 0x0B ^^^ (gmul (gmul d 0x03) 0x0D ^^^ gmul (gmul d 0x02) 0x09))) := by ac_rfl
    _ = a := by
      rw [(mix_coefficients a).1, (mix_coefficients b).2.1, (mix_coefficients c).2.2.1, (mix_coefficients d).2.2.2]
      simp

theorem mixCol_inv (a : Col) : mixCol 0x0E 0x0B 0x0D 0x09 (mixCol 0x02 0x03 0x01 0x01 a) = a := by
  simp only [mixCol, mixByte_inv]

theorem invMixColumns_mixColumns (s : Block) : invMixColumns (mixColumns s) = s := by
  simp only [invMixColumns, mixColumns, blockMap, mixCol_inv]

end Sys2Proof.Machine
end

