-- ==== Sys2Proof/Laws/Memory.lean ====
section
/-!
SUPPORT. The laws of the buffers' storage: a read after a write, a write leaves every other byte alone, and every memory
operation keeps the canonical form.
-/
namespace Sys2Proof.Machine

/-- The storage offsets in numbers (R46 to R48). -/
theorem isStorage_iff (off : Nat) : isStorage off = true ↔
    (256 ≤ off ∧ off < 512) ∨ (1024 ≤ off ∧ off < 1570) ∨ (2048 ≤ off ∧ off < 2594) := by
  rw [isStorage, Bool.or_eq_true, Bool.or_eq_true, Bool.and_eq_true, Bool.and_eq_true, Bool.and_eq_true]
  simp only [decide_eq_true_eq]
  simp only [ptBase, txBase, rxBase, Config.ptCap, Config.txCap, Config.rxCap]
  omega

theorem Memory.get_set_same (m : Memory) (off : Nat) (v : Byte) : (Memory.set m off v).get off = some v := by
  induction m with
  | nil => simp [Memory.set, Memory.get]
  | cons c rest ih =>
    obtain ⟨a, b⟩ := c
    simp only [Memory.set]
    split
    · simp [Memory.get]
    · split
      · simp [Memory.get]
      · rename_i h1 h2
        simp only [Memory.get, if_neg h1, if_neg h2, ih]

theorem Memory.get_set_ne (m : Memory) {off other : Nat} (v : Byte) (h : other ≠ off) :
    (Memory.set m off v).get other = m.get other := by
  induction m with
  | nil => simp only [Memory.set, Memory.get]; split <;> first | omega | simp
  | cons c rest ih =>
    obtain ⟨a, b⟩ := c
    simp only [Memory.set]
    split
    · simp only [Memory.get]; split
      · omega
      · subst_vars; simp [Ne.symm h]
    · split
      · simp only [Memory.get]
        repeat' split
        all_goals first | rfl | omega
      · simp only [Memory.get, ih]

theorem Memory.risingFrom_mono {m : Memory} {low high : Nat} (h : Memory.risingFrom high m = true) (hl : low ≤ high) :
    Memory.risingFrom low m = true := by
  cases m with
  | nil => rfl
  | cons c rest =>
    obtain ⟨a, b⟩ := c
    simp only [Memory.risingFrom, Bool.and_eq_true, decide_eq_true_eq] at h ⊢
    exact ⟨⟨by omega, h.1.2⟩, h.2⟩

theorem Memory.risingFrom_set {m : Memory} {low off : Nat} (v : Byte) (h : Memory.risingFrom low m = true)
    (hl : low ≤ off) (hs : isStorage off = true) : Memory.risingFrom low (Memory.set m off v) = true := by
  induction m generalizing low with
  | nil => simp [Memory.set, Memory.risingFrom, hl, hs]
  | cons c rest ih =>
    obtain ⟨a, b⟩ := c
    simp only [Memory.risingFrom, Bool.and_eq_true, decide_eq_true_eq] at h
    simp only [Memory.set]
    split
    · subst_vars; simp [Memory.risingFrom, hl, hs, h.2]
    · split
      · simp only [Memory.risingFrom, Bool.and_eq_true, decide_eq_true_eq]
        exact ⟨⟨hl, hs⟩, ⟨by omega, h.1.2⟩, h.2⟩
      · simp only [Memory.risingFrom, Bool.and_eq_true, decide_eq_true_eq]
        exact ⟨h.1, ih h.2 (by omega)⟩

/-- `storeByte` keeps the canonical form. -/
theorem storeByte_wf {m : Memory} (off : Nat) (v : Byte) (h : Memory.wf m = true) :
    Memory.wf (storeByte m off v) = true := by
  simp only [storeByte]
  split
  · rename_i hs; exact Memory.risingFrom_set v h (Nat.zero_le _) hs
  · exact h

/-- `storeBytes` keeps the canonical form. -/
theorem storeBytes_wf {m : Memory} (off : Nat) (vs : Bytes) (h : Memory.wf m = true) :
    Memory.wf (storeBytes m off vs) = true := by
  induction vs generalizing m off with
  | nil => exact h
  | cons v vs ih => exact ih (off + 1) (storeByte_wf off v h)

theorem loadByte_storeByte_same (m : Memory) (epoch off : Nat) (v : Byte) (hs : isStorage off = true) :
    loadByte (storeByte m off v) epoch off = v := by
  simp [loadByte, storeByte, hs, Memory.get_set_same]

theorem loadByte_storeByte_ne (m : Memory) (epoch : Nat) {off other : Nat} (v : Byte) (h : other ≠ off) :
    loadByte (storeByte m off v) epoch other = loadByte m epoch other := by
  simp only [loadByte, storeByte]
  split
  · split
    · rw [Memory.get_set_ne _ _ h]
    · rfl
  · rfl

/-- A byte outside the stored range reads as before. -/
theorem loadByte_storeBytes_outside (m : Memory) (epoch : Nat) {off other : Nat} (vs : Bytes)
    (h : other < off ∨ off + vs.length ≤ other) :
    loadByte (storeBytes m off vs) epoch other = loadByte m epoch other := by
  induction vs generalizing m off with
  | nil => rfl
  | cons v vs ih =>
    simp only [List.length_cons] at h
    rw [storeBytes, ih _ (by omega), loadByte_storeByte_ne _ _ _ (by omega)]

/-- A byte inside the stored range reads as stored, where there is storage. -/
theorem loadByte_storeBytes_inside (m : Memory) (epoch : Nat) {off i : Nat} (vs : Bytes) (h : i < vs.length)
    (hs : isStorage (off + i) = true) : loadByte (storeBytes m off vs) epoch (off + i) = vs.getD i 0 := by
  induction vs generalizing m off i with
  | nil => simp at h
  | cons v vs ih =>
    cases i with
    | zero => rw [storeBytes, loadByte_storeBytes_outside _ _ _ (by omega)]; simpa using loadByte_storeByte_same _ _ _ _ hs
    | succ i =>
      simp only [List.length_cons] at h
      have := ih (storeByte m off v) (off := off + 1) (i := i) (by omega) (by rwa [Nat.add_right_comm])
      rw [storeBytes, ← Nat.add_assoc, Nat.add_right_comm, this]; simp

/-- A string stored in storage reads back. -/
theorem readBytes_storeBytes (s : State) (base : Nat) (vs : Bytes)
    (hs : ∀ i, i < vs.length → isStorage (base + i) = true) :
    readBytes { s with mem := storeBytes s.mem base vs } base vs.length = vs := by
  apply List.ext_getElem
  · simp [readBytes]
  · intro i h1 h2
    simp only [readBytes, List.getElem_map, List.getElem_range, readByte]
    rw [loadByte_storeBytes_inside _ _ _ h2 (hs i h2)]
    simp [h2]

/-- The bytes of `TX_BUF` are storage (R47). -/
theorem isStorage_tx {i : Nat} (h : i < Config.txCap) : isStorage (txBase + i) = true := by
  rw [isStorage_iff]; simp only [txBase, Config.txCap] at *; omega

/-- The bytes of `PT_BUF` are storage (R46). -/
theorem isStorage_pt {i : Nat} (h : i < Config.ptCap) : isStorage (ptBase + i) = true := by
  rw [isStorage_iff]; simp only [ptBase, Config.ptCap] at *; omega

/-- The bytes of `RX_BUF` are storage (R48). -/
theorem isStorage_rx {i : Nat} (h : i < Config.rxCap) : isStorage (rxBase + i) = true := by
  rw [isStorage_iff]; simp only [rxBase, Config.rxCap] at *; omega

/-- Reset memory is canonical. -/
theorem reset_mem_wf : Memory.wf State.reset.mem = true := by decide

end Sys2Proof.Machine
end

