-- ==== Sys2Proof/Laws/State.lean ====
section
/-!
SUPPORT. What every named state update does to each field of the state: one lemma per field per update, each true by
unfolding, so that no later proof unfolds an update.
-/
namespace Sys2Proof.Machine

/-! `finish` (R15). -/

@[simp] theorem finish_engine (code : ResultCode) (s : State) : (finish code s).engine = .idle := rfl
@[simp] theorem finish_txTerm (code : ResultCode) (s : State) : (finish code s).txTerm = s.txTerm := rfl
@[simp] theorem finish_ie (code : ResultCode) (s : State) : (finish code s).ie = s.ie := rfl
@[simp] theorem finish_done (code : ResultCode) (s : State) : (finish code s).done = true := rfl
@[simp] theorem finish_keyLocked (code : ResultCode) (s : State) : (finish code s).keyLocked = s.keyLocked := rfl
@[simp] theorem finish_cmdRejected (code : ResultCode) (s : State) : (finish code s).cmdRejected = s.cmdRejected := rfl
@[simp] theorem finish_rxOvf (code : ResultCode) (s : State) : (finish code s).rxOvf = s.rxOvf := rfl
@[simp] theorem finish_wrIgnored (code : ResultCode) (s : State) : (finish code s).wrIgnored = s.wrIgnored := rfl
@[simp] theorem finish_result (code : ResultCode) (s : State) : (finish code s).result = code := rfl
@[simp] theorem finish_lastOp (code : ResultCode) (s : State) : (finish code s).lastOp = s.lastOp := rfl
@[simp] theorem finish_keyWmask (code : ResultCode) (s : State) : (finish code s).keyWmask = s.keyWmask := rfl
@[simp] theorem finish_timeout (code : ResultCode) (s : State) : (finish code s).timeout = s.timeout := rfl
@[simp] theorem finish_mono (code : ResultCode) (s : State) : (finish code s).mono = s.mono := rfl
@[simp] theorem finish_deadline (code : ResultCode) (s : State) : (finish code s).deadline = s.deadline := rfl
@[simp] theorem finish_frameStart (code : ResultCode) (s : State) : (finish code s).frameStart = s.frameStart := rfl
@[simp] theorem finish_frameTo (code : ResultCode) (s : State) : (finish code s).frameTo = s.frameTo := rfl
@[simp] theorem finish_ptLen (code : ResultCode) (s : State) : (finish code s).ptLen = s.ptLen := rfl
@[simp] theorem finish_txLen (code : ResultCode) (s : State) : (finish code s).txLen = s.txLen := rfl
@[simp] theorem finish_rxLen (code : ResultCode) (s : State) : (finish code s).rxLen = s.rxLen := rfl
@[simp] theorem finish_key (code : ResultCode) (s : State) : (finish code s).key = s.key := rfl
@[simp] theorem finish_iv (code : ResultCode) (s : State) : (finish code s).iv = s.iv := rfl
@[simp] theorem finish_mem (code : ResultCode) (s : State) : (finish code s).mem = s.mem := rfl
@[simp] theorem finish_rxFifo (code : ResultCode) (s : State) : (finish code s).rxFifo = s.rxFifo := rfl
@[simp] theorem finish_entropy (code : ResultCode) (s : State) : (finish code s).entropy = s.entropy := rfl
@[simp] theorem finish_irqPin (code : ResultCode) (s : State) : (finish code s).irqPin = s.irqPin := rfl
@[simp] theorem finish_prdata (code : ResultCode) (s : State) : (finish code s).prdata = s.prdata := rfl
@[simp] theorem finish_pslverr (code : ResultCode) (s : State) : (finish code s).pslverr = s.pslverr := rfl
@[simp] theorem finish_inputs (code : ResultCode) (s : State) : (finish code s).inputs = s.inputs := rfl
@[simp] theorem finish_draws (code : ResultCode) (s : State) : (finish code s).draws = s.draws := rfl
@[simp] theorem finish_epoch (code : ResultCode) (s : State) : (finish code s).epoch = s.epoch := rfl

/-! `beginCommand` (R101). -/

@[simp] theorem beginCommand_engine (op : BitVec 8) (s : State) : (beginCommand op s).engine = s.engine := rfl
@[simp] theorem beginCommand_txTerm (op : BitVec 8) (s : State) : (beginCommand op s).txTerm = s.txTerm := rfl
@[simp] theorem beginCommand_ie (op : BitVec 8) (s : State) : (beginCommand op s).ie = s.ie := rfl
@[simp] theorem beginCommand_done (op : BitVec 8) (s : State) : (beginCommand op s).done = false := rfl
@[simp] theorem beginCommand_keyLocked (op : BitVec 8) (s : State) : (beginCommand op s).keyLocked = s.keyLocked := rfl
@[simp] theorem beginCommand_cmdRejected (op : BitVec 8) (s : State) : (beginCommand op s).cmdRejected = s.cmdRejected := rfl
@[simp] theorem beginCommand_rxOvf (op : BitVec 8) (s : State) : (beginCommand op s).rxOvf = s.rxOvf := rfl
@[simp] theorem beginCommand_wrIgnored (op : BitVec 8) (s : State) : (beginCommand op s).wrIgnored = s.wrIgnored := rfl
@[simp] theorem beginCommand_result (op : BitVec 8) (s : State) : (beginCommand op s).result = .none := rfl
@[simp] theorem beginCommand_lastOp (op : BitVec 8) (s : State) : (beginCommand op s).lastOp = op := rfl
@[simp] theorem beginCommand_keyWmask (op : BitVec 8) (s : State) : (beginCommand op s).keyWmask = s.keyWmask := rfl
@[simp] theorem beginCommand_timeout (op : BitVec 8) (s : State) : (beginCommand op s).timeout = s.timeout := rfl
@[simp] theorem beginCommand_mono (op : BitVec 8) (s : State) : (beginCommand op s).mono = s.mono := rfl
@[simp] theorem beginCommand_deadline (op : BitVec 8) (s : State) : (beginCommand op s).deadline = s.deadline := rfl
@[simp] theorem beginCommand_frameStart (op : BitVec 8) (s : State) : (beginCommand op s).frameStart = s.frameStart := rfl
@[simp] theorem beginCommand_frameTo (op : BitVec 8) (s : State) : (beginCommand op s).frameTo = s.frameTo := rfl
@[simp] theorem beginCommand_ptLen (op : BitVec 8) (s : State) : (beginCommand op s).ptLen = s.ptLen := rfl
@[simp] theorem beginCommand_txLen (op : BitVec 8) (s : State) : (beginCommand op s).txLen = s.txLen := rfl
@[simp] theorem beginCommand_rxLen (op : BitVec 8) (s : State) : (beginCommand op s).rxLen = s.rxLen := rfl
@[simp] theorem beginCommand_key (op : BitVec 8) (s : State) : (beginCommand op s).key = s.key := rfl
@[simp] theorem beginCommand_iv (op : BitVec 8) (s : State) : (beginCommand op s).iv = s.iv := rfl
@[simp] theorem beginCommand_mem (op : BitVec 8) (s : State) : (beginCommand op s).mem = s.mem := rfl
@[simp] theorem beginCommand_rxFifo (op : BitVec 8) (s : State) : (beginCommand op s).rxFifo = s.rxFifo := rfl
@[simp] theorem beginCommand_entropy (op : BitVec 8) (s : State) : (beginCommand op s).entropy = s.entropy := rfl
@[simp] theorem beginCommand_irqPin (op : BitVec 8) (s : State) : (beginCommand op s).irqPin = s.irqPin := rfl
@[simp] theorem beginCommand_prdata (op : BitVec 8) (s : State) : (beginCommand op s).prdata = s.prdata := rfl
@[simp] theorem beginCommand_pslverr (op : BitVec 8) (s : State) : (beginCommand op s).pslverr = s.pslverr := rfl
@[simp] theorem beginCommand_inputs (op : BitVec 8) (s : State) : (beginCommand op s).inputs = s.inputs := rfl
@[simp] theorem beginCommand_draws (op : BitVec 8) (s : State) : (beginCommand op s).draws = s.draws := rfl
@[simp] theorem beginCommand_epoch (op : BitVec 8) (s : State) : (beginCommand op s).epoch = s.epoch := rfl

/-! `rejectCommand` (R77). -/

@[simp] theorem rejectCommand_engine (s : State) : (rejectCommand s).engine = s.engine := rfl
@[simp] theorem rejectCommand_txTerm (s : State) : (rejectCommand s).txTerm = s.txTerm := rfl
@[simp] theorem rejectCommand_ie (s : State) : (rejectCommand s).ie = s.ie := rfl
@[simp] theorem rejectCommand_done (s : State) : (rejectCommand s).done = s.done := rfl
@[simp] theorem rejectCommand_keyLocked (s : State) : (rejectCommand s).keyLocked = s.keyLocked := rfl
@[simp] theorem rejectCommand_cmdRejected (s : State) : (rejectCommand s).cmdRejected = true := rfl
@[simp] theorem rejectCommand_rxOvf (s : State) : (rejectCommand s).rxOvf = s.rxOvf := rfl
@[simp] theorem rejectCommand_wrIgnored (s : State) : (rejectCommand s).wrIgnored = s.wrIgnored := rfl
@[simp] theorem rejectCommand_result (s : State) : (rejectCommand s).result = s.result := rfl
@[simp] theorem rejectCommand_lastOp (s : State) : (rejectCommand s).lastOp = s.lastOp := rfl
@[simp] theorem rejectCommand_keyWmask (s : State) : (rejectCommand s).keyWmask = s.keyWmask := rfl
@[simp] theorem rejectCommand_timeout (s : State) : (rejectCommand s).timeout = s.timeout := rfl
@[simp] theorem rejectCommand_mono (s : State) : (rejectCommand s).mono = s.mono := rfl
@[simp] theorem rejectCommand_deadline (s : State) : (rejectCommand s).deadline = s.deadline := rfl
@[simp] theorem rejectCommand_frameStart (s : State) : (rejectCommand s).frameStart = s.frameStart := rfl
@[simp] theorem rejectCommand_frameTo (s : State) : (rejectCommand s).frameTo = s.frameTo := rfl
@[simp] theorem rejectCommand_ptLen (s : State) : (rejectCommand s).ptLen = s.ptLen := rfl
@[simp] theorem rejectCommand_txLen (s : State) : (rejectCommand s).txLen = s.txLen := rfl
@[simp] theorem rejectCommand_rxLen (s : State) : (rejectCommand s).rxLen = s.rxLen := rfl
@[simp] theorem rejectCommand_key (s : State) : (rejectCommand s).key = s.key := rfl
@[simp] theorem rejectCommand_iv (s : State) : (rejectCommand s).iv = s.iv := rfl
@[simp] theorem rejectCommand_mem (s : State) : (rejectCommand s).mem = s.mem := rfl
@[simp] theorem rejectCommand_rxFifo (s : State) : (rejectCommand s).rxFifo = s.rxFifo := rfl
@[simp] theorem rejectCommand_entropy (s : State) : (rejectCommand s).entropy = s.entropy := rfl
@[simp] theorem rejectCommand_irqPin (s : State) : (rejectCommand s).irqPin = s.irqPin := rfl
@[simp] theorem rejectCommand_prdata (s : State) : (rejectCommand s).prdata = s.prdata := rfl
@[simp] theorem rejectCommand_pslverr (s : State) : (rejectCommand s).pslverr = s.pslverr := rfl
@[simp] theorem rejectCommand_inputs (s : State) : (rejectCommand s).inputs = s.inputs := rfl
@[simp] theorem rejectCommand_draws (s : State) : (rejectCommand s).draws = s.draws := rfl
@[simp] theorem rejectCommand_epoch (s : State) : (rejectCommand s).epoch = s.epoch := rfl

/-! `writeStatus` (R35). -/

@[simp] theorem writeStatus_engine (v : Word) (s : State) : (writeStatus v s).engine = s.engine := rfl
@[simp] theorem writeStatus_txTerm (v : Word) (s : State) : (writeStatus v s).txTerm = s.txTerm := rfl
@[simp] theorem writeStatus_ie (v : Word) (s : State) : (writeStatus v s).ie = s.ie := rfl
@[simp] theorem writeStatus_done (v : Word) (s : State) : (writeStatus v s).done = (s.done && !v.getLsbD 1) := rfl
@[simp] theorem writeStatus_keyLocked (v : Word) (s : State) : (writeStatus v s).keyLocked = s.keyLocked := rfl
@[simp] theorem writeStatus_cmdRejected (v : Word) (s : State) : (writeStatus v s).cmdRejected = (s.cmdRejected && !v.getLsbD 3) := rfl
@[simp] theorem writeStatus_rxOvf (v : Word) (s : State) : (writeStatus v s).rxOvf = (s.rxOvf && !v.getLsbD 4) := rfl
@[simp] theorem writeStatus_wrIgnored (v : Word) (s : State) : (writeStatus v s).wrIgnored = (s.wrIgnored && !v.getLsbD 5) := rfl
@[simp] theorem writeStatus_result (v : Word) (s : State) : (writeStatus v s).result = s.result := rfl
@[simp] theorem writeStatus_lastOp (v : Word) (s : State) : (writeStatus v s).lastOp = s.lastOp := rfl
@[simp] theorem writeStatus_keyWmask (v : Word) (s : State) : (writeStatus v s).keyWmask = s.keyWmask := rfl
@[simp] theorem writeStatus_timeout (v : Word) (s : State) : (writeStatus v s).timeout = s.timeout := rfl
@[simp] theorem writeStatus_mono (v : Word) (s : State) : (writeStatus v s).mono = s.mono := rfl
@[simp] theorem writeStatus_deadline (v : Word) (s : State) : (writeStatus v s).deadline = s.deadline := rfl
@[simp] theorem writeStatus_frameStart (v : Word) (s : State) : (writeStatus v s).frameStart = s.frameStart := rfl
@[simp] theorem writeStatus_frameTo (v : Word) (s : State) : (writeStatus v s).frameTo = s.frameTo := rfl
@[simp] theorem writeStatus_ptLen (v : Word) (s : State) : (writeStatus v s).ptLen = s.ptLen := rfl
@[simp] theorem writeStatus_txLen (v : Word) (s : State) : (writeStatus v s).txLen = s.txLen := rfl
@[simp] theorem writeStatus_rxLen (v : Word) (s : State) : (writeStatus v s).rxLen = s.rxLen := rfl
@[simp] theorem writeStatus_key (v : Word) (s : State) : (writeStatus v s).key = s.key := rfl
@[simp] theorem writeStatus_iv (v : Word) (s : State) : (writeStatus v s).iv = s.iv := rfl
@[simp] theorem writeStatus_mem (v : Word) (s : State) : (writeStatus v s).mem = s.mem := rfl
@[simp] theorem writeStatus_rxFifo (v : Word) (s : State) : (writeStatus v s).rxFifo = s.rxFifo := rfl
@[simp] theorem writeStatus_entropy (v : Word) (s : State) : (writeStatus v s).entropy = s.entropy := rfl
@[simp] theorem writeStatus_irqPin (v : Word) (s : State) : (writeStatus v s).irqPin = s.irqPin := rfl
@[simp] theorem writeStatus_prdata (v : Word) (s : State) : (writeStatus v s).prdata = s.prdata := rfl
@[simp] theorem writeStatus_pslverr (v : Word) (s : State) : (writeStatus v s).pslverr = s.pslverr := rfl
@[simp] theorem writeStatus_inputs (v : Word) (s : State) : (writeStatus v s).inputs = s.inputs := rfl
@[simp] theorem writeStatus_draws (v : Word) (s : State) : (writeStatus v s).draws = s.draws := rfl
@[simp] theorem writeStatus_epoch (v : Word) (s : State) : (writeStatus v s).epoch = s.epoch := rfl

/-! `readReg` (R80). -/

@[simp] theorem readReg_engine (r : Reg) (s : State) : (readReg r s).engine = s.engine := rfl
@[simp] theorem readReg_txTerm (r : Reg) (s : State) : (readReg r s).txTerm = s.txTerm := rfl
@[simp] theorem readReg_ie (r : Reg) (s : State) : (readReg r s).ie = s.ie := rfl
@[simp] theorem readReg_done (r : Reg) (s : State) : (readReg r s).done = s.done := rfl
@[simp] theorem readReg_keyLocked (r : Reg) (s : State) : (readReg r s).keyLocked = s.keyLocked := rfl
@[simp] theorem readReg_cmdRejected (r : Reg) (s : State) : (readReg r s).cmdRejected = s.cmdRejected := rfl
@[simp] theorem readReg_rxOvf (r : Reg) (s : State) : (readReg r s).rxOvf = s.rxOvf := rfl
@[simp] theorem readReg_wrIgnored (r : Reg) (s : State) : (readReg r s).wrIgnored = s.wrIgnored := rfl
@[simp] theorem readReg_result (r : Reg) (s : State) : (readReg r s).result = s.result := rfl
@[simp] theorem readReg_lastOp (r : Reg) (s : State) : (readReg r s).lastOp = s.lastOp := rfl
@[simp] theorem readReg_keyWmask (r : Reg) (s : State) : (readReg r s).keyWmask = s.keyWmask := rfl
@[simp] theorem readReg_timeout (r : Reg) (s : State) : (readReg r s).timeout = s.timeout := rfl
@[simp] theorem readReg_mono (r : Reg) (s : State) : (readReg r s).mono = s.mono := rfl
@[simp] theorem readReg_deadline (r : Reg) (s : State) : (readReg r s).deadline = s.deadline := rfl
@[simp] theorem readReg_frameStart (r : Reg) (s : State) : (readReg r s).frameStart = s.frameStart := rfl
@[simp] theorem readReg_frameTo (r : Reg) (s : State) : (readReg r s).frameTo = s.frameTo := rfl
@[simp] theorem readReg_ptLen (r : Reg) (s : State) : (readReg r s).ptLen = s.ptLen := rfl
@[simp] theorem readReg_txLen (r : Reg) (s : State) : (readReg r s).txLen = s.txLen := rfl
@[simp] theorem readReg_rxLen (r : Reg) (s : State) : (readReg r s).rxLen = s.rxLen := rfl
@[simp] theorem readReg_key (r : Reg) (s : State) : (readReg r s).key = s.key := rfl
@[simp] theorem readReg_iv (r : Reg) (s : State) : (readReg r s).iv = s.iv := rfl
@[simp] theorem readReg_mem (r : Reg) (s : State) : (readReg r s).mem = s.mem := rfl
@[simp] theorem readReg_rxFifo (r : Reg) (s : State) : (readReg r s).rxFifo = s.rxFifo := rfl
@[simp] theorem readReg_entropy (r : Reg) (s : State) : (readReg r s).entropy = s.entropy := rfl
@[simp] theorem readReg_irqPin (r : Reg) (s : State) : (readReg r s).irqPin = s.irqPin := rfl
@[simp] theorem readReg_prdata (r : Reg) (s : State) : (readReg r s).prdata = readWord s r := rfl
@[simp] theorem readReg_pslverr (r : Reg) (s : State) : (readReg r s).pslverr = s.pslverr := rfl
@[simp] theorem readReg_inputs (r : Reg) (s : State) : (readReg r s).inputs = s.inputs := rfl
@[simp] theorem readReg_draws (r : Reg) (s : State) : (readReg r s).draws = (if readOpen s r then s.draws + 1 else s.draws) := rfl
@[simp] theorem readReg_epoch (r : Reg) (s : State) : (readReg r s).epoch = s.epoch := rfl

/-! `lockKey` (R170). -/

@[simp] theorem lockKey_engine (s : State) : (lockKey s).engine = s.engine := rfl
@[simp] theorem lockKey_txTerm (s : State) : (lockKey s).txTerm = s.txTerm := rfl
@[simp] theorem lockKey_ie (s : State) : (lockKey s).ie = s.ie := rfl
@[simp] theorem lockKey_done (s : State) : (lockKey s).done = s.done := rfl
@[simp] theorem lockKey_keyLocked (s : State) : (lockKey s).keyLocked = true := rfl
@[simp] theorem lockKey_cmdRejected (s : State) : (lockKey s).cmdRejected = s.cmdRejected := rfl
@[simp] theorem lockKey_rxOvf (s : State) : (lockKey s).rxOvf = s.rxOvf := rfl
@[simp] theorem lockKey_wrIgnored (s : State) : (lockKey s).wrIgnored = s.wrIgnored := rfl
@[simp] theorem lockKey_result (s : State) : (lockKey s).result = s.result := rfl
@[simp] theorem lockKey_lastOp (s : State) : (lockKey s).lastOp = s.lastOp := rfl
@[simp] theorem lockKey_keyWmask (s : State) : (lockKey s).keyWmask = s.keyWmask := rfl
@[simp] theorem lockKey_timeout (s : State) : (lockKey s).timeout = s.timeout := rfl
@[simp] theorem lockKey_mono (s : State) : (lockKey s).mono = s.mono := rfl
@[simp] theorem lockKey_deadline (s : State) : (lockKey s).deadline = s.deadline := rfl
@[simp] theorem lockKey_frameStart (s : State) : (lockKey s).frameStart = s.frameStart := rfl
@[simp] theorem lockKey_frameTo (s : State) : (lockKey s).frameTo = s.frameTo := rfl
@[simp] theorem lockKey_ptLen (s : State) : (lockKey s).ptLen = s.ptLen := rfl
@[simp] theorem lockKey_txLen (s : State) : (lockKey s).txLen = s.txLen := rfl
@[simp] theorem lockKey_rxLen (s : State) : (lockKey s).rxLen = s.rxLen := rfl
@[simp] theorem lockKey_key (s : State) : (lockKey s).key = s.key := rfl
@[simp] theorem lockKey_iv (s : State) : (lockKey s).iv = s.iv := rfl
@[simp] theorem lockKey_mem (s : State) : (lockKey s).mem = s.mem := rfl
@[simp] theorem lockKey_rxFifo (s : State) : (lockKey s).rxFifo = s.rxFifo := rfl
@[simp] theorem lockKey_entropy (s : State) : (lockKey s).entropy = s.entropy := rfl
@[simp] theorem lockKey_irqPin (s : State) : (lockKey s).irqPin = s.irqPin := rfl
@[simp] theorem lockKey_prdata (s : State) : (lockKey s).prdata = s.prdata := rfl
@[simp] theorem lockKey_pslverr (s : State) : (lockKey s).pslverr = s.pslverr := rfl
@[simp] theorem lockKey_inputs (s : State) : (lockKey s).inputs = s.inputs := rfl
@[simp] theorem lockKey_draws (s : State) : (lockKey s).draws = s.draws := rfl
@[simp] theorem lockKey_epoch (s : State) : (lockKey s).epoch = s.epoch := rfl

/-! `clearTxLen` (R178). -/

@[simp] theorem clearTxLen_engine (s : State) : (clearTxLen s).engine = s.engine := rfl
@[simp] theorem clearTxLen_txTerm (s : State) : (clearTxLen s).txTerm = s.txTerm := rfl
@[simp] theorem clearTxLen_ie (s : State) : (clearTxLen s).ie = s.ie := rfl
@[simp] theorem clearTxLen_done (s : State) : (clearTxLen s).done = s.done := rfl
@[simp] theorem clearTxLen_keyLocked (s : State) : (clearTxLen s).keyLocked = s.keyLocked := rfl
@[simp] theorem clearTxLen_cmdRejected (s : State) : (clearTxLen s).cmdRejected = s.cmdRejected := rfl
@[simp] theorem clearTxLen_rxOvf (s : State) : (clearTxLen s).rxOvf = s.rxOvf := rfl
@[simp] theorem clearTxLen_wrIgnored (s : State) : (clearTxLen s).wrIgnored = s.wrIgnored := rfl
@[simp] theorem clearTxLen_result (s : State) : (clearTxLen s).result = s.result := rfl
@[simp] theorem clearTxLen_lastOp (s : State) : (clearTxLen s).lastOp = s.lastOp := rfl
@[simp] theorem clearTxLen_keyWmask (s : State) : (clearTxLen s).keyWmask = s.keyWmask := rfl
@[simp] theorem clearTxLen_timeout (s : State) : (clearTxLen s).timeout = s.timeout := rfl
@[simp] theorem clearTxLen_mono (s : State) : (clearTxLen s).mono = s.mono := rfl
@[simp] theorem clearTxLen_deadline (s : State) : (clearTxLen s).deadline = s.deadline := rfl
@[simp] theorem clearTxLen_frameStart (s : State) : (clearTxLen s).frameStart = s.frameStart := rfl
@[simp] theorem clearTxLen_frameTo (s : State) : (clearTxLen s).frameTo = s.frameTo := rfl
@[simp] theorem clearTxLen_ptLen (s : State) : (clearTxLen s).ptLen = s.ptLen := rfl
@[simp] theorem clearTxLen_txLen (s : State) : (clearTxLen s).txLen = 0 := rfl
@[simp] theorem clearTxLen_rxLen (s : State) : (clearTxLen s).rxLen = s.rxLen := rfl
@[simp] theorem clearTxLen_key (s : State) : (clearTxLen s).key = s.key := rfl
@[simp] theorem clearTxLen_iv (s : State) : (clearTxLen s).iv = s.iv := rfl
@[simp] theorem clearTxLen_mem (s : State) : (clearTxLen s).mem = s.mem := rfl
@[simp] theorem clearTxLen_rxFifo (s : State) : (clearTxLen s).rxFifo = s.rxFifo := rfl
@[simp] theorem clearTxLen_entropy (s : State) : (clearTxLen s).entropy = s.entropy := rfl
@[simp] theorem clearTxLen_irqPin (s : State) : (clearTxLen s).irqPin = s.irqPin := rfl
@[simp] theorem clearTxLen_prdata (s : State) : (clearTxLen s).prdata = s.prdata := rfl
@[simp] theorem clearTxLen_pslverr (s : State) : (clearTxLen s).pslverr = s.pslverr := rfl
@[simp] theorem clearTxLen_inputs (s : State) : (clearTxLen s).inputs = s.inputs := rfl
@[simp] theorem clearTxLen_draws (s : State) : (clearTxLen s).draws = s.draws := rfl
@[simp] theorem clearTxLen_epoch (s : State) : (clearTxLen s).epoch = s.epoch := rfl

/-! `clearPtLen` (R184). -/

@[simp] theorem clearPtLen_engine (s : State) : (clearPtLen s).engine = s.engine := rfl
@[simp] theorem clearPtLen_txTerm (s : State) : (clearPtLen s).txTerm = s.txTerm := rfl
@[simp] theorem clearPtLen_ie (s : State) : (clearPtLen s).ie = s.ie := rfl
@[simp] theorem clearPtLen_done (s : State) : (clearPtLen s).done = s.done := rfl
@[simp] theorem clearPtLen_keyLocked (s : State) : (clearPtLen s).keyLocked = s.keyLocked := rfl
@[simp] theorem clearPtLen_cmdRejected (s : State) : (clearPtLen s).cmdRejected = s.cmdRejected := rfl
@[simp] theorem clearPtLen_rxOvf (s : State) : (clearPtLen s).rxOvf = s.rxOvf := rfl
@[simp] theorem clearPtLen_wrIgnored (s : State) : (clearPtLen s).wrIgnored = s.wrIgnored := rfl
@[simp] theorem clearPtLen_result (s : State) : (clearPtLen s).result = s.result := rfl
@[simp] theorem clearPtLen_lastOp (s : State) : (clearPtLen s).lastOp = s.lastOp := rfl
@[simp] theorem clearPtLen_keyWmask (s : State) : (clearPtLen s).keyWmask = s.keyWmask := rfl
@[simp] theorem clearPtLen_timeout (s : State) : (clearPtLen s).timeout = s.timeout := rfl
@[simp] theorem clearPtLen_mono (s : State) : (clearPtLen s).mono = s.mono := rfl
@[simp] theorem clearPtLen_deadline (s : State) : (clearPtLen s).deadline = s.deadline := rfl
@[simp] theorem clearPtLen_frameStart (s : State) : (clearPtLen s).frameStart = s.frameStart := rfl
@[simp] theorem clearPtLen_frameTo (s : State) : (clearPtLen s).frameTo = s.frameTo := rfl
@[simp] theorem clearPtLen_ptLen (s : State) : (clearPtLen s).ptLen = 0 := rfl
@[simp] theorem clearPtLen_txLen (s : State) : (clearPtLen s).txLen = s.txLen := rfl
@[simp] theorem clearPtLen_rxLen (s : State) : (clearPtLen s).rxLen = s.rxLen := rfl
@[simp] theorem clearPtLen_key (s : State) : (clearPtLen s).key = s.key := rfl
@[simp] theorem clearPtLen_iv (s : State) : (clearPtLen s).iv = s.iv := rfl
@[simp] theorem clearPtLen_mem (s : State) : (clearPtLen s).mem = s.mem := rfl
@[simp] theorem clearPtLen_rxFifo (s : State) : (clearPtLen s).rxFifo = s.rxFifo := rfl
@[simp] theorem clearPtLen_entropy (s : State) : (clearPtLen s).entropy = s.entropy := rfl
@[simp] theorem clearPtLen_irqPin (s : State) : (clearPtLen s).irqPin = s.irqPin := rfl
@[simp] theorem clearPtLen_prdata (s : State) : (clearPtLen s).prdata = s.prdata := rfl
@[simp] theorem clearPtLen_pslverr (s : State) : (clearPtLen s).pslverr = s.pslverr := rfl
@[simp] theorem clearPtLen_inputs (s : State) : (clearPtLen s).inputs = s.inputs := rfl
@[simp] theorem clearPtLen_draws (s : State) : (clearPtLen s).draws = s.draws := rfl
@[simp] theorem clearPtLen_epoch (s : State) : (clearPtLen s).epoch = s.epoch := rfl

/-! `releaseEntropy` (R176). -/

@[simp] theorem releaseEntropy_engine (s : State) : (releaseEntropy s).engine = s.engine := rfl
@[simp] theorem releaseEntropy_txTerm (s : State) : (releaseEntropy s).txTerm = s.txTerm := rfl
@[simp] theorem releaseEntropy_ie (s : State) : (releaseEntropy s).ie = s.ie := rfl
@[simp] theorem releaseEntropy_done (s : State) : (releaseEntropy s).done = s.done := rfl
@[simp] theorem releaseEntropy_keyLocked (s : State) : (releaseEntropy s).keyLocked = s.keyLocked := rfl
@[simp] theorem releaseEntropy_cmdRejected (s : State) : (releaseEntropy s).cmdRejected = s.cmdRejected := rfl
@[simp] theorem releaseEntropy_rxOvf (s : State) : (releaseEntropy s).rxOvf = s.rxOvf := rfl
@[simp] theorem releaseEntropy_wrIgnored (s : State) : (releaseEntropy s).wrIgnored = s.wrIgnored := rfl
@[simp] theorem releaseEntropy_result (s : State) : (releaseEntropy s).result = s.result := rfl
@[simp] theorem releaseEntropy_lastOp (s : State) : (releaseEntropy s).lastOp = s.lastOp := rfl
@[simp] theorem releaseEntropy_keyWmask (s : State) : (releaseEntropy s).keyWmask = s.keyWmask := rfl
@[simp] theorem releaseEntropy_timeout (s : State) : (releaseEntropy s).timeout = s.timeout := rfl
@[simp] theorem releaseEntropy_mono (s : State) : (releaseEntropy s).mono = s.mono := rfl
@[simp] theorem releaseEntropy_deadline (s : State) : (releaseEntropy s).deadline = s.deadline := rfl
@[simp] theorem releaseEntropy_frameStart (s : State) : (releaseEntropy s).frameStart = s.frameStart := rfl
@[simp] theorem releaseEntropy_frameTo (s : State) : (releaseEntropy s).frameTo = s.frameTo := rfl
@[simp] theorem releaseEntropy_ptLen (s : State) : (releaseEntropy s).ptLen = s.ptLen := rfl
@[simp] theorem releaseEntropy_txLen (s : State) : (releaseEntropy s).txLen = s.txLen := rfl
@[simp] theorem releaseEntropy_rxLen (s : State) : (releaseEntropy s).rxLen = s.rxLen := rfl
@[simp] theorem releaseEntropy_key (s : State) : (releaseEntropy s).key = s.key := rfl
@[simp] theorem releaseEntropy_iv (s : State) : (releaseEntropy s).iv = s.iv := rfl
@[simp] theorem releaseEntropy_mem (s : State) : (releaseEntropy s).mem = s.mem := rfl
@[simp] theorem releaseEntropy_rxFifo (s : State) : (releaseEntropy s).rxFifo = s.rxFifo := rfl
@[simp] theorem releaseEntropy_entropy (s : State) : (releaseEntropy s).entropy = .idle := rfl
@[simp] theorem releaseEntropy_irqPin (s : State) : (releaseEntropy s).irqPin = s.irqPin := rfl
@[simp] theorem releaseEntropy_prdata (s : State) : (releaseEntropy s).prdata = s.prdata := rfl
@[simp] theorem releaseEntropy_pslverr (s : State) : (releaseEntropy s).pslverr = s.pslverr := rfl
@[simp] theorem releaseEntropy_inputs (s : State) : (releaseEntropy s).inputs = s.inputs := rfl
@[simp] theorem releaseEntropy_draws (s : State) : (releaseEntropy s).draws = s.draws := rfl
@[simp] theorem releaseEntropy_epoch (s : State) : (releaseEntropy s).epoch = s.epoch := rfl

/-! `startEncrypt` (R173). -/

@[simp] theorem startEncrypt_engine (s : State) : (startEncrypt s).engine = .encrypting := rfl
@[simp] theorem startEncrypt_txTerm (s : State) : (startEncrypt s).txTerm = s.txTerm := rfl
@[simp] theorem startEncrypt_ie (s : State) : (startEncrypt s).ie = s.ie := rfl
@[simp] theorem startEncrypt_done (s : State) : (startEncrypt s).done = s.done := rfl
@[simp] theorem startEncrypt_keyLocked (s : State) : (startEncrypt s).keyLocked = s.keyLocked := rfl
@[simp] theorem startEncrypt_cmdRejected (s : State) : (startEncrypt s).cmdRejected = s.cmdRejected := rfl
@[simp] theorem startEncrypt_rxOvf (s : State) : (startEncrypt s).rxOvf = s.rxOvf := rfl
@[simp] theorem startEncrypt_wrIgnored (s : State) : (startEncrypt s).wrIgnored = s.wrIgnored := rfl
@[simp] theorem startEncrypt_result (s : State) : (startEncrypt s).result = s.result := rfl
@[simp] theorem startEncrypt_lastOp (s : State) : (startEncrypt s).lastOp = s.lastOp := rfl
@[simp] theorem startEncrypt_keyWmask (s : State) : (startEncrypt s).keyWmask = s.keyWmask := rfl
@[simp] theorem startEncrypt_timeout (s : State) : (startEncrypt s).timeout = s.timeout := rfl
@[simp] theorem startEncrypt_mono (s : State) : (startEncrypt s).mono = s.mono := rfl
@[simp] theorem startEncrypt_deadline (s : State) : (startEncrypt s).deadline = s.deadline := rfl
@[simp] theorem startEncrypt_frameStart (s : State) : (startEncrypt s).frameStart = s.frameStart := rfl
@[simp] theorem startEncrypt_frameTo (s : State) : (startEncrypt s).frameTo = s.frameTo := rfl
@[simp] theorem startEncrypt_ptLen (s : State) : (startEncrypt s).ptLen = s.ptLen := rfl
@[simp] theorem startEncrypt_txLen (s : State) : (startEncrypt s).txLen = s.txLen := rfl
@[simp] theorem startEncrypt_rxLen (s : State) : (startEncrypt s).rxLen = s.rxLen := rfl
@[simp] theorem startEncrypt_key (s : State) : (startEncrypt s).key = s.key := rfl
@[simp] theorem startEncrypt_iv (s : State) : (startEncrypt s).iv = s.iv := rfl
@[simp] theorem startEncrypt_mem (s : State) : (startEncrypt s).mem = s.mem := rfl
@[simp] theorem startEncrypt_rxFifo (s : State) : (startEncrypt s).rxFifo = s.rxFifo := rfl
@[simp] theorem startEncrypt_entropy (s : State) : (startEncrypt s).entropy = s.entropy := rfl
@[simp] theorem startEncrypt_irqPin (s : State) : (startEncrypt s).irqPin = s.irqPin := rfl
@[simp] theorem startEncrypt_prdata (s : State) : (startEncrypt s).prdata = s.prdata := rfl
@[simp] theorem startEncrypt_pslverr (s : State) : (startEncrypt s).pslverr = s.pslverr := rfl
@[simp] theorem startEncrypt_inputs (s : State) : (startEncrypt s).inputs = s.inputs := rfl
@[simp] theorem startEncrypt_draws (s : State) : (startEncrypt s).draws = s.draws := rfl
@[simp] theorem startEncrypt_epoch (s : State) : (startEncrypt s).epoch = s.epoch := rfl

/-! `startDecrypt` (R179). -/

@[simp] theorem startDecrypt_engine (src : Src) (s : State) : (startDecrypt src s).engine = .decrypting src := rfl
@[simp] theorem startDecrypt_txTerm (src : Src) (s : State) : (startDecrypt src s).txTerm = s.txTerm := rfl
@[simp] theorem startDecrypt_ie (src : Src) (s : State) : (startDecrypt src s).ie = s.ie := rfl
@[simp] theorem startDecrypt_done (src : Src) (s : State) : (startDecrypt src s).done = s.done := rfl
@[simp] theorem startDecrypt_keyLocked (src : Src) (s : State) : (startDecrypt src s).keyLocked = s.keyLocked := rfl
@[simp] theorem startDecrypt_cmdRejected (src : Src) (s : State) : (startDecrypt src s).cmdRejected = s.cmdRejected := rfl
@[simp] theorem startDecrypt_rxOvf (src : Src) (s : State) : (startDecrypt src s).rxOvf = s.rxOvf := rfl
@[simp] theorem startDecrypt_wrIgnored (src : Src) (s : State) : (startDecrypt src s).wrIgnored = s.wrIgnored := rfl
@[simp] theorem startDecrypt_result (src : Src) (s : State) : (startDecrypt src s).result = s.result := rfl
@[simp] theorem startDecrypt_lastOp (src : Src) (s : State) : (startDecrypt src s).lastOp = s.lastOp := rfl
@[simp] theorem startDecrypt_keyWmask (src : Src) (s : State) : (startDecrypt src s).keyWmask = s.keyWmask := rfl
@[simp] theorem startDecrypt_timeout (src : Src) (s : State) : (startDecrypt src s).timeout = s.timeout := rfl
@[simp] theorem startDecrypt_mono (src : Src) (s : State) : (startDecrypt src s).mono = s.mono := rfl
@[simp] theorem startDecrypt_deadline (src : Src) (s : State) : (startDecrypt src s).deadline = s.deadline := rfl
@[simp] theorem startDecrypt_frameStart (src : Src) (s : State) : (startDecrypt src s).frameStart = s.frameStart := rfl
@[simp] theorem startDecrypt_frameTo (src : Src) (s : State) : (startDecrypt src s).frameTo = s.frameTo := rfl
@[simp] theorem startDecrypt_ptLen (src : Src) (s : State) : (startDecrypt src s).ptLen = s.ptLen := rfl
@[simp] theorem startDecrypt_txLen (src : Src) (s : State) : (startDecrypt src s).txLen = s.txLen := rfl
@[simp] theorem startDecrypt_rxLen (src : Src) (s : State) : (startDecrypt src s).rxLen = s.rxLen := rfl
@[simp] theorem startDecrypt_key (src : Src) (s : State) : (startDecrypt src s).key = s.key := rfl
@[simp] theorem startDecrypt_iv (src : Src) (s : State) : (startDecrypt src s).iv = s.iv := rfl
@[simp] theorem startDecrypt_mem (src : Src) (s : State) : (startDecrypt src s).mem = s.mem := rfl
@[simp] theorem startDecrypt_rxFifo (src : Src) (s : State) : (startDecrypt src s).rxFifo = s.rxFifo := rfl
@[simp] theorem startDecrypt_entropy (src : Src) (s : State) : (startDecrypt src s).entropy = s.entropy := rfl
@[simp] theorem startDecrypt_irqPin (src : Src) (s : State) : (startDecrypt src s).irqPin = s.irqPin := rfl
@[simp] theorem startDecrypt_prdata (src : Src) (s : State) : (startDecrypt src s).prdata = s.prdata := rfl
@[simp] theorem startDecrypt_pslverr (src : Src) (s : State) : (startDecrypt src s).pslverr = s.pslverr := rfl
@[simp] theorem startDecrypt_inputs (src : Src) (s : State) : (startDecrypt src s).inputs = s.inputs := rfl
@[simp] theorem startDecrypt_draws (src : Src) (s : State) : (startDecrypt src s).draws = s.draws := rfl
@[simp] theorem startDecrypt_epoch (src : Src) (s : State) : (startDecrypt src s).epoch = s.epoch := rfl

/-! `putEnvelope` (R177). -/

@[simp] theorem putEnvelope_engine (t iv : Bytes) (s : State) : (putEnvelope t iv s).engine = s.engine := rfl
@[simp] theorem putEnvelope_txTerm (t iv : Bytes) (s : State) : (putEnvelope t iv s).txTerm = s.txTerm := rfl
@[simp] theorem putEnvelope_ie (t iv : Bytes) (s : State) : (putEnvelope t iv s).ie = s.ie := rfl
@[simp] theorem putEnvelope_done (t iv : Bytes) (s : State) : (putEnvelope t iv s).done = s.done := rfl
@[simp] theorem putEnvelope_keyLocked (t iv : Bytes) (s : State) : (putEnvelope t iv s).keyLocked = s.keyLocked := rfl
@[simp] theorem putEnvelope_cmdRejected (t iv : Bytes) (s : State) : (putEnvelope t iv s).cmdRejected = s.cmdRejected := rfl
@[simp] theorem putEnvelope_rxOvf (t iv : Bytes) (s : State) : (putEnvelope t iv s).rxOvf = s.rxOvf := rfl
@[simp] theorem putEnvelope_wrIgnored (t iv : Bytes) (s : State) : (putEnvelope t iv s).wrIgnored = s.wrIgnored := rfl
@[simp] theorem putEnvelope_result (t iv : Bytes) (s : State) : (putEnvelope t iv s).result = s.result := rfl
@[simp] theorem putEnvelope_lastOp (t iv : Bytes) (s : State) : (putEnvelope t iv s).lastOp = s.lastOp := rfl
@[simp] theorem putEnvelope_keyWmask (t iv : Bytes) (s : State) : (putEnvelope t iv s).keyWmask = s.keyWmask := rfl
@[simp] theorem putEnvelope_timeout (t iv : Bytes) (s : State) : (putEnvelope t iv s).timeout = s.timeout := rfl
@[simp] theorem putEnvelope_mono (t iv : Bytes) (s : State) : (putEnvelope t iv s).mono = s.mono := rfl
@[simp] theorem putEnvelope_deadline (t iv : Bytes) (s : State) : (putEnvelope t iv s).deadline = s.deadline := rfl
@[simp] theorem putEnvelope_frameStart (t iv : Bytes) (s : State) : (putEnvelope t iv s).frameStart = s.frameStart := rfl
@[simp] theorem putEnvelope_frameTo (t iv : Bytes) (s : State) : (putEnvelope t iv s).frameTo = s.frameTo := rfl
@[simp] theorem putEnvelope_ptLen (t iv : Bytes) (s : State) : (putEnvelope t iv s).ptLen = s.ptLen := rfl
@[simp] theorem putEnvelope_txLen (t iv : Bytes) (s : State) : (putEnvelope t iv s).txLen = BitVec.ofNat 10 t.length := rfl
@[simp] theorem putEnvelope_rxLen (t iv : Bytes) (s : State) : (putEnvelope t iv s).rxLen = s.rxLen := rfl
@[simp] theorem putEnvelope_key (t iv : Bytes) (s : State) : (putEnvelope t iv s).key = s.key := rfl
@[simp] theorem putEnvelope_iv (t iv : Bytes) (s : State) : (putEnvelope t iv s).iv = ivWords iv := rfl
@[simp] theorem putEnvelope_mem (t iv : Bytes) (s : State) : (putEnvelope t iv s).mem = storeBytes s.mem txBase t := rfl
@[simp] theorem putEnvelope_rxFifo (t iv : Bytes) (s : State) : (putEnvelope t iv s).rxFifo = s.rxFifo := rfl
@[simp] theorem putEnvelope_entropy (t iv : Bytes) (s : State) : (putEnvelope t iv s).entropy = s.entropy := rfl
@[simp] theorem putEnvelope_irqPin (t iv : Bytes) (s : State) : (putEnvelope t iv s).irqPin = s.irqPin := rfl
@[simp] theorem putEnvelope_prdata (t iv : Bytes) (s : State) : (putEnvelope t iv s).prdata = s.prdata := rfl
@[simp] theorem putEnvelope_pslverr (t iv : Bytes) (s : State) : (putEnvelope t iv s).pslverr = s.pslverr := rfl
@[simp] theorem putEnvelope_inputs (t iv : Bytes) (s : State) : (putEnvelope t iv s).inputs = s.inputs := rfl
@[simp] theorem putEnvelope_draws (t iv : Bytes) (s : State) : (putEnvelope t iv s).draws = s.draws := rfl
@[simp] theorem putEnvelope_epoch (t iv : Bytes) (s : State) : (putEnvelope t iv s).epoch = s.epoch := rfl

/-! `putPlaintext` (R183). -/

@[simp] theorem putPlaintext_engine (p iv : Bytes) (s : State) : (putPlaintext p iv s).engine = s.engine := rfl
@[simp] theorem putPlaintext_txTerm (p iv : Bytes) (s : State) : (putPlaintext p iv s).txTerm = s.txTerm := rfl
@[simp] theorem putPlaintext_ie (p iv : Bytes) (s : State) : (putPlaintext p iv s).ie = s.ie := rfl
@[simp] theorem putPlaintext_done (p iv : Bytes) (s : State) : (putPlaintext p iv s).done = s.done := rfl
@[simp] theorem putPlaintext_keyLocked (p iv : Bytes) (s : State) : (putPlaintext p iv s).keyLocked = s.keyLocked := rfl
@[simp] theorem putPlaintext_cmdRejected (p iv : Bytes) (s : State) : (putPlaintext p iv s).cmdRejected = s.cmdRejected := rfl
@[simp] theorem putPlaintext_rxOvf (p iv : Bytes) (s : State) : (putPlaintext p iv s).rxOvf = s.rxOvf := rfl
@[simp] theorem putPlaintext_wrIgnored (p iv : Bytes) (s : State) : (putPlaintext p iv s).wrIgnored = s.wrIgnored := rfl
@[simp] theorem putPlaintext_result (p iv : Bytes) (s : State) : (putPlaintext p iv s).result = s.result := rfl
@[simp] theorem putPlaintext_lastOp (p iv : Bytes) (s : State) : (putPlaintext p iv s).lastOp = s.lastOp := rfl
@[simp] theorem putPlaintext_keyWmask (p iv : Bytes) (s : State) : (putPlaintext p iv s).keyWmask = s.keyWmask := rfl
@[simp] theorem putPlaintext_timeout (p iv : Bytes) (s : State) : (putPlaintext p iv s).timeout = s.timeout := rfl
@[simp] theorem putPlaintext_mono (p iv : Bytes) (s : State) : (putPlaintext p iv s).mono = s.mono := rfl
@[simp] theorem putPlaintext_deadline (p iv : Bytes) (s : State) : (putPlaintext p iv s).deadline = s.deadline := rfl
@[simp] theorem putPlaintext_frameStart (p iv : Bytes) (s : State) : (putPlaintext p iv s).frameStart = s.frameStart := rfl
@[simp] theorem putPlaintext_frameTo (p iv : Bytes) (s : State) : (putPlaintext p iv s).frameTo = s.frameTo := rfl
@[simp] theorem putPlaintext_ptLen (p iv : Bytes) (s : State) : (putPlaintext p iv s).ptLen = BitVec.ofNat 9 p.length := rfl
@[simp] theorem putPlaintext_txLen (p iv : Bytes) (s : State) : (putPlaintext p iv s).txLen = s.txLen := rfl
@[simp] theorem putPlaintext_rxLen (p iv : Bytes) (s : State) : (putPlaintext p iv s).rxLen = s.rxLen := rfl
@[simp] theorem putPlaintext_key (p iv : Bytes) (s : State) : (putPlaintext p iv s).key = s.key := rfl
@[simp] theorem putPlaintext_iv (p iv : Bytes) (s : State) : (putPlaintext p iv s).iv = ivWords iv := rfl
@[simp] theorem putPlaintext_mem (p iv : Bytes) (s : State) : (putPlaintext p iv s).mem = storeBytes s.mem ptBase p := rfl
@[simp] theorem putPlaintext_rxFifo (p iv : Bytes) (s : State) : (putPlaintext p iv s).rxFifo = s.rxFifo := rfl
@[simp] theorem putPlaintext_entropy (p iv : Bytes) (s : State) : (putPlaintext p iv s).entropy = s.entropy := rfl
@[simp] theorem putPlaintext_irqPin (p iv : Bytes) (s : State) : (putPlaintext p iv s).irqPin = s.irqPin := rfl
@[simp] theorem putPlaintext_prdata (p iv : Bytes) (s : State) : (putPlaintext p iv s).prdata = s.prdata := rfl
@[simp] theorem putPlaintext_pslverr (p iv : Bytes) (s : State) : (putPlaintext p iv s).pslverr = s.pslverr := rfl
@[simp] theorem putPlaintext_inputs (p iv : Bytes) (s : State) : (putPlaintext p iv s).inputs = s.inputs := rfl
@[simp] theorem putPlaintext_draws (p iv : Bytes) (s : State) : (putPlaintext p iv s).draws = s.draws := rfl
@[simp] theorem putPlaintext_epoch (p iv : Bytes) (s : State) : (putPlaintext p iv s).epoch = s.epoch := rfl

/-! `pushByte` (R201). -/

@[simp] theorem pushByte_engine (b : Byte) (s : State) : (pushByte b s).engine = s.engine := rfl
@[simp] theorem pushByte_txTerm (b : Byte) (s : State) : (pushByte b s).txTerm = s.txTerm := rfl
@[simp] theorem pushByte_ie (b : Byte) (s : State) : (pushByte b s).ie = s.ie := rfl
@[simp] theorem pushByte_done (b : Byte) (s : State) : (pushByte b s).done = s.done := rfl
@[simp] theorem pushByte_keyLocked (b : Byte) (s : State) : (pushByte b s).keyLocked = s.keyLocked := rfl
@[simp] theorem pushByte_cmdRejected (b : Byte) (s : State) : (pushByte b s).cmdRejected = s.cmdRejected := rfl
@[simp] theorem pushByte_rxOvf (b : Byte) (s : State) : (pushByte b s).rxOvf = s.rxOvf := rfl
@[simp] theorem pushByte_wrIgnored (b : Byte) (s : State) : (pushByte b s).wrIgnored = s.wrIgnored := rfl
@[simp] theorem pushByte_result (b : Byte) (s : State) : (pushByte b s).result = s.result := rfl
@[simp] theorem pushByte_lastOp (b : Byte) (s : State) : (pushByte b s).lastOp = s.lastOp := rfl
@[simp] theorem pushByte_keyWmask (b : Byte) (s : State) : (pushByte b s).keyWmask = s.keyWmask := rfl
@[simp] theorem pushByte_timeout (b : Byte) (s : State) : (pushByte b s).timeout = s.timeout := rfl
@[simp] theorem pushByte_mono (b : Byte) (s : State) : (pushByte b s).mono = s.mono := rfl
@[simp] theorem pushByte_deadline (b : Byte) (s : State) : (pushByte b s).deadline = s.deadline := rfl
@[simp] theorem pushByte_frameStart (b : Byte) (s : State) : (pushByte b s).frameStart = s.frameStart := rfl
@[simp] theorem pushByte_frameTo (b : Byte) (s : State) : (pushByte b s).frameTo = s.frameTo := rfl
@[simp] theorem pushByte_ptLen (b : Byte) (s : State) : (pushByte b s).ptLen = s.ptLen := rfl
@[simp] theorem pushByte_txLen (b : Byte) (s : State) : (pushByte b s).txLen = s.txLen := rfl
@[simp] theorem pushByte_rxLen (b : Byte) (s : State) : (pushByte b s).rxLen = s.rxLen := rfl
@[simp] theorem pushByte_key (b : Byte) (s : State) : (pushByte b s).key = s.key := rfl
@[simp] theorem pushByte_iv (b : Byte) (s : State) : (pushByte b s).iv = s.iv := rfl
@[simp] theorem pushByte_mem (b : Byte) (s : State) : (pushByte b s).mem = s.mem := rfl
@[simp] theorem pushByte_rxFifo (b : Byte) (s : State) : (pushByte b s).rxFifo = s.rxFifo ++ [b] := rfl
@[simp] theorem pushByte_entropy (b : Byte) (s : State) : (pushByte b s).entropy = s.entropy := rfl
@[simp] theorem pushByte_irqPin (b : Byte) (s : State) : (pushByte b s).irqPin = s.irqPin := rfl
@[simp] theorem pushByte_prdata (b : Byte) (s : State) : (pushByte b s).prdata = s.prdata := rfl
@[simp] theorem pushByte_pslverr (b : Byte) (s : State) : (pushByte b s).pslverr = s.pslverr := rfl
@[simp] theorem pushByte_inputs (b : Byte) (s : State) : (pushByte b s).inputs = s.inputs := rfl
@[simp] theorem pushByte_draws (b : Byte) (s : State) : (pushByte b s).draws = s.draws := rfl
@[simp] theorem pushByte_epoch (b : Byte) (s : State) : (pushByte b s).epoch = s.epoch := rfl

/-! `loseByte` (R201). -/

@[simp] theorem loseByte_engine (s : State) : (loseByte s).engine = s.engine := rfl
@[simp] theorem loseByte_txTerm (s : State) : (loseByte s).txTerm = s.txTerm := rfl
@[simp] theorem loseByte_ie (s : State) : (loseByte s).ie = s.ie := rfl
@[simp] theorem loseByte_done (s : State) : (loseByte s).done = s.done := rfl
@[simp] theorem loseByte_keyLocked (s : State) : (loseByte s).keyLocked = s.keyLocked := rfl
@[simp] theorem loseByte_cmdRejected (s : State) : (loseByte s).cmdRejected = s.cmdRejected := rfl
@[simp] theorem loseByte_rxOvf (s : State) : (loseByte s).rxOvf = true := rfl
@[simp] theorem loseByte_wrIgnored (s : State) : (loseByte s).wrIgnored = s.wrIgnored := rfl
@[simp] theorem loseByte_result (s : State) : (loseByte s).result = s.result := rfl
@[simp] theorem loseByte_lastOp (s : State) : (loseByte s).lastOp = s.lastOp := rfl
@[simp] theorem loseByte_keyWmask (s : State) : (loseByte s).keyWmask = s.keyWmask := rfl
@[simp] theorem loseByte_timeout (s : State) : (loseByte s).timeout = s.timeout := rfl
@[simp] theorem loseByte_mono (s : State) : (loseByte s).mono = s.mono := rfl
@[simp] theorem loseByte_deadline (s : State) : (loseByte s).deadline = s.deadline := rfl
@[simp] theorem loseByte_frameStart (s : State) : (loseByte s).frameStart = s.frameStart := rfl
@[simp] theorem loseByte_frameTo (s : State) : (loseByte s).frameTo = s.frameTo := rfl
@[simp] theorem loseByte_ptLen (s : State) : (loseByte s).ptLen = s.ptLen := rfl
@[simp] theorem loseByte_txLen (s : State) : (loseByte s).txLen = s.txLen := rfl
@[simp] theorem loseByte_rxLen (s : State) : (loseByte s).rxLen = s.rxLen := rfl
@[simp] theorem loseByte_key (s : State) : (loseByte s).key = s.key := rfl
@[simp] theorem loseByte_iv (s : State) : (loseByte s).iv = s.iv := rfl
@[simp] theorem loseByte_mem (s : State) : (loseByte s).mem = s.mem := rfl
@[simp] theorem loseByte_rxFifo (s : State) : (loseByte s).rxFifo = s.rxFifo := rfl
@[simp] theorem loseByte_entropy (s : State) : (loseByte s).entropy = s.entropy := rfl
@[simp] theorem loseByte_irqPin (s : State) : (loseByte s).irqPin = s.irqPin := rfl
@[simp] theorem loseByte_prdata (s : State) : (loseByte s).prdata = s.prdata := rfl
@[simp] theorem loseByte_pslverr (s : State) : (loseByte s).pslverr = s.pslverr := rfl
@[simp] theorem loseByte_inputs (s : State) : (loseByte s).inputs = s.inputs := rfl
@[simp] theorem loseByte_draws (s : State) : (loseByte s).draws = s.draws := rfl
@[simp] theorem loseByte_epoch (s : State) : (loseByte s).epoch = s.epoch := rfl

/-! `countTick` (R203). -/

@[simp] theorem countTick_engine (s : State) : (countTick s).engine = s.engine := rfl
@[simp] theorem countTick_txTerm (s : State) : (countTick s).txTerm = s.txTerm := rfl
@[simp] theorem countTick_ie (s : State) : (countTick s).ie = s.ie := rfl
@[simp] theorem countTick_done (s : State) : (countTick s).done = s.done := rfl
@[simp] theorem countTick_keyLocked (s : State) : (countTick s).keyLocked = s.keyLocked := rfl
@[simp] theorem countTick_cmdRejected (s : State) : (countTick s).cmdRejected = s.cmdRejected := rfl
@[simp] theorem countTick_rxOvf (s : State) : (countTick s).rxOvf = s.rxOvf := rfl
@[simp] theorem countTick_wrIgnored (s : State) : (countTick s).wrIgnored = s.wrIgnored := rfl
@[simp] theorem countTick_result (s : State) : (countTick s).result = s.result := rfl
@[simp] theorem countTick_lastOp (s : State) : (countTick s).lastOp = s.lastOp := rfl
@[simp] theorem countTick_keyWmask (s : State) : (countTick s).keyWmask = s.keyWmask := rfl
@[simp] theorem countTick_timeout (s : State) : (countTick s).timeout = s.timeout := rfl
@[simp] theorem countTick_mono (s : State) : (countTick s).mono = s.mono + 1 := rfl
@[simp] theorem countTick_deadline (s : State) : (countTick s).deadline = s.deadline := rfl
@[simp] theorem countTick_frameStart (s : State) : (countTick s).frameStart = s.frameStart := rfl
@[simp] theorem countTick_frameTo (s : State) : (countTick s).frameTo = s.frameTo := rfl
@[simp] theorem countTick_ptLen (s : State) : (countTick s).ptLen = s.ptLen := rfl
@[simp] theorem countTick_txLen (s : State) : (countTick s).txLen = s.txLen := rfl
@[simp] theorem countTick_rxLen (s : State) : (countTick s).rxLen = s.rxLen := rfl
@[simp] theorem countTick_key (s : State) : (countTick s).key = s.key := rfl
@[simp] theorem countTick_iv (s : State) : (countTick s).iv = s.iv := rfl
@[simp] theorem countTick_mem (s : State) : (countTick s).mem = s.mem := rfl
@[simp] theorem countTick_rxFifo (s : State) : (countTick s).rxFifo = s.rxFifo := rfl
@[simp] theorem countTick_entropy (s : State) : (countTick s).entropy = s.entropy := rfl
@[simp] theorem countTick_irqPin (s : State) : (countTick s).irqPin = s.irqPin := rfl
@[simp] theorem countTick_prdata (s : State) : (countTick s).prdata = s.prdata := rfl
@[simp] theorem countTick_pslverr (s : State) : (countTick s).pslverr = s.pslverr := rfl
@[simp] theorem countTick_inputs (s : State) : (countTick s).inputs = s.inputs := rfl
@[simp] theorem countTick_draws (s : State) : (countTick s).draws = s.draws := rfl
@[simp] theorem countTick_epoch (s : State) : (countTick s).epoch = s.epoch := rfl

/-! `latchFrame` (R205). -/

@[simp] theorem latchFrame_engine (s : State) : (latchFrame s).engine = s.engine := rfl
@[simp] theorem latchFrame_txTerm (s : State) : (latchFrame s).txTerm = s.txTerm := rfl
@[simp] theorem latchFrame_ie (s : State) : (latchFrame s).ie = s.ie := rfl
@[simp] theorem latchFrame_done (s : State) : (latchFrame s).done = s.done := rfl
@[simp] theorem latchFrame_keyLocked (s : State) : (latchFrame s).keyLocked = s.keyLocked := rfl
@[simp] theorem latchFrame_cmdRejected (s : State) : (latchFrame s).cmdRejected = s.cmdRejected := rfl
@[simp] theorem latchFrame_rxOvf (s : State) : (latchFrame s).rxOvf = s.rxOvf := rfl
@[simp] theorem latchFrame_wrIgnored (s : State) : (latchFrame s).wrIgnored = s.wrIgnored := rfl
@[simp] theorem latchFrame_result (s : State) : (latchFrame s).result = s.result := rfl
@[simp] theorem latchFrame_lastOp (s : State) : (latchFrame s).lastOp = s.lastOp := rfl
@[simp] theorem latchFrame_keyWmask (s : State) : (latchFrame s).keyWmask = s.keyWmask := rfl
@[simp] theorem latchFrame_timeout (s : State) : (latchFrame s).timeout = s.timeout := rfl
@[simp] theorem latchFrame_mono (s : State) : (latchFrame s).mono = s.mono := rfl
@[simp] theorem latchFrame_deadline (s : State) : (latchFrame s).deadline = s.mono + s.timeout := rfl
@[simp] theorem latchFrame_frameStart (s : State) : (latchFrame s).frameStart = s.mono := rfl
@[simp] theorem latchFrame_frameTo (s : State) : (latchFrame s).frameTo = s.timeout := rfl
@[simp] theorem latchFrame_ptLen (s : State) : (latchFrame s).ptLen = s.ptLen := rfl
@[simp] theorem latchFrame_txLen (s : State) : (latchFrame s).txLen = s.txLen := rfl
@[simp] theorem latchFrame_rxLen (s : State) : (latchFrame s).rxLen = 0 := rfl
@[simp] theorem latchFrame_key (s : State) : (latchFrame s).key = s.key := rfl
@[simp] theorem latchFrame_iv (s : State) : (latchFrame s).iv = s.iv := rfl
@[simp] theorem latchFrame_mem (s : State) : (latchFrame s).mem = s.mem := rfl
@[simp] theorem latchFrame_rxFifo (s : State) : (latchFrame s).rxFifo = s.rxFifo := rfl
@[simp] theorem latchFrame_entropy (s : State) : (latchFrame s).entropy = s.entropy := rfl
@[simp] theorem latchFrame_irqPin (s : State) : (latchFrame s).irqPin = s.irqPin := rfl
@[simp] theorem latchFrame_prdata (s : State) : (latchFrame s).prdata = s.prdata := rfl
@[simp] theorem latchFrame_pslverr (s : State) : (latchFrame s).pslverr = s.pslverr := rfl
@[simp] theorem latchFrame_inputs (s : State) : (latchFrame s).inputs = s.inputs := rfl
@[simp] theorem latchFrame_draws (s : State) : (latchFrame s).draws = s.draws := rfl
@[simp] theorem latchFrame_epoch (s : State) : (latchFrame s).epoch = s.epoch := rfl

/-! `startReceiving` (R205). -/

@[simp] theorem startReceiving_engine (mode : FrameMode) (s : State) : (startReceiving mode s).engine = .receiving mode := rfl
@[simp] theorem startReceiving_txTerm (mode : FrameMode) (s : State) : (startReceiving mode s).txTerm = s.txTerm := rfl
@[simp] theorem startReceiving_ie (mode : FrameMode) (s : State) : (startReceiving mode s).ie = s.ie := rfl
@[simp] theorem startReceiving_done (mode : FrameMode) (s : State) : (startReceiving mode s).done = s.done := rfl
@[simp] theorem startReceiving_keyLocked (mode : FrameMode) (s : State) : (startReceiving mode s).keyLocked = s.keyLocked := rfl
@[simp] theorem startReceiving_cmdRejected (mode : FrameMode) (s : State) : (startReceiving mode s).cmdRejected = s.cmdRejected := rfl
@[simp] theorem startReceiving_rxOvf (mode : FrameMode) (s : State) : (startReceiving mode s).rxOvf = s.rxOvf := rfl
@[simp] theorem startReceiving_wrIgnored (mode : FrameMode) (s : State) : (startReceiving mode s).wrIgnored = s.wrIgnored := rfl
@[simp] theorem startReceiving_result (mode : FrameMode) (s : State) : (startReceiving mode s).result = s.result := rfl
@[simp] theorem startReceiving_lastOp (mode : FrameMode) (s : State) : (startReceiving mode s).lastOp = s.lastOp := rfl
@[simp] theorem startReceiving_keyWmask (mode : FrameMode) (s : State) : (startReceiving mode s).keyWmask = s.keyWmask := rfl
@[simp] theorem startReceiving_timeout (mode : FrameMode) (s : State) : (startReceiving mode s).timeout = s.timeout := rfl
@[simp] theorem startReceiving_mono (mode : FrameMode) (s : State) : (startReceiving mode s).mono = s.mono := rfl
@[simp] theorem startReceiving_deadline (mode : FrameMode) (s : State) : (startReceiving mode s).deadline = s.deadline := rfl
@[simp] theorem startReceiving_frameStart (mode : FrameMode) (s : State) : (startReceiving mode s).frameStart = s.frameStart := rfl
@[simp] theorem startReceiving_frameTo (mode : FrameMode) (s : State) : (startReceiving mode s).frameTo = s.frameTo := rfl
@[simp] theorem startReceiving_ptLen (mode : FrameMode) (s : State) : (startReceiving mode s).ptLen = s.ptLen := rfl
@[simp] theorem startReceiving_txLen (mode : FrameMode) (s : State) : (startReceiving mode s).txLen = s.txLen := rfl
@[simp] theorem startReceiving_rxLen (mode : FrameMode) (s : State) : (startReceiving mode s).rxLen = s.rxLen := rfl
@[simp] theorem startReceiving_key (mode : FrameMode) (s : State) : (startReceiving mode s).key = s.key := rfl
@[simp] theorem startReceiving_iv (mode : FrameMode) (s : State) : (startReceiving mode s).iv = s.iv := rfl
@[simp] theorem startReceiving_mem (mode : FrameMode) (s : State) : (startReceiving mode s).mem = s.mem := rfl
@[simp] theorem startReceiving_rxFifo (mode : FrameMode) (s : State) : (startReceiving mode s).rxFifo = s.rxFifo := rfl
@[simp] theorem startReceiving_entropy (mode : FrameMode) (s : State) : (startReceiving mode s).entropy = s.entropy := rfl
@[simp] theorem startReceiving_irqPin (mode : FrameMode) (s : State) : (startReceiving mode s).irqPin = s.irqPin := rfl
@[simp] theorem startReceiving_prdata (mode : FrameMode) (s : State) : (startReceiving mode s).prdata = s.prdata := rfl
@[simp] theorem startReceiving_pslverr (mode : FrameMode) (s : State) : (startReceiving mode s).pslverr = s.pslverr := rfl
@[simp] theorem startReceiving_inputs (mode : FrameMode) (s : State) : (startReceiving mode s).inputs = s.inputs := rfl
@[simp] theorem startReceiving_draws (mode : FrameMode) (s : State) : (startReceiving mode s).draws = s.draws := rfl
@[simp] theorem startReceiving_epoch (mode : FrameMode) (s : State) : (startReceiving mode s).epoch = s.epoch := rfl

/-! `takeByte` (R206). -/

@[simp] theorem takeByte_engine (b : Byte) (rest : Bytes) (s : State) : (takeByte b rest s).engine = s.engine := rfl
@[simp] theorem takeByte_txTerm (b : Byte) (rest : Bytes) (s : State) : (takeByte b rest s).txTerm = s.txTerm := rfl
@[simp] theorem takeByte_ie (b : Byte) (rest : Bytes) (s : State) : (takeByte b rest s).ie = s.ie := rfl
@[simp] theorem takeByte_done (b : Byte) (rest : Bytes) (s : State) : (takeByte b rest s).done = s.done := rfl
@[simp] theorem takeByte_keyLocked (b : Byte) (rest : Bytes) (s : State) : (takeByte b rest s).keyLocked = s.keyLocked := rfl
@[simp] theorem takeByte_cmdRejected (b : Byte) (rest : Bytes) (s : State) : (takeByte b rest s).cmdRejected = s.cmdRejected := rfl
@[simp] theorem takeByte_rxOvf (b : Byte) (rest : Bytes) (s : State) : (takeByte b rest s).rxOvf = s.rxOvf := rfl
@[simp] theorem takeByte_wrIgnored (b : Byte) (rest : Bytes) (s : State) : (takeByte b rest s).wrIgnored = s.wrIgnored := rfl
@[simp] theorem takeByte_result (b : Byte) (rest : Bytes) (s : State) : (takeByte b rest s).result = s.result := rfl
@[simp] theorem takeByte_lastOp (b : Byte) (rest : Bytes) (s : State) : (takeByte b rest s).lastOp = s.lastOp := rfl
@[simp] theorem takeByte_keyWmask (b : Byte) (rest : Bytes) (s : State) : (takeByte b rest s).keyWmask = s.keyWmask := rfl
@[simp] theorem takeByte_timeout (b : Byte) (rest : Bytes) (s : State) : (takeByte b rest s).timeout = s.timeout := rfl
@[simp] theorem takeByte_mono (b : Byte) (rest : Bytes) (s : State) : (takeByte b rest s).mono = s.mono := rfl
@[simp] theorem takeByte_deadline (b : Byte) (rest : Bytes) (s : State) : (takeByte b rest s).deadline = s.deadline := rfl
@[simp] theorem takeByte_frameStart (b : Byte) (rest : Bytes) (s : State) : (takeByte b rest s).frameStart = s.frameStart := rfl
@[simp] theorem takeByte_frameTo (b : Byte) (rest : Bytes) (s : State) : (takeByte b rest s).frameTo = s.frameTo := rfl
@[simp] theorem takeByte_ptLen (b : Byte) (rest : Bytes) (s : State) : (takeByte b rest s).ptLen = s.ptLen := rfl
@[simp] theorem takeByte_txLen (b : Byte) (rest : Bytes) (s : State) : (takeByte b rest s).txLen = s.txLen := rfl
@[simp] theorem takeByte_rxLen (b : Byte) (rest : Bytes) (s : State) : (takeByte b rest s).rxLen = s.rxLen + 1 := rfl
@[simp] theorem takeByte_key (b : Byte) (rest : Bytes) (s : State) : (takeByte b rest s).key = s.key := rfl
@[simp] theorem takeByte_iv (b : Byte) (rest : Bytes) (s : State) : (takeByte b rest s).iv = s.iv := rfl
@[simp] theorem takeByte_mem (b : Byte) (rest : Bytes) (s : State) : (takeByte b rest s).mem = storeByte s.mem (rxBase + s.rxLen.toNat) b := rfl
@[simp] theorem takeByte_rxFifo (b : Byte) (rest : Bytes) (s : State) : (takeByte b rest s).rxFifo = rest := rfl
@[simp] theorem takeByte_entropy (b : Byte) (rest : Bytes) (s : State) : (takeByte b rest s).entropy = s.entropy := rfl
@[simp] theorem takeByte_irqPin (b : Byte) (rest : Bytes) (s : State) : (takeByte b rest s).irqPin = s.irqPin := rfl
@[simp] theorem takeByte_prdata (b : Byte) (rest : Bytes) (s : State) : (takeByte b rest s).prdata = s.prdata := rfl
@[simp] theorem takeByte_pslverr (b : Byte) (rest : Bytes) (s : State) : (takeByte b rest s).pslverr = s.pslverr := rfl
@[simp] theorem takeByte_inputs (b : Byte) (rest : Bytes) (s : State) : (takeByte b rest s).inputs = s.inputs := rfl
@[simp] theorem takeByte_draws (b : Byte) (rest : Bytes) (s : State) : (takeByte b rest s).draws = s.draws := rfl
@[simp] theorem takeByte_epoch (b : Byte) (rest : Bytes) (s : State) : (takeByte b rest s).epoch = s.epoch := rfl

/-! `emptyFifo` (R210). -/

@[simp] theorem emptyFifo_engine (s : State) : (emptyFifo s).engine = s.engine := rfl
@[simp] theorem emptyFifo_txTerm (s : State) : (emptyFifo s).txTerm = s.txTerm := rfl
@[simp] theorem emptyFifo_ie (s : State) : (emptyFifo s).ie = s.ie := rfl
@[simp] theorem emptyFifo_done (s : State) : (emptyFifo s).done = s.done := rfl
@[simp] theorem emptyFifo_keyLocked (s : State) : (emptyFifo s).keyLocked = s.keyLocked := rfl
@[simp] theorem emptyFifo_cmdRejected (s : State) : (emptyFifo s).cmdRejected = s.cmdRejected := rfl
@[simp] theorem emptyFifo_rxOvf (s : State) : (emptyFifo s).rxOvf = s.rxOvf := rfl
@[simp] theorem emptyFifo_wrIgnored (s : State) : (emptyFifo s).wrIgnored = s.wrIgnored := rfl
@[simp] theorem emptyFifo_result (s : State) : (emptyFifo s).result = s.result := rfl
@[simp] theorem emptyFifo_lastOp (s : State) : (emptyFifo s).lastOp = s.lastOp := rfl
@[simp] theorem emptyFifo_keyWmask (s : State) : (emptyFifo s).keyWmask = s.keyWmask := rfl
@[simp] theorem emptyFifo_timeout (s : State) : (emptyFifo s).timeout = s.timeout := rfl
@[simp] theorem emptyFifo_mono (s : State) : (emptyFifo s).mono = s.mono := rfl
@[simp] theorem emptyFifo_deadline (s : State) : (emptyFifo s).deadline = s.deadline := rfl
@[simp] theorem emptyFifo_frameStart (s : State) : (emptyFifo s).frameStart = s.frameStart := rfl
@[simp] theorem emptyFifo_frameTo (s : State) : (emptyFifo s).frameTo = s.frameTo := rfl
@[simp] theorem emptyFifo_ptLen (s : State) : (emptyFifo s).ptLen = s.ptLen := rfl
@[simp] theorem emptyFifo_txLen (s : State) : (emptyFifo s).txLen = s.txLen := rfl
@[simp] theorem emptyFifo_rxLen (s : State) : (emptyFifo s).rxLen = s.rxLen := rfl
@[simp] theorem emptyFifo_key (s : State) : (emptyFifo s).key = s.key := rfl
@[simp] theorem emptyFifo_iv (s : State) : (emptyFifo s).iv = s.iv := rfl
@[simp] theorem emptyFifo_mem (s : State) : (emptyFifo s).mem = s.mem := rfl
@[simp] theorem emptyFifo_rxFifo (s : State) : (emptyFifo s).rxFifo = [] := rfl
@[simp] theorem emptyFifo_entropy (s : State) : (emptyFifo s).entropy = s.entropy := rfl
@[simp] theorem emptyFifo_irqPin (s : State) : (emptyFifo s).irqPin = s.irqPin := rfl
@[simp] theorem emptyFifo_prdata (s : State) : (emptyFifo s).prdata = s.prdata := rfl
@[simp] theorem emptyFifo_pslverr (s : State) : (emptyFifo s).pslverr = s.pslverr := rfl
@[simp] theorem emptyFifo_inputs (s : State) : (emptyFifo s).inputs = s.inputs := rfl
@[simp] theorem emptyFifo_draws (s : State) : (emptyFifo s).draws = s.draws := rfl
@[simp] theorem emptyFifo_epoch (s : State) : (emptyFifo s).epoch = s.epoch := rfl

/-! `dropWrite` (R31). -/

@[simp] theorem dropWrite_engine (s : State) : (dropWrite s).engine = s.engine := rfl
@[simp] theorem dropWrite_txTerm (s : State) : (dropWrite s).txTerm = s.txTerm := rfl
@[simp] theorem dropWrite_ie (s : State) : (dropWrite s).ie = s.ie := rfl
@[simp] theorem dropWrite_done (s : State) : (dropWrite s).done = s.done := rfl
@[simp] theorem dropWrite_keyLocked (s : State) : (dropWrite s).keyLocked = s.keyLocked := rfl
@[simp] theorem dropWrite_cmdRejected (s : State) : (dropWrite s).cmdRejected = s.cmdRejected := rfl
@[simp] theorem dropWrite_rxOvf (s : State) : (dropWrite s).rxOvf = s.rxOvf := rfl
@[simp] theorem dropWrite_wrIgnored (s : State) : (dropWrite s).wrIgnored = true := rfl
@[simp] theorem dropWrite_result (s : State) : (dropWrite s).result = s.result := rfl
@[simp] theorem dropWrite_lastOp (s : State) : (dropWrite s).lastOp = s.lastOp := rfl
@[simp] theorem dropWrite_keyWmask (s : State) : (dropWrite s).keyWmask = s.keyWmask := rfl
@[simp] theorem dropWrite_timeout (s : State) : (dropWrite s).timeout = s.timeout := rfl
@[simp] theorem dropWrite_mono (s : State) : (dropWrite s).mono = s.mono := rfl
@[simp] theorem dropWrite_deadline (s : State) : (dropWrite s).deadline = s.deadline := rfl
@[simp] theorem dropWrite_frameStart (s : State) : (dropWrite s).frameStart = s.frameStart := rfl
@[simp] theorem dropWrite_frameTo (s : State) : (dropWrite s).frameTo = s.frameTo := rfl
@[simp] theorem dropWrite_ptLen (s : State) : (dropWrite s).ptLen = s.ptLen := rfl
@[simp] theorem dropWrite_txLen (s : State) : (dropWrite s).txLen = s.txLen := rfl
@[simp] theorem dropWrite_rxLen (s : State) : (dropWrite s).rxLen = s.rxLen := rfl
@[simp] theorem dropWrite_key (s : State) : (dropWrite s).key = s.key := rfl
@[simp] theorem dropWrite_iv (s : State) : (dropWrite s).iv = s.iv := rfl
@[simp] theorem dropWrite_mem (s : State) : (dropWrite s).mem = s.mem := rfl
@[simp] theorem dropWrite_rxFifo (s : State) : (dropWrite s).rxFifo = s.rxFifo := rfl
@[simp] theorem dropWrite_entropy (s : State) : (dropWrite s).entropy = s.entropy := rfl
@[simp] theorem dropWrite_irqPin (s : State) : (dropWrite s).irqPin = s.irqPin := rfl
@[simp] theorem dropWrite_prdata (s : State) : (dropWrite s).prdata = s.prdata := rfl
@[simp] theorem dropWrite_pslverr (s : State) : (dropWrite s).pslverr = s.pslverr := rfl
@[simp] theorem dropWrite_inputs (s : State) : (dropWrite s).inputs = s.inputs := rfl
@[simp] theorem dropWrite_draws (s : State) : (dropWrite s).draws = s.draws := rfl
@[simp] theorem dropWrite_epoch (s : State) : (dropWrite s).epoch = s.epoch := rfl

/-! `setKey` (R44). -/

@[simp] theorem setKey_engine (i : Fin 8) (v : Word) (s : State) : (setKey i v s).engine = s.engine := rfl
@[simp] theorem setKey_txTerm (i : Fin 8) (v : Word) (s : State) : (setKey i v s).txTerm = s.txTerm := rfl
@[simp] theorem setKey_ie (i : Fin 8) (v : Word) (s : State) : (setKey i v s).ie = s.ie := rfl
@[simp] theorem setKey_done (i : Fin 8) (v : Word) (s : State) : (setKey i v s).done = s.done := rfl
@[simp] theorem setKey_keyLocked (i : Fin 8) (v : Word) (s : State) : (setKey i v s).keyLocked = s.keyLocked := rfl
@[simp] theorem setKey_cmdRejected (i : Fin 8) (v : Word) (s : State) : (setKey i v s).cmdRejected = s.cmdRejected := rfl
@[simp] theorem setKey_rxOvf (i : Fin 8) (v : Word) (s : State) : (setKey i v s).rxOvf = s.rxOvf := rfl
@[simp] theorem setKey_wrIgnored (i : Fin 8) (v : Word) (s : State) : (setKey i v s).wrIgnored = s.wrIgnored := rfl
@[simp] theorem setKey_result (i : Fin 8) (v : Word) (s : State) : (setKey i v s).result = s.result := rfl
@[simp] theorem setKey_lastOp (i : Fin 8) (v : Word) (s : State) : (setKey i v s).lastOp = s.lastOp := rfl
@[simp] theorem setKey_keyWmask (i : Fin 8) (v : Word) (s : State) : (setKey i v s).keyWmask = s.keyWmask ||| BitVec.twoPow 8 i.val := rfl
@[simp] theorem setKey_timeout (i : Fin 8) (v : Word) (s : State) : (setKey i v s).timeout = s.timeout := rfl
@[simp] theorem setKey_mono (i : Fin 8) (v : Word) (s : State) : (setKey i v s).mono = s.mono := rfl
@[simp] theorem setKey_deadline (i : Fin 8) (v : Word) (s : State) : (setKey i v s).deadline = s.deadline := rfl
@[simp] theorem setKey_frameStart (i : Fin 8) (v : Word) (s : State) : (setKey i v s).frameStart = s.frameStart := rfl
@[simp] theorem setKey_frameTo (i : Fin 8) (v : Word) (s : State) : (setKey i v s).frameTo = s.frameTo := rfl
@[simp] theorem setKey_ptLen (i : Fin 8) (v : Word) (s : State) : (setKey i v s).ptLen = s.ptLen := rfl
@[simp] theorem setKey_txLen (i : Fin 8) (v : Word) (s : State) : (setKey i v s).txLen = s.txLen := rfl
@[simp] theorem setKey_rxLen (i : Fin 8) (v : Word) (s : State) : (setKey i v s).rxLen = s.rxLen := rfl
@[simp] theorem setKey_key (i : Fin 8) (v : Word) (s : State) : (setKey i v s).key = s.key.set i v := rfl
@[simp] theorem setKey_iv (i : Fin 8) (v : Word) (s : State) : (setKey i v s).iv = s.iv := rfl
@[simp] theorem setKey_mem (i : Fin 8) (v : Word) (s : State) : (setKey i v s).mem = s.mem := rfl
@[simp] theorem setKey_rxFifo (i : Fin 8) (v : Word) (s : State) : (setKey i v s).rxFifo = s.rxFifo := rfl
@[simp] theorem setKey_entropy (i : Fin 8) (v : Word) (s : State) : (setKey i v s).entropy = s.entropy := rfl
@[simp] theorem setKey_irqPin (i : Fin 8) (v : Word) (s : State) : (setKey i v s).irqPin = s.irqPin := rfl
@[simp] theorem setKey_prdata (i : Fin 8) (v : Word) (s : State) : (setKey i v s).prdata = s.prdata := rfl
@[simp] theorem setKey_pslverr (i : Fin 8) (v : Word) (s : State) : (setKey i v s).pslverr = s.pslverr := rfl
@[simp] theorem setKey_inputs (i : Fin 8) (v : Word) (s : State) : (setKey i v s).inputs = s.inputs := rfl
@[simp] theorem setKey_draws (i : Fin 8) (v : Word) (s : State) : (setKey i v s).draws = s.draws := rfl
@[simp] theorem setKey_epoch (i : Fin 8) (v : Word) (s : State) : (setKey i v s).epoch = s.epoch := rfl

/-! `setCtrl` (R24). -/

@[simp] theorem setCtrl_engine (v : Word) (s : State) : (setCtrl v s).engine = s.engine := rfl
@[simp] theorem setCtrl_txTerm (v : Word) (s : State) : (setCtrl v s).txTerm = v.getLsbD 0 := rfl
@[simp] theorem setCtrl_ie (v : Word) (s : State) : (setCtrl v s).ie = v.getLsbD 1 := rfl
@[simp] theorem setCtrl_done (v : Word) (s : State) : (setCtrl v s).done = s.done := rfl
@[simp] theorem setCtrl_keyLocked (v : Word) (s : State) : (setCtrl v s).keyLocked = s.keyLocked := rfl
@[simp] theorem setCtrl_cmdRejected (v : Word) (s : State) : (setCtrl v s).cmdRejected = s.cmdRejected := rfl
@[simp] theorem setCtrl_rxOvf (v : Word) (s : State) : (setCtrl v s).rxOvf = s.rxOvf := rfl
@[simp] theorem setCtrl_wrIgnored (v : Word) (s : State) : (setCtrl v s).wrIgnored = s.wrIgnored := rfl
@[simp] theorem setCtrl_result (v : Word) (s : State) : (setCtrl v s).result = s.result := rfl
@[simp] theorem setCtrl_lastOp (v : Word) (s : State) : (setCtrl v s).lastOp = s.lastOp := rfl
@[simp] theorem setCtrl_keyWmask (v : Word) (s : State) : (setCtrl v s).keyWmask = s.keyWmask := rfl
@[simp] theorem setCtrl_timeout (v : Word) (s : State) : (setCtrl v s).timeout = s.timeout := rfl
@[simp] theorem setCtrl_mono (v : Word) (s : State) : (setCtrl v s).mono = s.mono := rfl
@[simp] theorem setCtrl_deadline (v : Word) (s : State) : (setCtrl v s).deadline = s.deadline := rfl
@[simp] theorem setCtrl_frameStart (v : Word) (s : State) : (setCtrl v s).frameStart = s.frameStart := rfl
@[simp] theorem setCtrl_frameTo (v : Word) (s : State) : (setCtrl v s).frameTo = s.frameTo := rfl
@[simp] theorem setCtrl_ptLen (v : Word) (s : State) : (setCtrl v s).ptLen = s.ptLen := rfl
@[simp] theorem setCtrl_txLen (v : Word) (s : State) : (setCtrl v s).txLen = s.txLen := rfl
@[simp] theorem setCtrl_rxLen (v : Word) (s : State) : (setCtrl v s).rxLen = s.rxLen := rfl
@[simp] theorem setCtrl_key (v : Word) (s : State) : (setCtrl v s).key = s.key := rfl
@[simp] theorem setCtrl_iv (v : Word) (s : State) : (setCtrl v s).iv = s.iv := rfl
@[simp] theorem setCtrl_mem (v : Word) (s : State) : (setCtrl v s).mem = s.mem := rfl
@[simp] theorem setCtrl_rxFifo (v : Word) (s : State) : (setCtrl v s).rxFifo = s.rxFifo := rfl
@[simp] theorem setCtrl_entropy (v : Word) (s : State) : (setCtrl v s).entropy = s.entropy := rfl
@[simp] theorem setCtrl_irqPin (v : Word) (s : State) : (setCtrl v s).irqPin = s.irqPin := rfl
@[simp] theorem setCtrl_prdata (v : Word) (s : State) : (setCtrl v s).prdata = s.prdata := rfl
@[simp] theorem setCtrl_pslverr (v : Word) (s : State) : (setCtrl v s).pslverr = s.pslverr := rfl
@[simp] theorem setCtrl_inputs (v : Word) (s : State) : (setCtrl v s).inputs = s.inputs := rfl
@[simp] theorem setCtrl_draws (v : Word) (s : State) : (setCtrl v s).draws = s.draws := rfl
@[simp] theorem setCtrl_epoch (v : Word) (s : State) : (setCtrl v s).epoch = s.epoch := rfl

/-! `setTimeout` (R37). -/

@[simp] theorem setTimeout_engine (v : Word) (s : State) : (setTimeout v s).engine = s.engine := rfl
@[simp] theorem setTimeout_txTerm (v : Word) (s : State) : (setTimeout v s).txTerm = s.txTerm := rfl
@[simp] theorem setTimeout_ie (v : Word) (s : State) : (setTimeout v s).ie = s.ie := rfl
@[simp] theorem setTimeout_done (v : Word) (s : State) : (setTimeout v s).done = s.done := rfl
@[simp] theorem setTimeout_keyLocked (v : Word) (s : State) : (setTimeout v s).keyLocked = s.keyLocked := rfl
@[simp] theorem setTimeout_cmdRejected (v : Word) (s : State) : (setTimeout v s).cmdRejected = s.cmdRejected := rfl
@[simp] theorem setTimeout_rxOvf (v : Word) (s : State) : (setTimeout v s).rxOvf = s.rxOvf := rfl
@[simp] theorem setTimeout_wrIgnored (v : Word) (s : State) : (setTimeout v s).wrIgnored = s.wrIgnored := rfl
@[simp] theorem setTimeout_result (v : Word) (s : State) : (setTimeout v s).result = s.result := rfl
@[simp] theorem setTimeout_lastOp (v : Word) (s : State) : (setTimeout v s).lastOp = s.lastOp := rfl
@[simp] theorem setTimeout_keyWmask (v : Word) (s : State) : (setTimeout v s).keyWmask = s.keyWmask := rfl
@[simp] theorem setTimeout_timeout (v : Word) (s : State) : (setTimeout v s).timeout = v := rfl
@[simp] theorem setTimeout_mono (v : Word) (s : State) : (setTimeout v s).mono = s.mono := rfl
@[simp] theorem setTimeout_deadline (v : Word) (s : State) : (setTimeout v s).deadline = s.deadline := rfl
@[simp] theorem setTimeout_frameStart (v : Word) (s : State) : (setTimeout v s).frameStart = s.frameStart := rfl
@[simp] theorem setTimeout_frameTo (v : Word) (s : State) : (setTimeout v s).frameTo = s.frameTo := rfl
@[simp] theorem setTimeout_ptLen (v : Word) (s : State) : (setTimeout v s).ptLen = s.ptLen := rfl
@[simp] theorem setTimeout_txLen (v : Word) (s : State) : (setTimeout v s).txLen = s.txLen := rfl
@[simp] theorem setTimeout_rxLen (v : Word) (s : State) : (setTimeout v s).rxLen = s.rxLen := rfl
@[simp] theorem setTimeout_key (v : Word) (s : State) : (setTimeout v s).key = s.key := rfl
@[simp] theorem setTimeout_iv (v : Word) (s : State) : (setTimeout v s).iv = s.iv := rfl
@[simp] theorem setTimeout_mem (v : Word) (s : State) : (setTimeout v s).mem = s.mem := rfl
@[simp] theorem setTimeout_rxFifo (v : Word) (s : State) : (setTimeout v s).rxFifo = s.rxFifo := rfl
@[simp] theorem setTimeout_entropy (v : Word) (s : State) : (setTimeout v s).entropy = s.entropy := rfl
@[simp] theorem setTimeout_irqPin (v : Word) (s : State) : (setTimeout v s).irqPin = s.irqPin := rfl
@[simp] theorem setTimeout_prdata (v : Word) (s : State) : (setTimeout v s).prdata = s.prdata := rfl
@[simp] theorem setTimeout_pslverr (v : Word) (s : State) : (setTimeout v s).pslverr = s.pslverr := rfl
@[simp] theorem setTimeout_inputs (v : Word) (s : State) : (setTimeout v s).inputs = s.inputs := rfl
@[simp] theorem setTimeout_draws (v : Word) (s : State) : (setTimeout v s).draws = s.draws := rfl
@[simp] theorem setTimeout_epoch (v : Word) (s : State) : (setTimeout v s).epoch = s.epoch := rfl

/-! `setPtLen` (R40). -/

@[simp] theorem setPtLen_engine (v : Word) (s : State) : (setPtLen v s).engine = s.engine := rfl
@[simp] theorem setPtLen_txTerm (v : Word) (s : State) : (setPtLen v s).txTerm = s.txTerm := rfl
@[simp] theorem setPtLen_ie (v : Word) (s : State) : (setPtLen v s).ie = s.ie := rfl
@[simp] theorem setPtLen_done (v : Word) (s : State) : (setPtLen v s).done = s.done := rfl
@[simp] theorem setPtLen_keyLocked (v : Word) (s : State) : (setPtLen v s).keyLocked = s.keyLocked := rfl
@[simp] theorem setPtLen_cmdRejected (v : Word) (s : State) : (setPtLen v s).cmdRejected = s.cmdRejected := rfl
@[simp] theorem setPtLen_rxOvf (v : Word) (s : State) : (setPtLen v s).rxOvf = s.rxOvf := rfl
@[simp] theorem setPtLen_wrIgnored (v : Word) (s : State) : (setPtLen v s).wrIgnored = s.wrIgnored := rfl
@[simp] theorem setPtLen_result (v : Word) (s : State) : (setPtLen v s).result = s.result := rfl
@[simp] theorem setPtLen_lastOp (v : Word) (s : State) : (setPtLen v s).lastOp = s.lastOp := rfl
@[simp] theorem setPtLen_keyWmask (v : Word) (s : State) : (setPtLen v s).keyWmask = s.keyWmask := rfl
@[simp] theorem setPtLen_timeout (v : Word) (s : State) : (setPtLen v s).timeout = s.timeout := rfl
@[simp] theorem setPtLen_mono (v : Word) (s : State) : (setPtLen v s).mono = s.mono := rfl
@[simp] theorem setPtLen_deadline (v : Word) (s : State) : (setPtLen v s).deadline = s.deadline := rfl
@[simp] theorem setPtLen_frameStart (v : Word) (s : State) : (setPtLen v s).frameStart = s.frameStart := rfl
@[simp] theorem setPtLen_frameTo (v : Word) (s : State) : (setPtLen v s).frameTo = s.frameTo := rfl
@[simp] theorem setPtLen_ptLen (v : Word) (s : State) : (setPtLen v s).ptLen = v.setWidth 9 := rfl
@[simp] theorem setPtLen_txLen (v : Word) (s : State) : (setPtLen v s).txLen = s.txLen := rfl
@[simp] theorem setPtLen_rxLen (v : Word) (s : State) : (setPtLen v s).rxLen = s.rxLen := rfl
@[simp] theorem setPtLen_key (v : Word) (s : State) : (setPtLen v s).key = s.key := rfl
@[simp] theorem setPtLen_iv (v : Word) (s : State) : (setPtLen v s).iv = s.iv := rfl
@[simp] theorem setPtLen_mem (v : Word) (s : State) : (setPtLen v s).mem = s.mem := rfl
@[simp] theorem setPtLen_rxFifo (v : Word) (s : State) : (setPtLen v s).rxFifo = s.rxFifo := rfl
@[simp] theorem setPtLen_entropy (v : Word) (s : State) : (setPtLen v s).entropy = s.entropy := rfl
@[simp] theorem setPtLen_irqPin (v : Word) (s : State) : (setPtLen v s).irqPin = s.irqPin := rfl
@[simp] theorem setPtLen_prdata (v : Word) (s : State) : (setPtLen v s).prdata = s.prdata := rfl
@[simp] theorem setPtLen_pslverr (v : Word) (s : State) : (setPtLen v s).pslverr = s.pslverr := rfl
@[simp] theorem setPtLen_inputs (v : Word) (s : State) : (setPtLen v s).inputs = s.inputs := rfl
@[simp] theorem setPtLen_draws (v : Word) (s : State) : (setPtLen v s).draws = s.draws := rfl
@[simp] theorem setPtLen_epoch (v : Word) (s : State) : (setPtLen v s).epoch = s.epoch := rfl

/-! `setRxLen` (R42). -/

@[simp] theorem setRxLen_engine (v : Word) (s : State) : (setRxLen v s).engine = s.engine := rfl
@[simp] theorem setRxLen_txTerm (v : Word) (s : State) : (setRxLen v s).txTerm = s.txTerm := rfl
@[simp] theorem setRxLen_ie (v : Word) (s : State) : (setRxLen v s).ie = s.ie := rfl
@[simp] theorem setRxLen_done (v : Word) (s : State) : (setRxLen v s).done = s.done := rfl
@[simp] theorem setRxLen_keyLocked (v : Word) (s : State) : (setRxLen v s).keyLocked = s.keyLocked := rfl
@[simp] theorem setRxLen_cmdRejected (v : Word) (s : State) : (setRxLen v s).cmdRejected = s.cmdRejected := rfl
@[simp] theorem setRxLen_rxOvf (v : Word) (s : State) : (setRxLen v s).rxOvf = s.rxOvf := rfl
@[simp] theorem setRxLen_wrIgnored (v : Word) (s : State) : (setRxLen v s).wrIgnored = s.wrIgnored := rfl
@[simp] theorem setRxLen_result (v : Word) (s : State) : (setRxLen v s).result = s.result := rfl
@[simp] theorem setRxLen_lastOp (v : Word) (s : State) : (setRxLen v s).lastOp = s.lastOp := rfl
@[simp] theorem setRxLen_keyWmask (v : Word) (s : State) : (setRxLen v s).keyWmask = s.keyWmask := rfl
@[simp] theorem setRxLen_timeout (v : Word) (s : State) : (setRxLen v s).timeout = s.timeout := rfl
@[simp] theorem setRxLen_mono (v : Word) (s : State) : (setRxLen v s).mono = s.mono := rfl
@[simp] theorem setRxLen_deadline (v : Word) (s : State) : (setRxLen v s).deadline = s.deadline := rfl
@[simp] theorem setRxLen_frameStart (v : Word) (s : State) : (setRxLen v s).frameStart = s.frameStart := rfl
@[simp] theorem setRxLen_frameTo (v : Word) (s : State) : (setRxLen v s).frameTo = s.frameTo := rfl
@[simp] theorem setRxLen_ptLen (v : Word) (s : State) : (setRxLen v s).ptLen = s.ptLen := rfl
@[simp] theorem setRxLen_txLen (v : Word) (s : State) : (setRxLen v s).txLen = s.txLen := rfl
@[simp] theorem setRxLen_rxLen (v : Word) (s : State) : (setRxLen v s).rxLen = v.setWidth 10 := rfl
@[simp] theorem setRxLen_key (v : Word) (s : State) : (setRxLen v s).key = s.key := rfl
@[simp] theorem setRxLen_iv (v : Word) (s : State) : (setRxLen v s).iv = s.iv := rfl
@[simp] theorem setRxLen_mem (v : Word) (s : State) : (setRxLen v s).mem = s.mem := rfl
@[simp] theorem setRxLen_rxFifo (v : Word) (s : State) : (setRxLen v s).rxFifo = s.rxFifo := rfl
@[simp] theorem setRxLen_entropy (v : Word) (s : State) : (setRxLen v s).entropy = s.entropy := rfl
@[simp] theorem setRxLen_irqPin (v : Word) (s : State) : (setRxLen v s).irqPin = s.irqPin := rfl
@[simp] theorem setRxLen_prdata (v : Word) (s : State) : (setRxLen v s).prdata = s.prdata := rfl
@[simp] theorem setRxLen_pslverr (v : Word) (s : State) : (setRxLen v s).pslverr = s.pslverr := rfl
@[simp] theorem setRxLen_inputs (v : Word) (s : State) : (setRxLen v s).inputs = s.inputs := rfl
@[simp] theorem setRxLen_draws (v : Word) (s : State) : (setRxLen v s).draws = s.draws := rfl
@[simp] theorem setRxLen_epoch (v : Word) (s : State) : (setRxLen v s).epoch = s.epoch := rfl

/-! `writeBuf` (R46, R48). -/

@[simp] theorem writeBuf_engine (base k : Nat) (v : Word) (s : State) : (writeBuf base k v s).engine = s.engine := rfl
@[simp] theorem writeBuf_txTerm (base k : Nat) (v : Word) (s : State) : (writeBuf base k v s).txTerm = s.txTerm := rfl
@[simp] theorem writeBuf_ie (base k : Nat) (v : Word) (s : State) : (writeBuf base k v s).ie = s.ie := rfl
@[simp] theorem writeBuf_done (base k : Nat) (v : Word) (s : State) : (writeBuf base k v s).done = s.done := rfl
@[simp] theorem writeBuf_keyLocked (base k : Nat) (v : Word) (s : State) : (writeBuf base k v s).keyLocked = s.keyLocked := rfl
@[simp] theorem writeBuf_cmdRejected (base k : Nat) (v : Word) (s : State) : (writeBuf base k v s).cmdRejected = s.cmdRejected := rfl
@[simp] theorem writeBuf_rxOvf (base k : Nat) (v : Word) (s : State) : (writeBuf base k v s).rxOvf = s.rxOvf := rfl
@[simp] theorem writeBuf_wrIgnored (base k : Nat) (v : Word) (s : State) : (writeBuf base k v s).wrIgnored = s.wrIgnored := rfl
@[simp] theorem writeBuf_result (base k : Nat) (v : Word) (s : State) : (writeBuf base k v s).result = s.result := rfl
@[simp] theorem writeBuf_lastOp (base k : Nat) (v : Word) (s : State) : (writeBuf base k v s).lastOp = s.lastOp := rfl
@[simp] theorem writeBuf_keyWmask (base k : Nat) (v : Word) (s : State) : (writeBuf base k v s).keyWmask = s.keyWmask := rfl
@[simp] theorem writeBuf_timeout (base k : Nat) (v : Word) (s : State) : (writeBuf base k v s).timeout = s.timeout := rfl
@[simp] theorem writeBuf_mono (base k : Nat) (v : Word) (s : State) : (writeBuf base k v s).mono = s.mono := rfl
@[simp] theorem writeBuf_deadline (base k : Nat) (v : Word) (s : State) : (writeBuf base k v s).deadline = s.deadline := rfl
@[simp] theorem writeBuf_frameStart (base k : Nat) (v : Word) (s : State) : (writeBuf base k v s).frameStart = s.frameStart := rfl
@[simp] theorem writeBuf_frameTo (base k : Nat) (v : Word) (s : State) : (writeBuf base k v s).frameTo = s.frameTo := rfl
@[simp] theorem writeBuf_ptLen (base k : Nat) (v : Word) (s : State) : (writeBuf base k v s).ptLen = s.ptLen := rfl
@[simp] theorem writeBuf_txLen (base k : Nat) (v : Word) (s : State) : (writeBuf base k v s).txLen = s.txLen := rfl
@[simp] theorem writeBuf_rxLen (base k : Nat) (v : Word) (s : State) : (writeBuf base k v s).rxLen = s.rxLen := rfl
@[simp] theorem writeBuf_key (base k : Nat) (v : Word) (s : State) : (writeBuf base k v s).key = s.key := rfl
@[simp] theorem writeBuf_iv (base k : Nat) (v : Word) (s : State) : (writeBuf base k v s).iv = s.iv := rfl
@[simp] theorem writeBuf_mem (base k : Nat) (v : Word) (s : State) : (writeBuf base k v s).mem = storeBytes s.mem (base + 4 * k) (bytesOfWord v) := rfl
@[simp] theorem writeBuf_rxFifo (base k : Nat) (v : Word) (s : State) : (writeBuf base k v s).rxFifo = s.rxFifo := rfl
@[simp] theorem writeBuf_entropy (base k : Nat) (v : Word) (s : State) : (writeBuf base k v s).entropy = s.entropy := rfl
@[simp] theorem writeBuf_irqPin (base k : Nat) (v : Word) (s : State) : (writeBuf base k v s).irqPin = s.irqPin := rfl
@[simp] theorem writeBuf_prdata (base k : Nat) (v : Word) (s : State) : (writeBuf base k v s).prdata = s.prdata := rfl
@[simp] theorem writeBuf_pslverr (base k : Nat) (v : Word) (s : State) : (writeBuf base k v s).pslverr = s.pslverr := rfl
@[simp] theorem writeBuf_inputs (base k : Nat) (v : Word) (s : State) : (writeBuf base k v s).inputs = s.inputs := rfl
@[simp] theorem writeBuf_draws (base k : Nat) (v : Word) (s : State) : (writeBuf base k v s).draws = s.draws := rfl
@[simp] theorem writeBuf_epoch (base k : Nat) (v : Word) (s : State) : (writeBuf base k v s).epoch = s.epoch := rfl

/-! `answerBus` (R70). -/

@[simp] theorem answerBus_engine (error : Bool) (data : Word) (s : State) : (answerBus error data s).engine = s.engine := rfl
@[simp] theorem answerBus_txTerm (error : Bool) (data : Word) (s : State) : (answerBus error data s).txTerm = s.txTerm := rfl
@[simp] theorem answerBus_ie (error : Bool) (data : Word) (s : State) : (answerBus error data s).ie = s.ie := rfl
@[simp] theorem answerBus_done (error : Bool) (data : Word) (s : State) : (answerBus error data s).done = s.done := rfl
@[simp] theorem answerBus_keyLocked (error : Bool) (data : Word) (s : State) : (answerBus error data s).keyLocked = s.keyLocked := rfl
@[simp] theorem answerBus_cmdRejected (error : Bool) (data : Word) (s : State) : (answerBus error data s).cmdRejected = s.cmdRejected := rfl
@[simp] theorem answerBus_rxOvf (error : Bool) (data : Word) (s : State) : (answerBus error data s).rxOvf = s.rxOvf := rfl
@[simp] theorem answerBus_wrIgnored (error : Bool) (data : Word) (s : State) : (answerBus error data s).wrIgnored = s.wrIgnored := rfl
@[simp] theorem answerBus_result (error : Bool) (data : Word) (s : State) : (answerBus error data s).result = s.result := rfl
@[simp] theorem answerBus_lastOp (error : Bool) (data : Word) (s : State) : (answerBus error data s).lastOp = s.lastOp := rfl
@[simp] theorem answerBus_keyWmask (error : Bool) (data : Word) (s : State) : (answerBus error data s).keyWmask = s.keyWmask := rfl
@[simp] theorem answerBus_timeout (error : Bool) (data : Word) (s : State) : (answerBus error data s).timeout = s.timeout := rfl
@[simp] theorem answerBus_mono (error : Bool) (data : Word) (s : State) : (answerBus error data s).mono = s.mono := rfl
@[simp] theorem answerBus_deadline (error : Bool) (data : Word) (s : State) : (answerBus error data s).deadline = s.deadline := rfl
@[simp] theorem answerBus_frameStart (error : Bool) (data : Word) (s : State) : (answerBus error data s).frameStart = s.frameStart := rfl
@[simp] theorem answerBus_frameTo (error : Bool) (data : Word) (s : State) : (answerBus error data s).frameTo = s.frameTo := rfl
@[simp] theorem answerBus_ptLen (error : Bool) (data : Word) (s : State) : (answerBus error data s).ptLen = s.ptLen := rfl
@[simp] theorem answerBus_txLen (error : Bool) (data : Word) (s : State) : (answerBus error data s).txLen = s.txLen := rfl
@[simp] theorem answerBus_rxLen (error : Bool) (data : Word) (s : State) : (answerBus error data s).rxLen = s.rxLen := rfl
@[simp] theorem answerBus_key (error : Bool) (data : Word) (s : State) : (answerBus error data s).key = s.key := rfl
@[simp] theorem answerBus_iv (error : Bool) (data : Word) (s : State) : (answerBus error data s).iv = s.iv := rfl
@[simp] theorem answerBus_mem (error : Bool) (data : Word) (s : State) : (answerBus error data s).mem = s.mem := rfl
@[simp] theorem answerBus_rxFifo (error : Bool) (data : Word) (s : State) : (answerBus error data s).rxFifo = s.rxFifo := rfl
@[simp] theorem answerBus_entropy (error : Bool) (data : Word) (s : State) : (answerBus error data s).entropy = s.entropy := rfl
@[simp] theorem answerBus_irqPin (error : Bool) (data : Word) (s : State) : (answerBus error data s).irqPin = s.irqPin := rfl
@[simp] theorem answerBus_prdata (error : Bool) (data : Word) (s : State) : (answerBus error data s).prdata = data := rfl
@[simp] theorem answerBus_pslverr (error : Bool) (data : Word) (s : State) : (answerBus error data s).pslverr = error := rfl
@[simp] theorem answerBus_inputs (error : Bool) (data : Word) (s : State) : (answerBus error data s).inputs = s.inputs := rfl
@[simp] theorem answerBus_draws (error : Bool) (data : Word) (s : State) : (answerBus error data s).draws = s.draws := rfl
@[simp] theorem answerBus_epoch (error : Bool) (data : Word) (s : State) : (answerBus error data s).epoch = s.epoch := rfl

/-! `setEntropy` (R176). -/

@[simp] theorem setEntropy_engine (p : EntropyPort) (s : State) : (setEntropy p s).engine = s.engine := rfl
@[simp] theorem setEntropy_txTerm (p : EntropyPort) (s : State) : (setEntropy p s).txTerm = s.txTerm := rfl
@[simp] theorem setEntropy_ie (p : EntropyPort) (s : State) : (setEntropy p s).ie = s.ie := rfl
@[simp] theorem setEntropy_done (p : EntropyPort) (s : State) : (setEntropy p s).done = s.done := rfl
@[simp] theorem setEntropy_keyLocked (p : EntropyPort) (s : State) : (setEntropy p s).keyLocked = s.keyLocked := rfl
@[simp] theorem setEntropy_cmdRejected (p : EntropyPort) (s : State) : (setEntropy p s).cmdRejected = s.cmdRejected := rfl
@[simp] theorem setEntropy_rxOvf (p : EntropyPort) (s : State) : (setEntropy p s).rxOvf = s.rxOvf := rfl
@[simp] theorem setEntropy_wrIgnored (p : EntropyPort) (s : State) : (setEntropy p s).wrIgnored = s.wrIgnored := rfl
@[simp] theorem setEntropy_result (p : EntropyPort) (s : State) : (setEntropy p s).result = s.result := rfl
@[simp] theorem setEntropy_lastOp (p : EntropyPort) (s : State) : (setEntropy p s).lastOp = s.lastOp := rfl
@[simp] theorem setEntropy_keyWmask (p : EntropyPort) (s : State) : (setEntropy p s).keyWmask = s.keyWmask := rfl
@[simp] theorem setEntropy_timeout (p : EntropyPort) (s : State) : (setEntropy p s).timeout = s.timeout := rfl
@[simp] theorem setEntropy_mono (p : EntropyPort) (s : State) : (setEntropy p s).mono = s.mono := rfl
@[simp] theorem setEntropy_deadline (p : EntropyPort) (s : State) : (setEntropy p s).deadline = s.deadline := rfl
@[simp] theorem setEntropy_frameStart (p : EntropyPort) (s : State) : (setEntropy p s).frameStart = s.frameStart := rfl
@[simp] theorem setEntropy_frameTo (p : EntropyPort) (s : State) : (setEntropy p s).frameTo = s.frameTo := rfl
@[simp] theorem setEntropy_ptLen (p : EntropyPort) (s : State) : (setEntropy p s).ptLen = s.ptLen := rfl
@[simp] theorem setEntropy_txLen (p : EntropyPort) (s : State) : (setEntropy p s).txLen = s.txLen := rfl
@[simp] theorem setEntropy_rxLen (p : EntropyPort) (s : State) : (setEntropy p s).rxLen = s.rxLen := rfl
@[simp] theorem setEntropy_key (p : EntropyPort) (s : State) : (setEntropy p s).key = s.key := rfl
@[simp] theorem setEntropy_iv (p : EntropyPort) (s : State) : (setEntropy p s).iv = s.iv := rfl
@[simp] theorem setEntropy_mem (p : EntropyPort) (s : State) : (setEntropy p s).mem = s.mem := rfl
@[simp] theorem setEntropy_rxFifo (p : EntropyPort) (s : State) : (setEntropy p s).rxFifo = s.rxFifo := rfl
@[simp] theorem setEntropy_entropy (p : EntropyPort) (s : State) : (setEntropy p s).entropy = p := rfl
@[simp] theorem setEntropy_irqPin (p : EntropyPort) (s : State) : (setEntropy p s).irqPin = s.irqPin := rfl
@[simp] theorem setEntropy_prdata (p : EntropyPort) (s : State) : (setEntropy p s).prdata = s.prdata := rfl
@[simp] theorem setEntropy_pslverr (p : EntropyPort) (s : State) : (setEntropy p s).pslverr = s.pslverr := rfl
@[simp] theorem setEntropy_inputs (p : EntropyPort) (s : State) : (setEntropy p s).inputs = s.inputs := rfl
@[simp] theorem setEntropy_draws (p : EntropyPort) (s : State) : (setEntropy p s).draws = s.draws := rfl
@[simp] theorem setEntropy_epoch (p : EntropyPort) (s : State) : (setEntropy p s).epoch = s.epoch := rfl

/-! `showIrq` (R248). -/

@[simp] theorem showIrq_engine (pin : Bool) (s : State) : (showIrq pin s).engine = s.engine := rfl
@[simp] theorem showIrq_txTerm (pin : Bool) (s : State) : (showIrq pin s).txTerm = s.txTerm := rfl
@[simp] theorem showIrq_ie (pin : Bool) (s : State) : (showIrq pin s).ie = s.ie := rfl
@[simp] theorem showIrq_done (pin : Bool) (s : State) : (showIrq pin s).done = s.done := rfl
@[simp] theorem showIrq_keyLocked (pin : Bool) (s : State) : (showIrq pin s).keyLocked = s.keyLocked := rfl
@[simp] theorem showIrq_cmdRejected (pin : Bool) (s : State) : (showIrq pin s).cmdRejected = s.cmdRejected := rfl
@[simp] theorem showIrq_rxOvf (pin : Bool) (s : State) : (showIrq pin s).rxOvf = s.rxOvf := rfl
@[simp] theorem showIrq_wrIgnored (pin : Bool) (s : State) : (showIrq pin s).wrIgnored = s.wrIgnored := rfl
@[simp] theorem showIrq_result (pin : Bool) (s : State) : (showIrq pin s).result = s.result := rfl
@[simp] theorem showIrq_lastOp (pin : Bool) (s : State) : (showIrq pin s).lastOp = s.lastOp := rfl
@[simp] theorem showIrq_keyWmask (pin : Bool) (s : State) : (showIrq pin s).keyWmask = s.keyWmask := rfl
@[simp] theorem showIrq_timeout (pin : Bool) (s : State) : (showIrq pin s).timeout = s.timeout := rfl
@[simp] theorem showIrq_mono (pin : Bool) (s : State) : (showIrq pin s).mono = s.mono := rfl
@[simp] theorem showIrq_deadline (pin : Bool) (s : State) : (showIrq pin s).deadline = s.deadline := rfl
@[simp] theorem showIrq_frameStart (pin : Bool) (s : State) : (showIrq pin s).frameStart = s.frameStart := rfl
@[simp] theorem showIrq_frameTo (pin : Bool) (s : State) : (showIrq pin s).frameTo = s.frameTo := rfl
@[simp] theorem showIrq_ptLen (pin : Bool) (s : State) : (showIrq pin s).ptLen = s.ptLen := rfl
@[simp] theorem showIrq_txLen (pin : Bool) (s : State) : (showIrq pin s).txLen = s.txLen := rfl
@[simp] theorem showIrq_rxLen (pin : Bool) (s : State) : (showIrq pin s).rxLen = s.rxLen := rfl
@[simp] theorem showIrq_key (pin : Bool) (s : State) : (showIrq pin s).key = s.key := rfl
@[simp] theorem showIrq_iv (pin : Bool) (s : State) : (showIrq pin s).iv = s.iv := rfl
@[simp] theorem showIrq_mem (pin : Bool) (s : State) : (showIrq pin s).mem = s.mem := rfl
@[simp] theorem showIrq_rxFifo (pin : Bool) (s : State) : (showIrq pin s).rxFifo = s.rxFifo := rfl
@[simp] theorem showIrq_entropy (pin : Bool) (s : State) : (showIrq pin s).entropy = s.entropy := rfl
@[simp] theorem showIrq_irqPin (pin : Bool) (s : State) : (showIrq pin s).irqPin = pin := rfl
@[simp] theorem showIrq_prdata (pin : Bool) (s : State) : (showIrq pin s).prdata = s.prdata := rfl
@[simp] theorem showIrq_pslverr (pin : Bool) (s : State) : (showIrq pin s).pslverr = s.pslverr := rfl
@[simp] theorem showIrq_inputs (pin : Bool) (s : State) : (showIrq pin s).inputs = s.inputs := rfl
@[simp] theorem showIrq_draws (pin : Bool) (s : State) : (showIrq pin s).draws = s.draws := rfl
@[simp] theorem showIrq_epoch (pin : Bool) (s : State) : (showIrq pin s).epoch = s.epoch := rfl

/-! `resetState` (R270). -/

@[simp] theorem resetState_engine (s : State) : (resetState s).engine = State.reset.engine := rfl
@[simp] theorem resetState_txTerm (s : State) : (resetState s).txTerm = State.reset.txTerm := rfl
@[simp] theorem resetState_ie (s : State) : (resetState s).ie = State.reset.ie := rfl
@[simp] theorem resetState_done (s : State) : (resetState s).done = State.reset.done := rfl
@[simp] theorem resetState_keyLocked (s : State) : (resetState s).keyLocked = State.reset.keyLocked := rfl
@[simp] theorem resetState_cmdRejected (s : State) : (resetState s).cmdRejected = State.reset.cmdRejected := rfl
@[simp] theorem resetState_rxOvf (s : State) : (resetState s).rxOvf = State.reset.rxOvf := rfl
@[simp] theorem resetState_wrIgnored (s : State) : (resetState s).wrIgnored = State.reset.wrIgnored := rfl
@[simp] theorem resetState_result (s : State) : (resetState s).result = State.reset.result := rfl
@[simp] theorem resetState_lastOp (s : State) : (resetState s).lastOp = State.reset.lastOp := rfl
@[simp] theorem resetState_keyWmask (s : State) : (resetState s).keyWmask = State.reset.keyWmask := rfl
@[simp] theorem resetState_timeout (s : State) : (resetState s).timeout = State.reset.timeout := rfl
@[simp] theorem resetState_mono (s : State) : (resetState s).mono = State.reset.mono := rfl
@[simp] theorem resetState_deadline (s : State) : (resetState s).deadline = State.reset.deadline := rfl
@[simp] theorem resetState_frameStart (s : State) : (resetState s).frameStart = State.reset.frameStart := rfl
@[simp] theorem resetState_frameTo (s : State) : (resetState s).frameTo = State.reset.frameTo := rfl
@[simp] theorem resetState_ptLen (s : State) : (resetState s).ptLen = State.reset.ptLen := rfl
@[simp] theorem resetState_txLen (s : State) : (resetState s).txLen = State.reset.txLen := rfl
@[simp] theorem resetState_rxLen (s : State) : (resetState s).rxLen = State.reset.rxLen := rfl
@[simp] theorem resetState_key (s : State) : (resetState s).key = State.reset.key := rfl
@[simp] theorem resetState_iv (s : State) : (resetState s).iv = State.reset.iv := rfl
@[simp] theorem resetState_mem (s : State) : (resetState s).mem = State.reset.mem := rfl
@[simp] theorem resetState_rxFifo (s : State) : (resetState s).rxFifo = State.reset.rxFifo := rfl
@[simp] theorem resetState_entropy (s : State) : (resetState s).entropy = State.reset.entropy := rfl
@[simp] theorem resetState_irqPin (s : State) : (resetState s).irqPin = State.reset.irqPin := rfl
@[simp] theorem resetState_prdata (s : State) : (resetState s).prdata = State.reset.prdata := rfl
@[simp] theorem resetState_pslverr (s : State) : (resetState s).pslverr = State.reset.pslverr := rfl
@[simp] theorem resetState_inputs (s : State) : (resetState s).inputs = s.inputs := rfl
@[simp] theorem resetState_draws (s : State) : (resetState s).draws = s.draws := rfl
@[simp] theorem resetState_epoch (s : State) : (resetState s).epoch = s.epoch + 1 := rfl

end Sys2Proof.Machine
end

