-- ==== Sys2Proof/Laws/Commands.lean ====
section
/-!
SUPPORT. What the shared operations over commands and events can do: one lemma per operation, for proofs to cite.
-/
namespace Sys2Proof.Machine

theorem busy_eq_false {s : State} : s.busy = false ↔ s.engine = .idle := by
  simp [State.busy]

theorem busy_eq_true {s : State} : s.busy = true ↔ s.engine ≠ .idle := by
  simp [State.busy]

@[simp] theorem finish_busy (code : ResultCode) (s : State) : (finish code s).busy = false := rfl

/-- What a command's acceptance does after the common part: the body of each meaning. -/
def commandBody : Instr → State → State
  | .encrypt => encryptBody
  | .decrypt src => decryptBody src
  | .frameRecv => frameRecvBody
  | .frameRaw => frameAccept .raw
  | .rxFlush => rxFlushBody
  | .keyLock => keyLockBody

/-- Every command's meaning is an acceptance (R101, R77). -/
theorem exec_eq (i : Instr) (s : State) : exec i s = .next (accept (opcodeOf i) (commandBody i) s) := by
  cases i <;> rfl

/-- While busy a command is rejected (R77). -/
theorem exec_busy (i : Instr) {s : State} (h : s.busy = true) : exec i s = .next (rejectCommand s) := by
  rw [exec_eq, accept, h]; rfl

/-- While not busy a command's body runs after the common part (R101). -/
theorem exec_idle (i : Instr) {s : State} (h : s.busy = false) :
    exec i s = .next (commandBody i (beginCommand (opcodeOf i) s)) := by
  rw [exec_eq, accept, h]; rfl

theorem guardedWrite_busy (f : State → State) {s : State} (h : s.busy = true) : guardedWrite f s = dropWrite s := by
  rw [guardedWrite, h]; rfl

theorem guardedWrite_idle (f : State → State) {s : State} (h : s.busy = false) : guardedWrite f s = f s := by
  rw [guardedWrite, h]; rfl

/-- A supported access in numbers (R72). -/
theorem supported_iff (a : Access) : supported a = true ↔ a.addr.toNat % 4 = 0 ∧ a.strb = 0b1111 := by
  have h : a.addr.extractLsb' 0 2 = 0 ↔ a.addr.toNat % 4 = 0 := by
    constructor
    · intro h1; simpa [BitVec.extractLsb'_toNat] using congrArg BitVec.toNat h1
    · intro h1; apply BitVec.eq_of_toNat_eq; simpa [BitVec.extractLsb'_toNat] using h1
  simp only [supported, Bool.and_eq_true, beq_iff_eq, h]

theorem supported_word {off : Offset} (h : off.toNat % 4 = 0) : supported (wordAccess off) = true :=
  (supported_iff _).2 ⟨h, rfl⟩

/-- A read of an aligned word. -/
theorem run_read {off : Offset} (h : off.toNat % 4 = 0) (s : State) :
    runEvent (.memRead (wordAccess off)) s = .next (readReg (regOf off) s) := by
  simp only [runEvent, hostRead, supported_word h, if_true]; rfl

/-- A write of an aligned word. -/
theorem run_write {off : Offset} (h : off.toNat % 4 = 0) (v : Word) (s : State) :
    runEvent (.memWrite (wordAccess off) v) s = writeReg (regOf off) v s := by
  simp only [runEvent, hostWrite, supported_word h, if_true]; rfl

/-- The host's write of a word to `CMD`. -/
theorem run_cmdWrite (w : Word) (s : State) : runEvent (cmdWriteEvent w) s = writeCmd w s :=
  run_write (off := cmdOffset) (by decide) w s

/-- A read that is not open returns the current value and changes `prdata` only (R78, R80). -/
theorem readReg_closed {r : Reg} {s : State} (h : readOpen s r = false) :
    readReg r s = { s with prdata := currentWord s r } := by
  simp [readReg, readWord, h]

/-- While idle no read is open (R78). -/
theorem readOpen_idle {s : State} (h : s.busy = false) (r : Reg) : readOpen s r = false := by
  rw [busy_eq_false] at h; simp only [readOpen, h]

/-- The registers no command writes as an output are never open (R78). -/
theorem readOpen_control (s : State) {r : Reg} (h1 : plaintextOutput r = false) (h2 : envelopeOutput r = false)
    (h3 : unreceived s r = false) : readOpen s r = false := by
  simp only [readOpen, h1, h2, h3]
  split <;> rfl

theorem currentWord_prdata (r : Reg) (s : State) (v : Word) :
    currentWord { s with prdata := v } r = currentWord s r := by cases r <;> rfl

/-- Every command answers a next state, in every state. -/
theorem exec_next (i : Instr) (s : State) : ∃ t, exec i s = .next t := ⟨_, exec_eq i s⟩

theorem writeCmd_next (v : Word) (s : State) : ∃ t, writeCmd v s = .next t := by
  simp only [writeCmd]; split
  · exact exec_next _ s
  · exact ⟨_, rfl⟩

/-- Every register write answers a next state. -/
theorem writeReg_next (r : Reg) (v : Word) (s : State) : ∃ t, writeReg r v s = .next t := by
  cases r <;> first | exact ⟨_, rfl⟩ | exact writeCmd_next v s

/-- The host's part of a cycle answers a next state. -/
theorem busPhase_next (c : ClockIn) (s : State) : ∃ t, busPhase c s = .next t := by
  simp only [busPhase]
  repeat' split
  all_goals first | exact ⟨_, rfl⟩ | exact writeReg_next _ _ _

/-- A cycle without an access only quiets the bus. -/
theorem busPhase_quiet {c : ClockIn} (h : c.psel = false) (s : State) :
    busPhase c s = .next (answerBus false s.prdata s) := by
  simp [busPhase, h]

/-- A cycle out of reset, in terms of its host part. -/
theorem clockCycle_of_bus {c : ClockIn} {s t : State} (hr : c.rstN = true) (h : busPhase c s = .next t) :
    clockCycle c s = .next (showIrq (irq s) (tickPhase c (rxPhase c (enginePhase c s.engine t)))) := by
  simp only [clockCycle, hr, if_true, h]

/-- A cycle out of reset is a host part followed by the Engine, the RX line and the tick. -/
theorem clockCycle_inv {c : ClockIn} {s u : State} (hr : c.rstN = true) (h : clockCycle c s = .next u) :
    ∃ t, busPhase c s = .next t ∧ u = showIrq (irq s) (tickPhase c (rxPhase c (enginePhase c s.engine t))) := by
  obtain ⟨t, ht⟩ := busPhase_next c s
  rw [clockCycle_of_bus hr ht] at h
  exact ⟨t, ht, by injection h with h; exact h.symm⟩

/-- The views that read the key, the lengths and the buffers depend on those fields only. -/
theorem keyString_congr {s t : State} (h : s.key = t.key) : keyString s = keyString t := by
  simp only [keyString, h]

theorem readByte_congr {s t : State} (hm : s.mem = t.mem) (he : s.epoch = t.epoch) (off : Nat) :
    readByte s off = readByte t off := by simp only [readByte, hm, he]

theorem readBytes_congr {s t : State} (hm : s.mem = t.mem) (he : s.epoch = t.epoch) (base n : Nat) :
    readBytes s base n = readBytes t base n := by simp only [readBytes, readByte_congr hm he]

theorem ptText_congr {s t : State} (hm : s.mem = t.mem) (he : s.epoch = t.epoch) (hl : s.ptLen = t.ptLen) :
    ptText s = ptText t := by simp only [ptText, readBytes_congr hm he, hl]

theorem txText_congr {s t : State} (hm : s.mem = t.mem) (he : s.epoch = t.epoch) (hl : s.txLen = t.txLen) :
    txText s = txText t := by simp only [txText, readBytes_congr hm he, hl]

theorem rxText_congr {s t : State} (hm : s.mem = t.mem) (he : s.epoch = t.epoch) (hl : s.rxLen = t.rxLen) :
    rxText s = rxText t := by simp only [rxText, readBytes_congr hm he, hl]

@[simp] theorem readBytes_length (s : State) (base n : Nat) : (readBytes s base n).length = n := by
  simp [readBytes]

/-- One more byte read is one more byte at the end. -/
theorem readBytes_succ (s : State) (base n : Nat) :
    readBytes s base (n + 1) = readBytes s base n ++ [readByte s (base + n)] := by
  simp [readBytes, List.range_succ]

/-- A text read is unchanged by a change elsewhere. -/
theorem readBytes_of_eq {s t : State} {base n : Nat} (h : ∀ i, i < n → readByte s (base + i) = readByte t (base + i)) :
    readBytes s base n = readBytes t base n := by
  simp only [readBytes]; exact List.map_congr_left (fun i hi => h i (List.mem_range.1 hi))

/-- The received text after a byte is taken (R206). -/
theorem rxText_takeByte (b : Byte) (rest : Bytes) (s : State) (h : s.rxLen.toNat < Config.rxCap) :
    rxText (takeByte b rest s) = rxText s ++ [b] := by
  have hn : (s.rxLen + 1).toNat = s.rxLen.toNat + 1 := by
    simp only [Config.rxCap] at h; simp only [BitVec.toNat_add]; simp; omega
  rw [rxText, takeByte_rxLen, hn, readBytes_succ]
  congr 1
  · exact readBytes_of_eq fun i hi => loadByte_storeByte_ne _ _ _ (by omega)
  · simp only [readByte, takeByte_mem, takeByte_epoch]
    rw [loadByte_storeByte_same _ _ _ _ (isStorage_rx h)]

end Sys2Proof.Machine
end

