-- ==== Sys2Proof/Laws/Envelope.lean ====
section
/-!
SUPPORT. Lengths of the byte-string functions, blocks and strings as each other's views, and single hex digits.
-/
namespace Sys2Proof.Machine

@[simp] theorem colBytes_length (c : Col) : (colBytes c).length = 4 := rfl

@[simp] theorem blockBytes_length (b : Block) : (blockBytes b).length = 16 := rfl

/-- A block's bytes make that block. -/
theorem blockOfBytes_blockBytes (b : Block) : blockOfBytes (blockBytes b) = b := rfl

/-- Sixteen bytes are the bytes of their block. -/
theorem blockBytes_blockOfBytes (s : Bytes) (h : s.length = 16) : blockBytes (blockOfBytes s) = s := by
  match s, h with
  | [_, _, _, _, _, _, _, _, _, _, _, _, _, _, _, _], _ => rfl

@[simp] theorem takeBlocks_length (m : Nat) (p : Bytes) : (takeBlocks m p).length = m := by
  induction m generalizing p with
  | zero => rfl
  | succ m ih => simp [takeBlocks, ih]

@[simp] theorem joinBlocks_length (bs : List Block) : (joinBlocks bs).length = 16 * bs.length := by
  induction bs with
  | nil => rfl
  | cons b bs ih => simp only [joinBlocks, List.flatMap_cons, List.length_append, blockBytes_length, List.length_cons] at *; omega

/-- Blocks joined and taken apart again. -/
theorem takeBlocks_joinBlocks (bs : List Block) : takeBlocks bs.length (joinBlocks bs) = bs := by
  induction bs with
  | nil => rfl
  | cons b bs ih =>
    simp only [joinBlocks, List.flatMap_cons, List.length_cons, takeBlocks] at *
    rw [List.take_left' (blockBytes_length b), List.drop_left' (blockBytes_length b), ih, blockOfBytes_blockBytes]

/-- A whole number of blocks taken apart and joined again. -/
theorem joinBlocks_takeBlocks (m : Nat) (p : Bytes) (h : p.length = 16 * m) : joinBlocks (takeBlocks m p) = p := by
  induction m generalizing p with
  | zero => simp only [takeBlocks, joinBlocks, List.flatMap_nil]; exact (List.length_eq_zero_iff.1 (by omega)).symm
  | succ m ih =>
    simp only [takeBlocks, joinBlocks, List.flatMap_cons] at *
    rw [blockBytes_blockOfBytes _ (by rw [List.length_take]; omega), ih _ (by rw [List.length_drop]; omega),
      List.take_append_drop]

@[simp] theorem cbcEncBlocks_length (w : List Col) (prev : Block) (ps : List Block) :
    (cbcEncBlocks w prev ps).length = ps.length := by
  induction ps generalizing prev with
  | nil => rfl
  | cons p ps ih => simp [cbcEncBlocks, ih]

@[simp] theorem cbcDecBlocks_length (w : List Col) (prev : Block) (cs : List Block) :
    (cbcDecBlocks w prev cs).length = cs.length := by
  induction cs generalizing prev with
  | nil => rfl
  | cons c cs ih => simp [cbcDecBlocks, ih]

/-- CBC keeps the length of a whole number of blocks (R142). -/
theorem cbcEnc_length (key iv p : Bytes) : (cbcEnc key iv p).length = 16 * (p.length / 16) := by simp [cbcEnc]

theorem cbcDec_length (key iv c : Bytes) : (cbcDec key iv c).length = 16 * (c.length / 16) := by simp [cbcDec]

theorem padLength_bounds (n : Nat) : 1 ≤ padLength n ∧ padLength n ≤ 16 := by
  simp only [padLength]; omega

/-- The padded length (R145). -/
theorem pad_length (p : Bytes) : (pad p).length = 16 * (p.length / 16 + 1) := by
  simp only [pad, List.length_append, List.length_replicate, padLength]; omega

@[simp] theorem hexEnc_length (s : Bytes) : (hexEnc s).length = 2 * s.length := by
  induction s with
  | nil => rfl
  | cons b s ih => simp only [hexEnc, List.flatMap_cons, List.length_append, List.length_cons, List.length_nil] at *; omega

/-- The length of an envelope's text (R172). -/
theorem envelopeEncrypt_length (key iv p : Bytes) (term : Bool) :
    (envelopeEncrypt key iv p term).length = 2 * iv.length + 32 * (p.length / 16 + 1) + 2 * term.toNat := by
  have hc : (cbcEnc key iv (pad p)).length = 16 * (p.length / 16 + 1) := by
    rw [cbcEnc_length, pad_length]; omega
  cases term <;> simp [envelopeEncrypt, terminator, hc] <;> omega

/-- The value of a digit is its nibble (R147, R148). -/
theorem hexVal_hexDigit_high (b : Byte) : hexVal (hexDigit (b >>> 4)) = some (b >>> 4) := by
  revert b; decide +kernel

theorem hexVal_hexDigit_low (b : Byte) : hexVal (hexDigit (b &&& 0x0F)) = some (b &&& 0x0F) := by
  revert b; decide +kernel

/-- A byte is its two nibbles (R150). -/
theorem byte_of_nibbles (b : Byte) : 16 * (b >>> 4) + (b &&& 0x0F) = b := by
  revert b; decide +kernel

/-- A decoded text has half the length (R150). -/
theorem hexDec_length : ∀ {t e : Bytes}, hexDec t = some e → t.length = 2 * e.length
  | [], e, h => by simp [hexDec] at h; subst h; rfl
  | [_], e, h => by simp [hexDec] at h
  | hi :: lo :: rest, e, h => by
    simp only [hexDec] at h
    split at h
    · rename_i h1 h2 s h3
      injection h with h; subst h
      have := hexDec_length h3
      simp only [List.length_cons]; omega
    · cases h

/-- A plaintext is shorter than what was decrypted, by the pad length (R146). -/
theorem unpad_length {d p : Bytes} (h : unpad d = some p) : p.length < d.length := by
  simp only [unpad] at h
  split at h
  · cases h
  · split at h
    · cases h
    · injection h with h; subst h; rw [List.length_take]; omega

theorem stripTerm_length (s : Bytes) : (stripTerm s).length ≤ s.length := by
  simp only [stripTerm]; split
  · simp
  · exact Nat.le_refl _

/-- What a successful decryption is made of (R181). -/
theorem envelopeDecrypt_ok {key s p iv : Bytes} (h : envelopeDecrypt key s = .ok p iv) :
    ∃ e, hexDec (stripTerm s) = some e ∧ 32 ≤ (stripTerm s).length ∧ iv = e.take 16 ∧ (e.drop 16).length % 16 = 0 ∧
      (e.drop 16).length ≠ 0 ∧ unpad (cbcDec key iv (e.drop 16)) = some p := by
  simp only [envelopeDecrypt] at h
  split at h
  · cases h
  · split at h
    · cases h
    · rename_i e he
      split at h
      · cases h
      · split at h
        · cases h
        · split at h
          · cases h
          · rename_i h1 _ h2 h3 _ p' hp
            injection h with h4 h5; subst h4; subst h5
            exact ⟨e, he, by omega, rfl, by omega, h3, hp⟩

/-- A failed decryption has one of two codes (R181). -/
theorem envelopeDecrypt_fail {key s : Bytes} {code : ResultCode} (h : envelopeDecrypt key s = .fail code) :
    code = .malformedEnvelope ∨ code = .invalidPadding := by
  simp only [envelopeDecrypt] at h
  repeat' split at h
  all_goals first | (injection h with h; subst h; simp; done) | cases h

/-- The lengths a successful decryption gives: the IV has 16 bytes, and the plaintext is at least 33 bytes shorter than half
its text (R181). -/
theorem envelopeDecrypt_lengths {key s p iv : Bytes} (h : envelopeDecrypt key s = .ok p iv) :
    iv.length = 16 ∧ 2 * p.length + 34 ≤ s.length ∧ 32 * (p.length / 16) + 64 ≤ s.length := by
  obtain ⟨e, he, hl, rfl, hm, hn, hp⟩ := envelopeDecrypt_ok h
  have h1 := hexDec_length he
  have h2 := unpad_length hp
  have h3 := stripTerm_length s
  rw [cbcDec_length] at h2
  simp only [List.length_drop, List.length_take] at *
  omega

/-- A string ends with the terminator exactly when its last two bytes are 0D 0A (R151). -/
theorem endsWithTerm_iff (s : Bytes) : endsWithTerm s = true ↔ ∃ t, s = t ++ [0x0D, 0x0A] := by
  rcases List.eq_nil_or_concat s with rfl | ⟨s1, y, rfl⟩
  · exact ⟨fun h => by simp [endsWithTerm] at h, fun ⟨t, h⟩ => by simp at h⟩
  · rcases List.eq_nil_or_concat s1 with rfl | ⟨s2, x, rfl⟩
    · exact ⟨fun h => by simp [endsWithTerm] at h, fun ⟨t, h⟩ => by have := congrArg List.length h; simp at this⟩
    · simp only [endsWithTerm, byteAt, List.concat_eq_append, List.append_assoc, List.cons_append, List.nil_append,
        List.length_append, List.length_cons, List.length_nil]
      have h1 : (s2 ++ [x, y]).getD (s2.length + (0 + 1 + 1) - 2) 0 = x := by
        rw [show s2.length + (0 + 1 + 1) - 2 = s2.length by omega]; simp
      have h2 : (s2 ++ [x, y]).getD (s2.length + (0 + 1 + 1) - 1) 0 = y := by
        rw [show s2.length + (0 + 1 + 1) - 1 = s2.length + 1 by omega]; simp
      rw [h1, h2]
      constructor
      · intro h; simp at h; exact ⟨s2, by rw [h.1, h.2]; rfl⟩
      · rintro ⟨t, h⟩; have := List.append_inj' h rfl; simp at this; simp [this]

end Sys2Proof.Machine
end

