-- ==== Sys2Proof/Laws/Frames.lean ====
section
/-!
SUPPORT. What each shared operation leaves unchanged: an operation's result is its argument with the named fields replaced,
so that every other field is the argument's.
-/
namespace Sys2Proof.Machine

/-- A decryption's end writes the plaintext, its length, the IV and the completion (R183, R208). -/
theorem finishDecrypt_frame (r : EnvelopeResult) (s : State) :
    finishDecrypt r s = { s with
      engine := .idle, done := true, result := (finishDecrypt r s).result, ptLen := (finishDecrypt r s).ptLen,
      iv := (finishDecrypt r s).iv, mem := (finishDecrypt r s).mem } := by
  cases r <;> rfl

/-- ENCRYPT's completion writes the envelope, its length, the IV and the completion (R177). -/
theorem encryptComplete_frame (e : Option (BitVec 128)) (s : State) :
    encryptComplete e s = { s with
      engine := .idle, done := true, result := (encryptComplete e s).result, txLen := (encryptComplete e s).txLen,
      iv := (encryptComplete e s).iv, mem := (encryptComplete e s).mem, entropy := .idle } := by
  cases e <;> rfl

/-- What follows a stored byte writes what a decryption does, and the engine state (R206, R208). -/
theorem afterByte_frame (mode : FrameMode) (s : State) :
    afterByte mode s = { s with
      engine := (afterByte mode s).engine, done := (afterByte mode s).done, result := (afterByte mode s).result,
      ptLen := (afterByte mode s).ptLen, iv := (afterByte mode s).iv, mem := (afterByte mode s).mem } := by
  unfold afterByte
  split
  · cases mode
    · rw [completeFrame, finishDecrypt_frame]
    · rfl
  · split <;> rfl

/-- A frame byte step also writes the FIFO and `RX_LEN` (R206). -/
theorem frameByte_frame (mode : FrameMode) (s : State) :
    frameByte mode s = { s with
      engine := (frameByte mode s).engine, done := (frameByte mode s).done, result := (frameByte mode s).result,
      ptLen := (frameByte mode s).ptLen, iv := (frameByte mode s).iv, mem := (frameByte mode s).mem,
      rxFifo := (frameByte mode s).rxFifo, rxLen := (frameByte mode s).rxLen } := by
  unfold frameByte
  split
  · rfl
  · rw [afterByte_frame]; rfl

/-- What an Engine step may write. -/
theorem engineStep_frame (e : Option (BitVec 128)) (s : State) :
    engineStep e s = { s with
      engine := (engineStep e s).engine, done := (engineStep e s).done, result := (engineStep e s).result,
      ptLen := (engineStep e s).ptLen, txLen := (engineStep e s).txLen, iv := (engineStep e s).iv,
      mem := (engineStep e s).mem, rxFifo := (engineStep e s).rxFifo, rxLen := (engineStep e s).rxLen,
      entropy := (engineStep e s).entropy } := by
  unfold engineStep
  split
  · rfl
  · rw [encryptComplete_frame]
  · rw [decryptComplete, finishDecrypt_frame]
  · rw [frameByte_frame]

/-- A request writes the handshake only (R176). -/
theorem requestEntropy_frame (c : ClockIn) (s : State) :
    requestEntropy c s = { s with entropy := (requestEntropy c s).entropy } := by
  unfold requestEntropy; split <;> rfl

/-- A draw made writes what ENCRYPT's completion does (R176, R177). -/
theorem takeDraw_frame (c : ClockIn) (d : Option (BitVec 128)) (s : State) :
    takeDraw c d s = { s with
      engine := (takeDraw c d s).engine, done := (takeDraw c d s).done, result := (takeDraw c d s).result,
      txLen := (takeDraw c d s).txLen, iv := (takeDraw c d s).iv, mem := (takeDraw c d s).mem,
      entropy := (takeDraw c d s).entropy } := by
  unfold takeDraw; split
  · rw [encryptComplete_frame]
  · rfl

/-- A cycle of the entropy handshake is a request, a draw made, or one more cycle of waiting (R176). -/
theorem entropyCycle_cases (P : State → Prop) (c : ClockIn) (s : State) (hr : P (requestEntropy c s))
    (hd : ∀ d, P (takeDraw c d s)) (hw : ∀ n, s.entropy = .waiting n → n + 1 < Config.entWaitMax →
      P (setEntropy (.waiting (n + 1)) s)) : P (entropyCycle c s) := by
  unfold entropyCycle
  split
  · exact hr
  · rename_i n hn
    repeat' split
    · exact hd _
    · exact hd _
    · exact hw n hn ‹_›
    · exact hd _
  · exact hd _

theorem entropyCycle_frame (c : ClockIn) (s : State) :
    entropyCycle c s = { s with
      engine := (entropyCycle c s).engine, done := (entropyCycle c s).done, result := (entropyCycle c s).result,
      txLen := (entropyCycle c s).txLen, iv := (entropyCycle c s).iv, mem := (entropyCycle c s).mem,
      entropy := (entropyCycle c s).entropy } := by
  refine entropyCycle_cases (fun t => t = { s with
    engine := t.engine, done := t.done, result := t.result, txLen := t.txLen, iv := t.iv, mem := t.mem,
    entropy := t.entropy }) c s ?_ (fun d => takeDraw_frame c d s) (fun _ _ _ => rfl)
  rw [requestEntropy_frame]

/-- What the Engine's part of a cycle may write. -/
theorem enginePhase_frame (c : ClockIn) (a : EngineState) (s : State) :
    enginePhase c a s = { s with
      engine := (enginePhase c a s).engine, done := (enginePhase c a s).done, result := (enginePhase c a s).result,
      ptLen := (enginePhase c a s).ptLen, txLen := (enginePhase c a s).txLen, iv := (enginePhase c a s).iv,
      mem := (enginePhase c a s).mem, rxFifo := (enginePhase c a s).rxFifo, rxLen := (enginePhase c a s).rxLen,
      entropy := (enginePhase c a s).entropy } := by
  unfold enginePhase
  split
  · rw [requestEntropy_frame]
  · rw [entropyCycle_frame]
  · split
    · rw [decryptComplete, finishDecrypt_frame]
    · rfl
  · rw [frameByte_frame]

/-- A received byte writes the FIFO or `RX_OVF` (R201). -/
theorem rxDeliver_frame (b : Byte) (s : State) :
    rxDeliver b s = { s with rxFifo := (rxDeliver b s).rxFifo, rxOvf := (rxDeliver b s).rxOvf } := by
  unfold rxDeliver; split <;> rfl

theorem rxPhase_frame (c : ClockIn) (s : State) :
    rxPhase c s = { s with rxFifo := (rxPhase c s).rxFifo, rxOvf := (rxPhase c s).rxOvf } := by
  unfold rxPhase; split
  · exact rxDeliver_frame _ s
  · rfl

/-- A tick writes `MONO` and, on a timeout, the completion (R203, R204). -/
theorem tickStep_frame (s : State) :
    tickStep s = { s with
      mono := s.mono + 1, engine := (tickStep s).engine, done := (tickStep s).done, result := (tickStep s).result } := by
  unfold tickStep
  split
  · unfold timeoutTest; split <;> rfl
  all_goals rfl

theorem tickPhase_frame (c : ClockIn) (s : State) :
    tickPhase c s = { s with
      mono := if c.tick then s.mono + 1 else s.mono, engine := (tickPhase c s).engine, done := (tickPhase c s).done,
      result := (tickPhase c s).result } := by
  unfold tickPhase; split
  · exact tickStep_frame s
  · rfl

/-- What a command's acceptance may write (R101, R104). -/
theorem accept_frame (i : Instr) (s : State) :
    accept (opcodeOf i) (commandBody i) s = { s with
      engine := (accept (opcodeOf i) (commandBody i) s).engine, done := (accept (opcodeOf i) (commandBody i) s).done,
      result := (accept (opcodeOf i) (commandBody i) s).result, lastOp := (accept (opcodeOf i) (commandBody i) s).lastOp,
      cmdRejected := (accept (opcodeOf i) (commandBody i) s).cmdRejected,
      keyLocked := (accept (opcodeOf i) (commandBody i) s).keyLocked,
      ptLen := (accept (opcodeOf i) (commandBody i) s).ptLen, txLen := (accept (opcodeOf i) (commandBody i) s).txLen,
      rxLen := (accept (opcodeOf i) (commandBody i) s).rxLen, deadline := (accept (opcodeOf i) (commandBody i) s).deadline,
      frameStart := (accept (opcodeOf i) (commandBody i) s).frameStart,
      frameTo := (accept (opcodeOf i) (commandBody i) s).frameTo,
      rxFifo := (accept (opcodeOf i) (commandBody i) s).rxFifo } := by
  unfold accept
  split
  · rfl
  · cases i <;>
      simp only [commandBody, encryptBody, decryptBody, frameRecvBody, frameAccept, rxFlushBody, keyLockBody] <;>
      (repeat' split) <;> rfl

end Sys2Proof.Machine
end

