-- ==== Sys2Proof/Laws/Registers.lean ====
section
/-!
SUPPORT. The register map of R22 in numbers: what an aligned offset addresses, range by range.
-/
namespace Sys2Proof.Machine

/-- The word counts of the three buffers. -/
theorem bufWords_values : bufWords Config.ptCap = 64 ∧ bufWords Config.txCap = 137 ∧ bufWords Config.rxCap = 137 := by
  decide

/-- The register map above the control registers. -/
theorem regOf_high {off : Offset} (h : 0x040 ≤ off.toNat) : regOf off =
    if off.toNat < 0x060 then .key (Fin.ofNat 8 ((off.toNat - 0x040) / 4))
    else if off.toNat < 0x070 then .iv (Fin.ofNat 4 ((off.toNat - 0x060) / 4))
    else if 0x100 ≤ off.toNat ∧ off.toNat < 0x200 then .ptBuf ((off.toNat - 0x100) / 4)
    else if 0x400 ≤ off.toNat ∧ off.toNat < 0x624 then .txBuf ((off.toNat - 0x400) / 4)
    else if 0x800 ≤ off.toNat ∧ off.toNat < 0xA24 then .rxBuf ((off.toNat - 0x800) / 4)
    else .reserved := by
  simp only [regOf, if_neg (Nat.not_lt.2 h), bufWords_values, ptBase, txBase, rxBase]

theorem regOf_key {off : Offset} (h1 : 0x040 ≤ off.toNat) (h2 : off.toNat < 0x060) :
    regOf off = .key (Fin.ofNat 8 ((off.toNat - 0x040) / 4)) := by
  rw [regOf_high h1, if_pos h2]

theorem regOf_iv {off : Offset} (h1 : 0x060 ≤ off.toNat) (h2 : off.toNat < 0x070) :
    regOf off = .iv (Fin.ofNat 4 ((off.toNat - 0x060) / 4)) := by
  rw [regOf_high (by omega), if_neg (by omega), if_pos h2]

theorem regOf_ptBuf {off : Offset} (h1 : 0x100 ≤ off.toNat) (h2 : off.toNat < 0x200) :
    regOf off = .ptBuf ((off.toNat - 0x100) / 4) := by
  rw [regOf_high (by omega), if_neg (by omega), if_neg (by omega), if_pos ⟨h1, h2⟩]

theorem regOf_txBuf {off : Offset} (h1 : 0x400 ≤ off.toNat) (h2 : off.toNat < 0x624) :
    regOf off = .txBuf ((off.toNat - 0x400) / 4) := by
  rw [regOf_high (by omega), if_neg (by omega), if_neg (by omega), if_neg (by omega), if_pos ⟨h1, h2⟩]

theorem regOf_rxBuf {off : Offset} (h1 : 0x800 ≤ off.toNat) (h2 : off.toNat < 0xA24) :
    regOf off = .rxBuf ((off.toNat - 0x800) / 4) := by
  rw [regOf_high (by omega), if_neg (by omega), if_neg (by omega), if_neg (by omega), if_neg (by omega), if_pos ⟨h1, h2⟩]

/-- The reserved offsets (R22, R71, R82). -/
theorem regOf_reserved {off : Offset}
    (h : (0x028 ≤ off.toNat ∧ off.toNat < 0x040) ∨ (0x070 ≤ off.toNat ∧ off.toNat < 0x100) ∨
      (0x200 ≤ off.toNat ∧ off.toNat < 0x400) ∨ (0x624 ≤ off.toNat ∧ off.toNat < 0x800) ∨ 0xA24 ≤ off.toNat) :
    regOf off = .reserved := by
  by_cases h1 : 0x040 ≤ off.toNat
  · rw [regOf_high h1, if_neg (by omega), if_neg (by omega), if_neg (by omega), if_neg (by omega), if_neg (by omega)]
  · simp only [regOf, if_pos (Nat.lt_of_not_le h1)]
    repeat rw [if_neg (by omega)]

end Sys2Proof.Machine
end

