-- ==== Sys2Proof/Laws/Events.lean ====
section
/-!
SUPPORT. What a host write can do, what a cycle's host part can do, and a case principle: a property that every part of an
event keeps is kept by the event.
-/
namespace Sys2Proof.Machine

/-- Two next states that are one outcome are one state. -/
theorem next_inj {a b : State} (h : (Host.Outcome.next a : Host.Outcome State Fault Refusal) = .next b) : a = b := by
  injection h

/-- A guarded write keeps whatever both the write and the drop keep (R76). -/
theorem guardedWrite_keeps (P : State → Prop) (f : State → State) (s : State) (hd : P (dropWrite s)) (hf : P (f s)) :
    P (guardedWrite f s) := by
  unfold guardedWrite; split
  · exact hd
  · exact hf

/-- A host write never changes `MONO`, the IV, or the reset count (R38, R45). -/
theorem writeReg_keeps {r : Reg} {v : Word} {s t : State} (h : writeReg r v s = .next t) :
    t.mono = s.mono ∧ t.iv = s.iv ∧ t.epoch = s.epoch := by
  have g : ∀ f : State → State, ((f s).mono = s.mono ∧ (f s).iv = s.iv ∧ (f s).epoch = s.epoch) →
      (guardedWrite f s).mono = s.mono ∧ (guardedWrite f s).iv = s.iv ∧ (guardedWrite f s).epoch = s.epoch :=
    fun f hf => guardedWrite_keeps (fun t => t.mono = s.mono ∧ t.iv = s.iv ∧ t.epoch = s.epoch) f s ⟨rfl, rfl, rfl⟩ hf
  cases r <;> simp only [writeReg] at h <;> try rw [← next_inj h]
  all_goals try exact g _ ⟨rfl, rfl, rfl⟩
  all_goals try exact ⟨rfl, rfl, rfl⟩
  · unfold writeCmd at h
    split at h
    · rw [exec_eq] at h; rw [← next_inj h, accept_frame]; exact ⟨rfl, rfl, rfl⟩
    · rw [← next_inj h]; unfold acceptIllegal accept; split <;> exact ⟨rfl, rfl, rfl⟩
  · unfold writeKey; split
    · exact ⟨rfl, rfl, rfl⟩
    · exact g _ ⟨rfl, rfl, rfl⟩

/-- While busy a host write sets or clears flags only (R76, R77). -/
theorem writeReg_busy {r : Reg} {v : Word} {s t : State} (h : writeReg r v s = .next t) (hb : s.busy = true) :
    t = { s with
      done := t.done, cmdRejected := t.cmdRejected, rxOvf := t.rxOvf, wrIgnored := t.wrIgnored } := by
  cases r <;> simp only [writeReg] at h <;> try rw [← next_inj h]
  all_goals try (rw [guardedWrite_busy _ hb]; rfl)
  · rfl
  · unfold writeCmd at h
    split at h
    · rw [exec_busy _ hb] at h; rw [← next_inj h]; rfl
    · rw [← next_inj h, acceptIllegal, accept, hb]; rfl
  · unfold writeKey; rw [guardedWrite_busy _ hb]; split <;> rfl

/-- No command's acceptance reads or writes `pslverr`. -/
theorem commandBody_pslverr (i : Instr) (p : Bool) (s : State) :
    commandBody i { s with pslverr := p } = { commandBody i s with pslverr := p } := by
  have g : ∀ {c : Prop} [Decidable c] {a b a' b' : State}, a' = { a with pslverr := p } → b' = { b with pslverr := p } →
      (if c then a' else b') = { (if c then a else b) with pslverr := p } := by
    intro c _ a b a' b' ha hb; split <;> assumption
  cases i with
  | encrypt => exact g rfl (g rfl rfl)
  | decrypt src => cases src <;> exact g rfl (g rfl rfl)
  | frameRecv => exact g rfl (g rfl rfl)
  | frameRaw => exact g rfl rfl
  | rxFlush => rfl
  | keyLock => exact g rfl (g rfl rfl)

/-- While not busy a host write neither reads nor writes `pslverr`. -/
theorem writeReg_pslverr {r : Reg} {v : Word} {s : State} (p : Bool) (h : s.busy = false) :
    ∃ t, writeReg r v s = .next t ∧ writeReg r v { s with pslverr := p } = .next { t with pslverr := p } := by
  have h' : ({ s with pslverr := p } : State).busy = false := h
  cases r <;> simp only [writeReg, guardedWrite_idle _ h, guardedWrite_idle _ h']
  case cmd =>
    unfold writeCmd
    split
    · rename_i i _
      rw [exec_idle i h, exec_idle i h']
      exact ⟨_, rfl, congrArg _ (commandBody_pslverr i p (beginCommand (opcodeOf i) s))⟩
    · exact ⟨_, rfl, by simp only [acceptIllegal, accept, h, h']; rfl⟩
  case key i =>
    refine ⟨_, rfl, ?_⟩
    unfold writeKey; simp only [guardedWrite_idle _ h, guardedWrite_idle _ h']; split <;> rfl
  all_goals exact ⟨_, rfl, rfl⟩

/-- Which words of the buffers an offset can address (R46, R48). -/
theorem regOf_buffer {off : Offset} {k : Nat} :
    (regOf off = .ptBuf k → k < 64) ∧ (regOf off = .rxBuf k → k < 137) := by
  by_cases h1 : 0x040 ≤ off.toNat
  · rw [regOf_high h1]
    repeat' split
    all_goals simp
    all_goals omega
  · simp only [regOf, if_pos (Nat.lt_of_not_le h1)]
    repeat' split
    all_goals simp

/-- The buffer bytes a host write changes: none, or, while not busy, the four of one word of `PT_BUF` or `RX_BUF`. -/
theorem writeReg_mem {off : Offset} {v : Word} {s t : State} (h : writeReg (regOf off) v s = .next t) :
    t.mem = s.mem ∨ (s.busy = false ∧ ∃ base k, (base = ptBase ∧ k < 64 ∨ base = rxBase ∧ k < 137) ∧
      t.mem = storeBytes s.mem (base + 4 * k) (bytesOfWord v)) := by
  cases hb : s.busy
  · have g : ∀ f : State → State, guardedWrite f s = f s := fun f => guardedWrite_idle f hb
    cases hr : regOf off <;> rw [hr] at h <;> simp only [writeReg] at h <;> try rw [← next_inj h]
    all_goals try (left; rfl)
    all_goals try (left; rw [g]; rfl)
    · left; unfold writeCmd at h
      split at h
      · rw [exec_eq] at h; rw [← next_inj h, accept_frame]
      · rw [← next_inj h, acceptIllegal, accept, hb]; rfl
    · left; unfold writeKey; rw [g]; split <;> rfl
    · right; rw [g]; exact ⟨rfl, _, _, .inl ⟨rfl, regOf_buffer.1 hr⟩, rfl⟩
    · right; rw [g]; exact ⟨rfl, _, _, .inr ⟨rfl, regOf_buffer.2 hr⟩, rfl⟩
  · left; rw [writeReg_busy h hb]

/-- A cycle's host part is quiet, a read, or a write (R70, R72). -/
theorem busPhase_cases (P : State → Prop) {c : ClockIn} {s u : State} (hb : busPhase c s = .next u)
    (hq : ∀ error data, P (answerBus error data s)) (hr : ∀ r, P (readReg r (answerBus false s.prdata s)))
    (hw : (c.psel = true ∧ c.penable = true) → supported c.access = true → c.pwrite = true → ∀ t,
      writeReg (regOf c.access.addr) c.pwdata (answerBus false s.prdata s) = .next t → P t) : P u := by
  simp only [busPhase] at hb
  split at hb
  · rename_i hsel
    split at hb
    · split at hb
      · exact hw (by simpa using hsel) ‹_› ‹_› _ hb
      · rw [← next_inj hb]; exact hr _
    · rw [← next_inj hb]; exact hq _ _
  · rw [← next_inj hb]; exact hq _ _

/-- In a busy cycle the host's part changes flags and bus outputs only (R76, R77, R80). -/
theorem busPhase_busy {c : ClockIn} {s u : State} (hb : busPhase c s = .next u) (h : s.busy = true) :
    u = { s with
      done := u.done, cmdRejected := u.cmdRejected, rxOvf := u.rxOvf, wrIgnored := u.wrIgnored, prdata := u.prdata,
      draws := u.draws, pslverr := u.pslverr } := by
  refine busPhase_cases (fun u => u = { s with
      done := u.done, cmdRejected := u.cmdRejected, rxOvf := u.rxOvf, wrIgnored := u.wrIgnored, prdata := u.prdata,
      draws := u.draws, pslverr := u.pslverr }) hb (fun _ _ => rfl) (fun _ => rfl) (fun _ _ _ t ht => ?_)
  rw [writeReg_busy ht h]; rfl

/-- Where no reception runs after the Engine's part, the rest of a cycle changes the FIFO, `RX_OVF`, `MONO` and the irq pin
only (R201, R203, R248). -/
theorem cycleEnd_frame {c : ClockIn} {s u : State} (h : ∀ mode, u.engine ≠ .receiving mode) :
    showIrq (irq s) (tickPhase c (rxPhase c u)) = { u with
      irqPin := irq s, mono := if c.tick then u.mono + 1 else u.mono, rxFifo := (rxPhase c u).rxFifo,
      rxOvf := (rxPhase c u).rxOvf } := by
  have h1 : (rxPhase c u).engine = u.engine := by rw [rxPhase_frame]
  have h2 : tickPhase c (rxPhase c u) = if c.tick then countTick (rxPhase c u) else rxPhase c u := by
    unfold tickPhase tickStep; split
    · split
      · rename_i mode hm; rw [h1] at hm; exact absurd hm (h mode)
      all_goals rfl
    · rfl
  rw [h2]
  cases c.tick <;> simp only [Bool.false_eq_true, if_false, if_true] <;> rw [rxPhase_frame] <;> rfl

/-- A supported write while not busy, in a clock cycle, has the effect it has alone, and the rest of the cycle follows on its
result (R250), where the cycle's tick finds no reception. It rests on log entries 9, 11 and 22. -/
theorem clockCycle_idle_write (c : ClockIn) (s : State) (h1 : c.rstN = true) (h2 : c.psel = true) (h3 : c.penable = true)
    (h4 : c.pwrite = true) (h5 : supported c.access = true) (h6 : s.engine = .idle) :
    ∃ u t, runEvent (.memWrite c.access c.pwdata) s = .next u ∧ clockCycle c s = .next t ∧
      ((c.tick = true → ∀ mode, u.engine ≠ .receiving mode) →
        t = { u with
          pslverr := false, irqPin := s.done && s.ie, mono := if c.tick then u.mono + 1 else u.mono,
          entropy := if c.engineReady ∧ u.engine = .encrypting ∧ u.entropy = .idle then .waiting 0 else u.entropy,
          rxFifo := if c.rxValid ∧ u.rxFifo.length < 32 then u.rxFifo ++ [c.rxData] else u.rxFifo,
          rxOvf := u.rxOvf || (c.rxValid && 32 ≤ u.rxFifo.length) }) := by
  obtain ⟨u, hu, hv⟩ := writeReg_pslverr (r := regOf c.access.addr) (v := c.pwdata) (s := s) false
    (by simp [State.busy, h6])
  refine ⟨u, _, by simp [runEvent, hostWrite, h5, hu], by
    unfold clockCycle busPhase
    simp only [h1, h2, h3, h4, h5, Bool.and_self, if_true]
    rw [show answerBus false s.prdata s = { s with pslverr := false } from rfl, hv], ?_⟩
  intro ht
  simp only [h6, enginePhase]
  have hi : irq s = (s.done && s.ie) := rfl
  rw [hi]
  have hq : requestEntropy c { u with pslverr := false } = { u with
      pslverr := false, entropy := if c.engineReady ∧ u.engine = .encrypting ∧ u.entropy = .idle then .waiting 0 else u.entropy } := by
    unfold requestEntropy setEntropy
    by_cases a : c.engineReady = true ∧ u.engine = .encrypting ∧ u.entropy = .idle
    · simp [a]
    · simp only [a, if_false]; rw [if_neg]; simpa [and_assoc] using a
  rw [hq]
  generalize (if c.engineReady ∧ u.engine = .encrypting ∧ u.entropy = .idle then EntropyPort.waiting 0 else u.entropy) = e
  have hr : rxPhase c { u with pslverr := false, entropy := e } = { u with
      pslverr := false, entropy := e,
      rxFifo := if c.rxValid ∧ u.rxFifo.length < 32 then u.rxFifo ++ [c.rxData] else u.rxFifo,
      rxOvf := u.rxOvf || (c.rxValid && 32 ≤ u.rxFifo.length) } := by
    unfold rxPhase rxDeliver
    cases c.rxValid
    · simp
    · by_cases h : u.rxFifo.length < 32
      · simp [h, Config.rxFifoDepth, pushByte, Nat.not_le_of_lt h]
      · simp [h, Config.rxFifoDepth, loseByte, Nat.le_of_not_lt h]
  rw [hr]
  unfold tickPhase
  cases hc : c.tick
  · simp [showIrq]
  · simp only [if_true]
    have := ht hc
    unfold tickStep
    cases he : u.engine
    case receiving m => exact absurd he (this m)
    all_goals simp [countTick, showIrq]

/-- A property that every part of an event keeps is kept by every event but a reset. -/
theorem runEvent_keeps (P : State → Prop) {e : Event} {s t : State} (hr : resets e = false) (h : runEvent e s = .next t)
    (h0 : P s) (hread : ∀ r s, P s → P (readReg r s)) (hwrite : ∀ r v s t, P s → writeReg r v s = .next t → P t)
    (hengine : ∀ e s, P s → P (engineStep e s)) (hphase : ∀ c a s, P s → P (enginePhase c a s))
    (hrx : ∀ b s, P s → P (rxDeliver b s)) (htick : ∀ s, P s → P (tickStep s))
    (hbus : ∀ error data s, P s → P (answerBus error data s)) (hirq : ∀ pin s, P s → P (showIrq pin s)) : P t := by
  cases e with
  | memRead a =>
    simp only [runEvent, hostRead] at h
    split at h
    · rw [← next_inj h]; exact hread _ _ h0
    · cases h
  | memWrite a v =>
    simp only [runEvent, hostWrite] at h
    split at h
    · exact hwrite _ _ _ _ h0 h
    · cases h
  | engine d => rw [← next_inj h]; exact hengine _ _ h0
  | rxByte b => rw [← next_inj h]; exact hrx _ _ h0
  | tick => rw [← next_inj h]; exact htick _ h0
  | reset => cases hr
  | clock c =>
    obtain ⟨u, hb, rfl⟩ := clockCycle_inv (by simpa [resets] using hr) h
    have hu : P u := busPhase_cases P hb (fun _ _ => hbus _ _ _ h0) (fun _ => hread _ _ (hbus _ _ _ h0))
      (fun _ _ _ t ht => hwrite _ _ _ t (hbus _ _ _ h0) ht)
    apply hirq
    unfold tickPhase rxPhase
    split
    · apply htick; split
      · exact hrx _ _ (hphase _ _ _ hu)
      · exact hphase _ _ _ hu
    · split
      · exact hrx _ _ (hphase _ _ _ hu)
      · exact hphase _ _ _ hu

/-- Running two lists of events one after the other. -/
theorem runEvents_append (a b : List Event) (s : State) :
    runEvents (a ++ b) s = match runEvents a s with
      | .next t => runEvents b t
      | .fault f => .fault f
      | .refused r => .refused r := by
  induction a generalizing s with
  | nil => rfl
  | cons e a ih =>
    simp only [List.cons_append, runEvents]
    cases runEvent e s <;> simp only []
    exact ih _

/-- The events of the RX line, the Timer and the Engine, one by one (R200). -/
theorem isFrameEvent_cases {e : Event} (h : isFrameEvent e = true) :
    (∃ b, e = .rxByte b) ∨ e = .tick ∨ ∃ d, e = .engine d := by
  cases e <;> simp [isFrameEvent] at h <;> simp

end Sys2Proof.Machine
end

