-- ==== Sys2Proof/Laws/PerInstr.lean ====
section
/-!
SUPPORT. One statement per instruction, about its word: it is the one spec/opcode_table.json gives (its mask and match), its
fields pass the checks of R105, and it decodes to the instruction (R102).
-/
namespace Sys2Proof.Laws.OpcodeTable

/-- The row's `mask` in spec/opcode_table.json. -/
def mask : Instr → Word
  | .encrypt => 0xFFFFFFFF
  | .decrypt _ => 0xFFFFFEFF
  | .frameRecv => 0xFFFFFFFF
  | .frameRaw => 0xFFFFFFFF
  | .rxFlush => 0xFFFFFFFF
  | .keyLock => 0xFFFFFFFF

/-- The row's `match` in spec/opcode_table.json. -/
def pattern : Instr → Word
  | .encrypt => 0x00000001
  | .decrypt _ => 0x00000002
  | .frameRecv => 0x00000003
  | .frameRaw => 0x00000004
  | .rxFlush => 0x00000005
  | .keyLock => 0x00000006

/-- The word of an instruction is its row's, well-formed, and decodes to it. -/
def Statement (i : Instr) : Prop :=
  encode i &&& mask i = pattern i ∧ instrWellFormed i = true ∧ decode (encode i) = .ok i

theorem encrypt : Statement .encrypt := ⟨rfl, rfl, rfl⟩

theorem decrypt (src : Src) : Statement (.decrypt src) := by cases src <;> exact ⟨rfl, rfl, rfl⟩

theorem frameRecv : Statement .frameRecv := ⟨rfl, rfl, rfl⟩

theorem frameRaw : Statement .frameRaw := ⟨rfl, rfl, rfl⟩

theorem rxFlush : Statement .rxFlush := ⟨rfl, rfl, rfl⟩

theorem keyLock : Statement .keyLock := ⟨rfl, rfl, rfl⟩

end Sys2Proof.Laws.OpcodeTable
end

