-- ==== Sys2Proof/Laws/Texts.lean ====
section
/-!
SUPPORT. What the commands write, read back: the envelope text, the plaintext, the IV registers, the received text; and the
lengths of the texts read.
-/
namespace Sys2Proof.Machine

/-- A word's bytes are the bytes it was made of (R74). -/
theorem bytesOfWord_wordOfBytes (a b c d : Byte) : bytesOfWord (wordOfBytes a b c d) = [a, b, c, d] := by
  have h : ∀ (i : Nat) (x : Byte), (∀ j, j < 8 → (wordOfBytes a b c d).getLsbD (8 * i + j) = x.getLsbD j) →
      wordByte (wordOfBytes a b c d) i = x := by
    intro i x hx
    apply BitVec.eq_of_getLsbD_eq
    intro j hj
    rw [wordByte, BitVec.getLsbD_extractLsb', hx j hj]
    simp [hj]
  simp only [bytesOfWord]
  rw [h 0 a, h 1 b, h 2 c, h 3 d] <;> intro j hj <;> simp only [wordOfBytes, BitVec.getLsbD_append]
  all_goals (repeat' split) <;> first | omega | (congr 1; omega)

/-- The IV registers hold the IV written to them (R45). -/
theorem ivString_of_ivWords {s : State} {b : Bytes} (h : b.length = 16) (hs : s.iv = ivWords b) : ivString s = b := by
  rw [ivString, hs]
  match b, h with
  | [a0, a1, a2, a3, a4, a5, a6, a7, a8, a9, a10, a11, a12, a13, a14, a15], _ =>
    show List.flatMap bytesOfWord [wordOfBytes a0 a1 a2 a3, wordOfBytes a4 a5 a6 a7, wordOfBytes a8 a9 a10 a11,
      wordOfBytes a12 a13 a14 a15] = _
    simp only [List.flatMap_cons, bytesOfWord_wordOfBytes]; rfl

@[simp] theorem bytesOfDraw_length (d : BitVec 128) : (bytesOfDraw d).length = 16 := by simp [bytesOfDraw]

@[simp] theorem ptText_length (s : State) : (ptText s).length = s.ptLen.toNat := readBytes_length _ _ _

@[simp] theorem txText_length (s : State) : (txText s).length = s.txLen.toNat := readBytes_length _ _ _

@[simp] theorem rxText_length (s : State) : (rxText s).length = s.rxLen.toNat := readBytes_length _ _ _

theorem srcText_length (src : Src) (s : State) : (srcText src s).length = (srcLimits src s).1 := by
  cases src <;> simp [srcText, srcLimits]

/-- The outputs of ENCRYPT read back (R177). -/
theorem putEnvelope_reads {t iv : Bytes} (s : State) (h : t.length ≤ Config.txCap) :
    (putEnvelope t iv s).txLen.toNat = t.length ∧ txText (putEnvelope t iv s) = t := by
  simp only [Config.txCap] at h
  have hn : (putEnvelope t iv s).txLen.toNat = t.length := by simp only [putEnvelope_txLen, BitVec.toNat_ofNat]; omega
  refine ⟨hn, ?_⟩
  rw [txText, hn]
  exact readBytes_storeBytes s txBase t fun i hi => isStorage_tx (by simp only [Config.txCap]; omega)

/-- The outputs of a decryption read back (R183, R208). -/
theorem putPlaintext_reads {p iv : Bytes} (s : State) (h : p.length ≤ Config.ptCap) :
    (putPlaintext p iv s).ptLen.toNat = p.length ∧ ptText (putPlaintext p iv s) = p := by
  simp only [Config.ptCap] at h
  have hn : (putPlaintext p iv s).ptLen.toNat = p.length := by simp only [putPlaintext_ptLen, BitVec.toNat_ofNat]; omega
  refine ⟨hn, ?_⟩
  rw [ptText, hn]
  exact readBytes_storeBytes s ptBase p fun i hi => isStorage_pt (by simp only [Config.ptCap]; omega)

/-- The envelope ENCRYPT makes fits `TX_BUF` (R47, R173). -/
theorem envelope_fits {s : State} (d : BitVec 128) (h : s.ptLen.toNat ≤ Config.maxPt) :
    (envelopeEncrypt (keyString s) (bytesOfDraw d) (ptText s) s.txTerm).length ≤ Config.txCap := by
  simp only [Config.maxPt] at h
  rw [envelopeEncrypt_length, bytesOfDraw_length, ptText_length, Config.txCap]
  cases s.txTerm <;> simp <;> omega

/-- A text of any buffer length decrypts to a plaintext that leaves `TX_BUF` and `RX_BUF` alone (R46). -/
theorem finishDecrypt_far {key text : Bytes} (s : State) {off : Nat} (hl : text.length < 1024) (h : txBase ≤ off) :
    readByte (finishDecrypt (envelopeDecrypt key text) s) off = readByte s off := by
  cases hr : envelopeDecrypt key text with
  | ok p iv =>
    have := envelopeDecrypt_lengths hr
    exact loadByte_storeBytes_outside _ _ _ (.inr (by simp only [txBase, ptBase] at *; omega))
  | fail c => rfl

/-- `RX_LEN` counts up without wrapping while there is room (R42). -/
theorem rxLen_succ {s : State} (h : s.rxLen.toNat < Config.rxCap) : (s.rxLen + 1).toNat = s.rxLen.toNat + 1 := by
  simp only [Config.rxCap] at h; simp only [BitVec.toNat_add]; simp; omega

/-- A byte taken changes one byte of `RX_BUF` only (R206). -/
theorem readByte_takeByte_ne (b : Byte) (rest : Bytes) (s : State) {off : Nat} (h : off ≠ rxBase + s.rxLen.toNat) :
    readByte (takeByte b rest s) off = readByte s off := loadByte_storeByte_ne _ _ _ h

/-- The timeout test's difference in numbers (R204). -/
theorem elapsed_toNat (a b : Word) : (a + 1 - b).toNat = (a.toNat + 1 + (2 ^ 32 - b.toNat)) % 2 ^ 32 := by
  simp only [BitVec.toNat_sub, BitVec.toNat_add]; simp; omega

end Sys2Proof.Machine
end

