-- ==== Sys2Proof/Tests/Slice0.lean ====
section
/-!
SUPPORT. The tests: ill-formed words refused, the words of the opcode map written from R100 and R102, the vectors of
spec/95_test_vectors.md for single steps, and a witness for the hypotheses of every statement that has some.
-/
namespace Sys2Proof.Tests
open Sys2Proof.Machine

/-! Well-formedness (R105): one ill-formed word per check. -/

theorem test_wellFormed_refuses_reserved_bit : (CmdWord.mk 0x01 0 1).rsvdOk = false ∧
    (CmdWord.mk 0x01 0 1).wellFormed = false := by decide

theorem test_wellFormed_refuses_source_bit : (CmdWord.mk 0x03 1 0).srcOk = false ∧
    (CmdWord.mk 0x03 1 0).wellFormed = false := by decide

theorem test_wellFormed_refuses_opcode : (CmdWord.mk 0x07 0 0).opOk = false ∧ (CmdWord.mk 0x00 0 0).opOk = false ∧
    (CmdWord.mk 0xFF 0 0).wellFormed = false := by decide

theorem test_wellFormed_accepts_decrypt_of_txBuf : (CmdWord.mk 0x02 1 0).wellFormed = true := by decide

/-! Decoding (R102): RSVD [31:9], SRC [8], OP [7:0], written out bit by bit. -/

theorem test_decode_encrypt : decode 0b00000000000000000000000_0_00000001 = .ok .encrypt := rfl

theorem test_decode_decrypt_rxBuf : decode 0b00000000000000000000000_0_00000010 = .ok (.decrypt .rxBuf) := rfl

theorem test_decode_decrypt_txBuf : decode 0b00000000000000000000000_1_00000010 = .ok (.decrypt .txBuf) := rfl

theorem test_decode_frameRecv : decode 0b00000000000000000000000_0_00000011 = .ok .frameRecv := rfl

theorem test_decode_frameRaw : decode 0b00000000000000000000000_0_00000100 = .ok .frameRaw := rfl

theorem test_decode_rxFlush : decode 0b00000000000000000000000_0_00000101 = .ok .rxFlush := rfl

theorem test_decode_keyLock : decode 0b00000000000000000000000_0_00000110 = .ok .keyLock := rfl

/-- R105, in each of its three forms. -/
theorem test_decode_illegal : decode 0b00000000000000000000000_0_00000111 = .error .opcode ∧
    decode 0b00000000000000000000000_1_00000011 = .error .sourceBit ∧
    decode 0b10000000000000000000000_0_00000001 = .error .reservedBits := ⟨rfl, rfl, rfl⟩

theorem test_decodeTableWord : decodeTableWord 32 0x00000006 = some .keyLock ∧
    decodeTableWord 32 0x00000102 = some (.decrypt .txBuf) ∧ decodeTableWord 32 0x00000200 = none := by decide

/-! Small states, and the state after an event. -/

/-- The state after a command or an event; the argument itself where there is none. -/
def after (o : Host.Outcome State Fault Refusal) : State :=
  match o with
  | .next t => t
  | .fault _ => State.reset
  | .refused _ => State.reset

/-- A host read of a register. -/
def rd (off : Offset) (s : State) : Word := (after (runEvent (.memRead (wordAccess off)) s)).prdata

/-- A host write of a register. -/
def wr (off : Offset) (v : Word) (s : State) : State := after (runEvent (.memWrite (wordAccess off) v) s)

/-- The key `K0` of spec/95_test_vectors.md. -/
def k0 : Bytes := (List.range 32).map (BitVec.ofNat 8)

/-- The IV `IVA`. -/
def iva : Bytes := (List.range 16).map (BitVec.ofNat 8)

/-- `IVA` as an entropy answer. -/
def drawA : BitVec 128 := 0x0f0e0d0c0b0a09080706050403020100

/-- `K0` in the key registers, locked. -/
def lockedState : State :=
  { State.reset with
    key := #v[0x03020100, 0x07060504, 0x0b0a0908, 0x0f0e0d0c, 0x13121110, 0x17161514, 0x1b1a1918, 0x1f1e1d1c]
    keyWmask := 0xFF
    keyLocked := true }

/-- An ENCRYPT running, of "$?". -/
def encryptingState : State :=
  { lockedState with
    engine := .encrypting
    lastOp := 0x01
    mem := [(0x100, 0x24), (0x101, 0x3f), (0x400, 0x00)]
    ptLen := 2 }

/-- A DECRYPT of `RX_BUF` running. -/
def decryptingState : State := { lockedState with engine := .decrypting .rxBuf, lastOp := 0x02, rxLen := 0 }

/-- A frame reception that has stored 0x0D, with 0x0A waiting. -/
def receivingState (mode : FrameMode) : State :=
  { lockedState with
    engine := .receiving mode
    lastOp := if mode = .raw then 0x04 else 0x03
    frameTo := 2000
    deadline := 2000
    mem := [(0x800, 0x0D)]
    rxLen := 1
    rxFifo := [0x0A] }

/-- A cycle in which nothing happens. -/
def quietCycle : ClockIn :=
  { rstN := true, psel := false, penable := false, pwrite := false, access := wordAccess 0, pwdata := 0, rxValid := false,
    rxData := 0, tick := false, entValid := false, entFail := false, entData := 0, engineReady := false }

/-- A cycle with a host write. -/
def writeCycle (off : Offset) (v : Word) : ClockIn :=
  { quietCycle with psel := true, penable := true, pwrite := true, access := wordAccess off, pwdata := v }

/-! Vectors of the cipher (95_test_vectors.md section 2 and 3). -/

/-- K1. -/
theorem test_sBox : sBox 0x00 = 0x63 ∧ sBox 0x53 = 0xED ∧ invSBox 0x63 = 0x00 := by decide

/-- K4: `w[8]` and `w[59]`. -/
theorem test_keyExpansion : (keyExpansion k0).getD 8 default = ⟨0xa5, 0x73, 0xc2, 0x9f⟩ ∧
    (keyExpansion k0).getD 59 default = ⟨0x6d, 0x68, 0xde, 0x36⟩ := by decide +kernel

/-- K2: FIPS-197 Appendix C.3. -/
theorem test_aesEnc : blockBytes (aesEnc (keyExpansion k0) (blockOfBytes
      [0x00, 0x11, 0x22, 0x33, 0x44, 0x55, 0x66, 0x77, 0x88, 0x99, 0xaa, 0xbb, 0xcc, 0xdd, 0xee, 0xff])) =
    [0x8e, 0xa2, 0xb7, 0xca, 0x51, 0x67, 0x45, 0xbf, 0xea, 0xfc, 0x49, 0x90, 0x4b, 0x49, 0x60, 0x89] := by
  decide +kernel

/-- V-P1: an empty plaintext pads to sixteen 0x10, one of 15 bytes by one 0x01. -/
theorem test_pad : pad [] = List.replicate 16 0x10 ∧ pad (List.replicate 15 0x41) = List.replicate 15 0x41 ++ [0x01] := by
  decide

/-- The bytes of a text. -/
def ascii (s : String) : Bytes := s.toList.map (fun c => BitVec.ofNat 8 c.toNat)

/-- V-E2. -/
def textE2 : Bytes := ascii "000102030405060708090a0b0c0d0e0fc37e552384a0e5cadf1248ffc33759f8"

/-- V-D14: fourteen 41, then 05 02: only the last byte is checked (R146). -/
theorem test_unpad_last_byte_only : unpad (List.replicate 14 0x41 ++ [0x05, 0x02]) = some (List.replicate 14 0x41) ∧
    unpad (List.replicate 15 0x41 ++ [0x11]) = none := by decide

/-! One step per command, from 95_test_vectors.md. -/

/-- V-E20. -/
theorem test_encrypt_no_key : rd 0x004 (wr 0x008 0x00000001 State.reset) = 0x00010802 := by decide

/-- P1: ENCRYPT of "$?" under `K0` and `IVA` gives V-E2's text. -/
theorem test_encrypt_completes : txText (engineStep (some drawA) encryptingState) = textE2 := by decide +kernel

/-- V-D30. -/
theorem test_decrypt_no_key : rd 0x004 (wr 0x008 0x00000102 State.reset) = 0x00020802 := by decide

/-- V-D17: V-E2's text followed by CR LF decrypts to "$?". -/
theorem test_envelopeDecrypt : envelopeDecrypt k0 (textE2 ++ [0x0D, 0x0A]) = .ok [0x24, 0x3f] iva := by decide +kernel

/-- V-F14. -/
theorem test_frameRecv_no_key : rd 0x004 (wr 0x008 0x00000003 State.reset) = 0x00030802 := by decide

/-- V-F11: a frame that is only CR LF is malformed. -/
theorem test_frameRecv_empty_frame : (engineStep none (receivingState .decode)).result = .malformedEnvelope ∧
    (engineStep none (receivingState .decode)).rxLen = 2 ∧ (engineStep none (receivingState .decode)).ptLen = 0 := by
  decide

/-- V-F2: `TIMEOUT = 0` ends at acceptance and consumes no byte. -/
theorem test_frameRaw_timeout_zero :
    rd 0x004 (wr 0x008 0x00000004 { State.reset with timeout := 0, rxFifo := [0x41] }) = 0x00040202 ∧
    rd 0x024 (wr 0x008 0x00000004 { State.reset with timeout := 0, rxFifo := [0x41] }) = 1 := by decide

/-- V-F10: at 546 bytes the terminator test comes before the overflow test. -/
theorem test_frameRaw_terminator_before_overflow :
    (engineStep none { receivingState .raw with mem := [(0xA20, 0x0D)], rxLen := 545 }).result = .ok ∧
    (engineStep none { receivingState .raw with mem := [(0xA20, 0x0C)], rxLen := 545 }).result = .frameOverflow := by
  decide +kernel

/-- V-F16: RX_FLUSH leaves `RX_OVF` set. -/
theorem test_rxFlush : rd 0x004 (wr 0x008 0x00000005 { State.reset with rxFifo := List.replicate 32 0, rxOvf := true }) =
    0x00050112 := by decide

/-- V-K1 and V-K2. -/
theorem test_keyLock : rd 0x004 (wr 0x008 0x00000006 { State.reset with keyWmask := 0x7F }) = 0x7F060802 ∧
    rd 0x004 (wr 0x008 0x00000006 { State.reset with keyWmask := 0xFF }) = 0xFF060106 := by decide

/-- V-K4: a key write after the lock is dropped. -/
theorem test_key_write_after_lock : wr 0x040 1 lockedState = { lockedState with wrIgnored := true } := by decide

/-- V-F3: the wait of four ticks ends at the fourth though `MONO` wraps. -/
theorem test_timeout_across_wrap :
    (tickStep { receivingState .raw with frameStart := 0xFFFFFFFE, frameTo := 4, mono := 0x00000000 }).result = .none ∧
    (tickStep { receivingState .raw with frameStart := 0xFFFFFFFE, frameTo := 4, mono := 0x00000001 }).result = .timeout := by
  decide

/-! Witnesses: for each statement, states and operands that meet its hypotheses together. -/

theorem witness_IllegalWordsCompleteAtOnce :
    (∃ e, decode 0x00000007 = .error e) ∧ (∃ e, decode 0x00000101 = .error e) ∧ (∃ e, decode 0x00000201 = .error e) ∧
    State.reset.busy = false := ⟨⟨_, rfl⟩, ⟨_, rfl⟩, ⟨_, rfl⟩, rfl⟩

theorem witness_StepRunsWrittenCommand :
    { State.reset with inputs := [cmdWriteEvent 0x00000005] }.inputs = cmdWriteEvent 0x00000005 :: [] ∧
    decode 0x00000005 = .ok .rxFlush := ⟨rfl, rfl⟩

theorem witness_CommandWriteWhileBusyIsRejected :
    encryptingState.busy = true ∧ lockedState.busy = false ∧ decode 0x00000006 = .ok .keyLock := ⟨rfl, rfl, rfl⟩

theorem witness_ResetWinsFromEveryState :
    resets .reset = true ∧ resets (.clock { quietCycle with rstN := false }) = true ∧ encryptingState.busy = true := by
  decide

/-- A state the invariant holds in, in the middle of a reception, and a step from it. -/
theorem witness_StepKeepsInvariant : ∃ t, StateInv { receivingState .raw with inputs := [.engine none] } ∧
    step { receivingState .raw with inputs := [.engine none] } = .next t ∧ t.result = .ok :=
  ⟨_, ⟨by decide, by decide, .inl rfl, by decide, fun _ => rfl, fun _ h => ⟨rfl, rfl, Option.some.inj h⟩, (nomatch ·),
    fun _ h => (nomatch h), fun _ _ => by decide, (nomatch ·), fun h => absurd rfl h, fun _ h => (nomatch h)⟩, rfl, rfl⟩

theorem witness_UnsupportedAccessHasNoEffect :
    (⟨0x001, 0b1111⟩ : Access).addr.toNat % 4 ≠ 0 ∧ (⟨0x000, 0b0111⟩ : Access).strb ≠ 0b1111 ∧
    ({ quietCycle with psel := true, penable := true, access := ⟨0x001, 0b1111⟩ } : ClockIn).rstN = true := by decide

theorem witness_OnlyBusErrorStops :
    noBusError (nextEvent { State.reset with inputs := [.tick] }).1 = true ∧
    step { State.reset with inputs := [.memRead ⟨0x001, 0b1111⟩] } = .fault (.busError 0x001) := ⟨rfl, rfl⟩

theorem witness_ReadsHaveNoSideEffect : supported (wordAccess 0x004) = true ∧
    readOpen encryptingState (regOf 0x004) = false ∧ readOpen encryptingState (regOf 0x01C) = true := by decide

theorem witness_KeyRegisterRule : lockedState.keyLocked = true ∧ encryptingState.busy = true ∧
    State.reset.keyLocked = false ∧ State.reset.busy = false ∧ supported (wordAccess 0x05C) = true := by decide

/-- The first and the last offset of each range. -/
theorem witness_BusyWritesAreDropped : decryptingState.busy = true ∧
    [0x000, 0x00C, 0x018, 0x020, 0x040, 0x05C, 0x100, 0x1FC, 0x800, (0xA20 : Offset)].all (fun off =>
      (wr off 0x12345678 decryptingState).wrIgnored) = true ∧
    (wr 0x008 0x00000005 decryptingState).cmdRejected = true ∧
    [0x010, 0x014, 0x01C, 0x024, 0x03C, 0x060, 0x0FC, 0x200, 0x3FC, 0x400, 0x7FC, 0xA24, (0xFFC : Offset)].all (fun off =>
      !(wr off 0x12345678 decryptingState).wrIgnored && (wr off 0x12345678 lockedState).mem == []) = true := by decide

theorem witness_RegisterWritesReadBack : lockedState.busy = false ∧ rd 0x018 (wr 0x018 0xFFFFFFFF lockedState) = 0x1FF ∧
    rd 0x020 (wr 0x020 0xFFFFFFFF lockedState) = 0x3FF ∧ rd 0x000 (wr 0x000 0xFFFFFFFF lockedState) = 3 := by decide

/-- The first and the last word of both buffers; the upper half of the last word of `RX_BUF` reads 0. -/
theorem witness_BufferWritesReadBack : lockedState.busy = false ∧
    [0x100, 0x1FC, 0x800, (0xA1C : Offset)].all (fun off =>
      rd off (wr off 0x89ABCDEF lockedState) == 0x89ABCDEF) = true ∧
    rd 0xA20 (wr 0xA20 0x89ABCDEF lockedState) = 0x0000CDEF := by decide

/-- The first and the last offset of each range. -/
theorem witness_ReservedOffsetsReadZero :
    [0x008, 0x028, 0x05C, 0x070, 0x0FC, 0x200, 0x3FC, 0x624, 0x7FC, 0xA24, (0xFFC : Offset)].all (fun off =>
      off.toNat % 4 == 0 && rd off { encryptingState with prdata := 1 } == 0) = true := by decide

/-- A state for each clause: the three running commands, a received word, one half received, one not received, and idle. -/
theorem witness_ReadsWhileRunning : lockedState.engine = .idle ∧ lockedState.rxFifo.length ≤ 32 ∧
    encryptingState.engine = .encrypting ∧ decryptingState.engine = .decrypting .rxBuf ∧
    (receivingState .decode).engine = .receiving .decode ∧ (receivingState .raw).engine = .receiving .raw ∧
    (receivingState .raw).rxLen.toNat ≤ 4 * 136 ∧ 4 * 135 + 4 ≤ { receivingState .raw with rxLen := 545 }.rxLen.toNat ∧
    4 * 0 < (receivingState .raw).rxLen.toNat ∧ (receivingState .raw).rxLen.toNat < 4 * 0 + 4 ∧
    rd 0x024 (receivingState .raw) = 1 ∧ rd 0x060 { lockedState with iv := #v[0x03020100, 1, 2, 3] } = 0x03020100 := by decide

theorem witness_KeyLockResult : State.reset.busy = false ∧ lockedState.keyLocked = true ∧
    { State.reset with keyWmask := 0xFF }.keyWmask = 0xFF ∧ State.reset.keyWmask ≠ 0xFF := by decide

/-- Both sides of the length limit. -/
theorem witness_EncryptAcceptance : State.reset.keyLocked = false ∧ lockedState.busy = false ∧
    lockedState.keyLocked = true ∧ { lockedState with ptLen := 255 }.ptLen.toNat ≤ 255 ∧
    255 < { lockedState with ptLen := 256 }.ptLen.toNat := by decide

theorem witness_EncryptCompletes : { lockedState with ptLen := 255 }.busy = false ∧
    { lockedState with ptLen := 255 }.keyLocked = true ∧ { lockedState with ptLen := 255 }.ptLen.toNat ≤ 255 ∧
    { lockedState with ptLen := 255 }.entropy = .idle := by decide

theorem witness_EncryptFailureEffects : State.reset.busy = false ∧ State.reset.entropy = .idle ∧
    State.reset.keyLocked = false ∧ 255 < { lockedState with ptLen := 511 }.ptLen.toNat ∧
    lockedState.keyLocked = true ∧ lockedState.ptLen.toNat ≤ 255 := by decide

theorem witness_EnvelopeShape : ∃ u, encryptingState.engine = .encrypting ∧ encryptingState.ptLen.toNat ≤ 255 ∧
    runEvent (.engine (some drawA)) encryptingState = .next u ∧ u.result = .ok := ⟨_, rfl, by decide, rfl, rfl⟩

/-- Both sides of the length limit, and the other source; a state in which the invariant holds is
`witness_StepKeepsInvariant`. -/
theorem witness_DecryptAcceptance : State.reset.busy = false ∧ State.reset.keyLocked = false ∧
    lockedState.keyLocked = true ∧ 546 < { lockedState with rxLen := 547 }.rxLen.toNat ∧
    { lockedState with rxLen := 546 }.rxLen.toNat ≤ 546 ∧ lockedState.txLen.toNat ≤ 546 := by decide

/-- V-E2's text in `TX_BUF`. -/
def envelopeState : State := { lockedState with mem := storeBytes [] txBase textE2, txLen := 64 }

/-- A source that holds a good envelope, and an empty one. -/
theorem witness_DecryptCompletes :
    envelopeState.busy = false ∧ envelopeState.keyLocked = true ∧ envelopeState.txLen.toNat ≤ 546 ∧
    envelopeDecrypt (keyString envelopeState) (srcText .txBuf envelopeState) = .ok [0x24, 0x3f] iva ∧
    envelopeDecrypt (keyString envelopeState) (srcText .rxBuf envelopeState) = .fail .malformedEnvelope := by decide +kernel

theorem witness_FrameRecvNeedsKey : State.reset.busy = false ∧ State.reset.keyLocked = false := by decide

theorem witness_FrameAcceptance : lockedState.busy = false ∧ lockedState.keyLocked = true ∧ lockedState.timeout ≠ 0 ∧
    { lockedState with timeout := 0 }.timeout = 0 := by decide

theorem witness_RxFlushEmptiesFifo : { lockedState with rxFifo := [0x41] }.busy = false := rfl

/-- Both sides of the FIFO's capacity. -/
theorem witness_RxByteDelivery : { lockedState with rxFifo := List.replicate 31 0 }.rxFifo.length < 32 ∧
    32 ≤ { lockedState with rxFifo := List.replicate 32 0 }.rxFifo.length ∧
    { receivingState .raw with rxFifo := List.replicate 32 0 }.rxFifo.length = 32 ∧
    ({ quietCycle with rxValid := true } : ClockIn).rstN = true := by decide

/-- Both sides of the timeout test, where `TO` is 2000. -/
theorem witness_TickAndTimeoutTest : (∀ mode, lockedState.engine ≠ .receiving mode) ∧
    (receivingState .raw).frameTo.toNat ≤ (1999 + 1 + (2 ^ 32 - 0)) % 2 ^ 32 ∧
    (1998 + 1 + (2 ^ 32 - 0)) % 2 ^ 32 < (receivingState .raw).frameTo.toNat :=
  ⟨fun _ h => by simp [lockedState, State.reset] at h, by decide, by decide⟩

theorem witness_ReceptionEndsAtDeadlineTick : lockedState.keyLocked = true ∧ lockedState.busy = false ∧
    0 < lockedState.timeout.toNat ∧ 1999 < lockedState.timeout.toNat ∧ 1999 + 1 = lockedState.timeout.toNat := by decide

/-- No byte; a byte that ends the frame; the last byte there is room for; a byte in the middle. -/
theorem witness_FrameByteStep : { receivingState .raw with rxFifo := [] }.rxFifo = [] ∧
    (receivingState .raw).rxFifo = 0x0A :: [] ∧ endsWithTerm (rxText (receivingState .raw) ++ [0x0A]) = true ∧
    endsWithTerm (rxText (receivingState .raw) ++ [0x41]) = false ∧
    { receivingState .raw with rxLen := 545 }.rxLen.toNat + 1 = 546 ∧ (receivingState .raw).rxLen.toNat + 1 < 546 := by decide

/-- V-E2's text and CR received, LF waiting. -/
def frameState : State :=
  { receivingState .decode with mem := storeBytes [] rxBase (textE2 ++ [0x0D]), rxLen := 65 }

/-- A frame that decodes, and one that does not. -/
theorem witness_FrameDecodeStep : frameState.rxFifo = 0x0A :: [] ∧ frameState.rxLen.toNat < 546 ∧
    endsWithTerm (rxText frameState ++ [0x0A]) = true ∧
    envelopeDecrypt (keyString frameState) (rxText frameState ++ [0x0A]) = .ok [0x24, 0x3f] iva ∧
    endsWithTerm (rxText (receivingState .decode) ++ [0x0A]) = true ∧
    envelopeDecrypt (keyString (receivingState .decode)) (rxText (receivingState .decode) ++ [0x0A]) =
      .fail .malformedEnvelope := by decide +kernel

/-- The frame 0D 0A in two chunks with a tick between, and one byte after it. -/
theorem witness_FrameIndependentOfChunking :
    ∃ u, ({ receivingState .raw with rxLen := 0, rxFifo := [0x0D] }).mono = (receivingState .raw).frameStart ∧
      (∀ e ∈ [Event.engine none, .tick, .rxByte 0x0A, .rxByte 0x41], isFrameEvent e = true) ∧
      tickCount [Event.engine none, .tick, .rxByte 0x0A, .rxByte 0x41] < (receivingState .raw).frameTo.toNat ∧
      firstTermAtEnd [0x0D, 0x0A] ∧
      [0x0D] ++ delivered [Event.engine none, .tick, .rxByte 0x0A, .rxByte 0x41] = [0x0D, 0x0A] ++ [0x41] ∧
      runEvents ([Event.engine none, .tick, .rxByte 0x0A, .rxByte 0x41] ++ List.replicate 2 (.engine none))
        { receivingState .raw with rxLen := 0, rxFifo := [0x0D] } = .next u ∧ u.rxOvf = false :=
  ⟨_, rfl, by decide, by decide, ⟨rfl, by decide⟩, rfl, rfl, rfl⟩

/-- A schedule that completes the frame 0D 0A. -/
theorem witness_FrameRecvIsRawThenDecrypt : ∃ t0 t r0 r, lockedState.busy = false ∧ lockedState.keyLocked = true ∧
    exec .frameRecv lockedState = .next t0 ∧
    runEvents [.rxByte 0x0D, .engine none, .tick, .rxByte 0x0A, .engine none] t0 = .next t ∧
    exec .frameRaw lockedState = .next r0 ∧
    runEvents [.rxByte 0x0D, .engine none, .tick, .rxByte 0x0A, .engine none] r0 = .next r ∧
    r.engine = .idle ∧ r.result = .ok := ⟨_, _, _, _, rfl, rfl, rfl, rfl, rfl, rfl, rfl, rfl⟩

/-- For each command one acceptance that completes it; a completing Engine step for each running command; a timeout. -/
theorem witness_ResultCodesPerCommand :
    (after (exec .encrypt State.reset)).done = true ∧ (after (exec (.decrypt .txBuf) State.reset)).done = true ∧
    (after (exec .frameRecv State.reset)).done = true ∧
    (after (exec .frameRaw { State.reset with timeout := 0 })).done = true ∧
    (after (exec .rxFlush State.reset)).done = true ∧ (after (exec .keyLock State.reset)).done = true ∧
    (engineStep none encryptingState).busy = false ∧ (engineStep none decryptingState).busy = false ∧
    (engineStep none (receivingState .decode)).busy = false ∧ (engineStep none (receivingState .raw)).busy = false ∧
    (tickStep { receivingState .raw with mono := 1999 }).busy = false := by decide +kernel

theorem witness_CbcInverse : (List.replicate 32 (0x41 : Byte)).length % 16 = 0 := by decide

theorem witness_PaddingRule : 16 % 16 = 0 ∧ (List.replicate 15 (0x41 : Byte)).length < 16 := by decide

theorem witness_UnpaddingRule : unpad (List.replicate 15 0x41 ++ [0x10]) = some [] ∧
    (List.replicate 15 (0x41 : Byte) ++ [0x10]).getLast? = some 0x10 := by decide

theorem witness_HexDecodingRule : hexDec (ascii "3f0A") = some [0x3f, 0x0a] ∧ hexDec (ascii "3") = none ∧
    hexDec (ascii "3g") = none := by decide

theorem witness_HexTextHasNoTerminator : (0x61 : Byte) ∈ hexEnc [0x0A] ∧ (0x30 : Byte) ∈ hexEnc [0x0A] := by decide

theorem witness_RoundTrip : iva.length = 16 ∧ (List.replicate 255 (0x00 : Byte)).length ≤ 255 ∧
    { lockedState with ptLen := 255 }.busy = false ∧ { lockedState with ptLen := 255 }.keyLocked = true ∧
    { lockedState with ptLen := 255 }.ptLen.toNat ≤ 255 ∧ { lockedState with ptLen := 255 }.entropy = .idle := by
  decide +kernel

theorem witness_DecryptedLengths : textE2.length ≤ 546 ∧ envelopeDecrypt k0 textE2 = .ok [0x24, 0x3f] iva := by
  decide +kernel

/-- V-D3, V-D8 and V-D7: 31 characters, the IV alone, and a lone LF that is not stripped; a good last byte (V-E2), and a bad
one: V-E2 under the key of zeros. -/
theorem witness_EnvelopeFailures : (stripTerm (textE2.take 31)).length < 32 ∧ (stripTerm (textE2.take 32)).length = 32 ∧
    (∀ ch ∈ stripTerm (textE2.take 32), hexVal ch ≠ none) ∧ (stripTerm (textE2 ++ [0x0A])).length % 2 = 1 ∧
    ((stripTerm (textE2.take 48)).length / 2 - 16) % 16 ≠ 0 ∧ 32 < (stripTerm textE2).length ∧
    envelopeDecrypt k0 textE2 = .ok [0x24, 0x3f] iva ∧
    envelopeDecrypt (List.replicate 32 0) textE2 = .fail .invalidPadding := by
  decide +kernel

theorem witness_LockedKeyIsImmutable : ∃ t, { lockedState with inputs := [.memWrite (wordAccess 0x040) 1] }.keyLocked = true ∧
    resets (nextEvent { lockedState with inputs := [.memWrite (wordAccess 0x040) 1] }).1 = false ∧
    step { lockedState with inputs := [.memWrite (wordAccess 0x040) 1] } = .next t := ⟨_, rfl, rfl, rfl⟩

theorem witness_MonoCountsTicks : (∃ t, runEvent .tick encryptingState = .next t) ∧
    (∃ t, runEvent .reset encryptingState = .next t) ∧
    ∃ t, runEvent (.clock { quietCycle with tick := true }) encryptingState = .next t := ⟨⟨_, rfl⟩, ⟨_, rfl⟩, ⟨_, rfl⟩⟩

theorem witness_DeadlineWrittenOnlyByFrameAcceptance :
    (∃ t, runEvent (cmdWriteEvent 0x00000004) lockedState = .next t ∧ t.deadline ≠ lockedState.deadline) ∧
    ∃ t, runEvent (.clock (writeCycle 0x008 0x00000003)) lockedState = .next t ∧ t.deadline ≠ lockedState.deadline :=
  ⟨⟨_, rfl, by decide⟩, ⟨_, rfl, by decide⟩⟩

theorem witness_TxBufWrittenOnlyByEncrypt : ∃ t, runEvent (.engine (some drawA)) encryptingState = .next t ∧
    readByte t 0x400 ≠ readByte encryptingState 0x400 := ⟨_, rfl, by decide +kernel⟩

theorem witness_IvWrittenOnlyBySuccess : ∃ t, runEvent (.engine (some drawA)) encryptingState = .next t ∧
    t.iv ≠ encryptingState.iv := ⟨_, rfl, by decide +kernel⟩

/-- A clearing write of each flag, and a command that clears `DONE`. -/
theorem witness_FlagsClearedOnlyByHost :
    let s := { lockedState with cmdRejected := true, rxOvf := true, wrIgnored := true, done := true }
    resets (.memWrite (wordAccess 0x004) 0x08) = false ∧ (wr 0x004 0x08 s).cmdRejected = false ∧
    (wr 0x004 0x10 s).rxOvf = false ∧ (wr 0x004 0x20 s).wrIgnored = false ∧ (wr 0x004 0x02 s).done = false ∧
    (wr 0x008 0x01 s).done = false ∧
    (∃ t, runEvent (.clock (writeCycle 0x004 0x3A)) s = .next t ∧ t.cmdRejected = false) :=
  ⟨rfl, rfl, rfl, rfl, rfl, rfl, _, rfl, rfl⟩

theorem witness_KeyReachesOnlyCipherCommands : lockedState.engine = .idle ∧
    (receivingState .raw).engine = .receiving .raw ∧ (∃ t, runEvent (.memRead (wordAccess 0x040)) lockedState = .next t) ∧
    ∃ t, runEvent (.engine none) (receivingState .raw) = .next t := ⟨rfl, rfl, ⟨_, rfl⟩, ⟨_, rfl⟩⟩

theorem witness_StoredFrameBytesAreStable : ∃ t, (receivingState .raw).engine = .receiving .raw ∧
    runEvent (.engine none) (receivingState .raw) = .next t ∧ 0 < (receivingState .raw).rxLen.toNat ∧
    (receivingState .raw).rxLen.toNat < Config.rxCap := ⟨_, rfl, rfl, by decide, by decide⟩

theorem witness_TerminatorBeatsDeadline :
    { receivingState .raw with mono := 1999 }.rxFifo = 0x0A :: [] ∧ (receivingState .raw).rxLen.toNat < 546 ∧
    endsWithTerm (rxText { receivingState .raw with mono := 1999 } ++ [0x0A]) = true ∧
    ({ quietCycle with tick := true } : ClockIn).rstN = true ∧
    (tickStep { receivingState .raw with mono := 1999 }).result = .timeout ∧
    frameState.rxFifo = 0x0A :: [] ∧ frameState.rxLen.toNat < 546 ∧ endsWithTerm (rxText frameState ++ [0x0A]) = true ∧
    envelopeDecrypt (keyString frameState) (rxText frameState ++ [0x0A]) = .ok [0x24, 0x3f] iva := by decide +kernel

/-- One cycle for each clause: a read; a `CMD` write, a guarded write at the first and the last offset, and a W1C of `DONE` in
the cycle of the frame's end; a W1C of `RX_OVF` with a drop, idle and in EXEC; both frame commands with a tick. -/
theorem witness_SameCycleOutcomes :
    (∃ t, clockCycle { writeCycle 0x004 0 with pwrite := false } lockedState = .next t) ∧
    (∃ t, clockCycle (writeCycle 0x008 0x00000005) (receivingState .raw) = .next t ∧ t.busy = false) ∧
    (∃ t, clockCycle (writeCycle 0x000 5) (receivingState .raw) = .next t ∧ t.busy = false) ∧
    (∃ t, clockCycle (writeCycle 0xA20 5) (receivingState .raw) = .next t ∧ t.busy = false) ∧
    (∃ t, clockCycle (writeCycle 0x004 0x2) (receivingState .raw) = .next t ∧ t.busy = false) ∧
    (∃ t, clockCycle { writeCycle 0x004 0x10 with rxValid := true } { lockedState with rxFifo := List.replicate 32 0 } =
      .next t) ∧
    (∃ t, clockCycle { writeCycle 0x004 0x10 with rxValid := true }
      { encryptingState with rxFifo := List.replicate 32 0 } = .next t ∧ t.rxOvf = true) ∧
    (∃ t, clockCycle { writeCycle 0x008 (encode .frameRaw) with tick := true } { lockedState with timeout := 1 } = .next t ∧
      t.busy = false) ∧
    ∃ t, clockCycle { writeCycle 0x008 (encode .frameRecv) with tick := true } { lockedState with timeout := 2 } = .next t ∧
      lockedState.keyLocked = true ∧ t.busy = true :=
  ⟨⟨_, rfl⟩, ⟨_, rfl, rfl⟩, ⟨_, rfl, rfl⟩, ⟨_, rfl, rfl⟩, ⟨_, rfl, rfl⟩, ⟨_, rfl⟩, ⟨_, rfl, rfl⟩, ⟨_, rfl, rfl⟩,
    ⟨_, rfl, rfl, rfl⟩⟩

/-- The first and the last cycle of the wait, each answer, an answer while `ent_req` is 0, and 256 cycles without one. -/
theorem witness_EntropyWaitIsBounded : { encryptingState with entropy := .waiting 0 }.engine = .encrypting ∧
    { encryptingState with entropy := .waiting 255 }.entropy = .waiting 255 ∧ encryptingState.entropy = .idle ∧
    ({ quietCycle with entFail := true, entValid := true } : ClockIn).rstN = true ∧
    (after (clockCycle { quietCycle with entValid := true, entData := drawA }
      { encryptingState with entropy := .waiting 255 })).entropy = .answered (some drawA) ∧
    (after (clockCycle quietCycle { encryptingState with entropy := .waiting 255 })).entropy = .answered none ∧
    (after (clockCycle { quietCycle with entFail := true, engineReady := true }
      { encryptingState with entropy := .waiting 0 })).result = .randomUnavailable ∧
    (∀ c ∈ List.replicate 256 quietCycle, c.rstN = true ∧ c.entFail = false ∧ c.entValid = false) := by
  decide +kernel

/-- A held draw of each kind, and a DECRYPT, each with the engine ready and not. -/
theorem witness_ClockCycleCompletesCipherCommands :
    { encryptingState with entropy := .answered none }.entropy = .answered none ∧
    { encryptingState with entropy := .answered (some drawA) }.engine = .encrypting ∧
    encryptingState.ptLen.toNat ≤ 255 ∧ decryptingState.engine = .decrypting .rxBuf ∧
    decryptingState.rxLen.toNat ≤ 546 ∧ ({ quietCycle with engineReady := true } : ClockIn).rstN = true ∧
    quietCycle.engineReady = false ∧
    txText (after (clockCycle { quietCycle with engineReady := true }
      { encryptingState with entropy := .answered (some drawA) })) = textE2 ∧
    envelopeDecrypt (keyString { envelopeState with engine := .decrypting .txBuf })
      (srcText .txBuf { envelopeState with engine := .decrypting .txBuf }) = .ok [0x24, 0x3f] iva := by
  decide +kernel

theorem witness_IrqFollowsDone : ∃ t, { lockedState with ie := true }.busy = false ∧
    exec .rxFlush { lockedState with ie := true } = .next t ∧ (0x00000002 : Word).getLsbD 1 = true :=
  ⟨_, rfl, rfl, by decide⟩

/-- A register write with a tick and a lost byte, RX_FLUSH with a byte, ENCRYPT with its request, a frame command without a
tick. -/
theorem test_idle_write_in_a_clock_cycle : lockedState.engine = .idle ∧ supported (writeCycle 0x00C 7).access = true ∧
    (writeCycle 0x00C 7).pwrite = true ∧ (writeCycle 0x00C 7).rstN = true ∧
    (let t := after (clockCycle { writeCycle 0x00C 7 with tick := true, rxValid := true }
      { lockedState with rxFifo := List.replicate 32 0 })
     t.timeout = 7 ∧ t.mono = lockedState.mono + 1 ∧ t.rxOvf = true) ∧
    (after (clockCycle { writeCycle 0x008 (encode .rxFlush) with rxValid := true, rxData := 0x41 }
      { lockedState with rxFifo := [0x42] })).rxFifo = [0x41] ∧
    (after (clockCycle { writeCycle 0x008 (encode .encrypt) with engineReady := true } lockedState)).entropy = .waiting 0 ∧
    (after (clockCycle (writeCycle 0x008 (encode .frameRaw)) { lockedState with timeout := 2 })).engine =
      .receiving .raw := by
  decide

end Sys2Proof.Tests
end

section
/-!
How a command comes to run (R36, R101, log entry 2): the step that takes the host's write of a command's word to `CMD` is
that command's meaning.
-/
namespace Sys2Proof.Machine

/-- The next event is the first one listed (log entry 1). -/
theorem step_of_inputs_cons {s : State} {e : Event} {rest : List Event} (h : s.inputs = e :: rest) :
    step s = runEvent e { s with inputs := rest } := by
  simp only [step, nextEvent, h]

/-- A legal word written to `CMD` runs its command (R101). -/
theorem writeCmd_of_decode {w : Word} {i : Instr} (h : decode w = .ok i) (s : State) : writeCmd w s = exec i s := by
  simp only [writeCmd, h]

/-- The opcode table holds of every command (R102). -/
theorem opcodeTable_statement (i : Instr) : Laws.OpcodeTable.Statement i :=
  match i with
  | .encrypt => Laws.OpcodeTable.encrypt
  | .decrypt src => Laws.OpcodeTable.decrypt src
  | .frameRecv => Laws.OpcodeTable.frameRecv
  | .frameRaw => Laws.OpcodeTable.frameRaw
  | .rxFlush => Laws.OpcodeTable.rxFlush
  | .keyLock => Laws.OpcodeTable.keyLock

/-- Every command's word decodes to the command (R102). -/
theorem decode_encode (i : Instr) : decode (encode i) = .ok i := by
  obtain ⟨_, _, hdec⟩ := opcodeTable_statement i
  exact hdec

/-- Fetching all 32 bits of a word lists the write of that word as the next event (log entry 2). -/
theorem withFetchWord_inputs (s : State) (w : Word) :
    (s.withFetchWord 32 w.toNat).inputs = cmdWriteEvent w :: s.inputs := by
  simp only [State.withFetchWord, Nat.mod_eq_of_lt w.isLt, BitVec.ofNat_toNat, BitVec.setWidth_eq]

/-- A step whose event writes a command's word to `CMD` is the command's meaning (R36, R101). -/
theorem step_of_cmdWrite {s : State} {w : Word} {rest : List Event} {i : Instr}
    (hin : s.inputs = cmdWriteEvent w :: rest) (hdec : decode w = .ok i) :
    step s = exec i { s with inputs := rest } := by
  rw [step_of_inputs_cons hin, run_cmdWrite, writeCmd_of_decode hdec]

/-- Settles O4: the step takes the listed write, which runs the command its word decodes to; a fetched word is such a write,
and taking it off gives the state back. -/
theorem stepRunsWrittenCommand : Obligations.StepRunsWrittenCommand :=
  ⟨fun _ _ _ _ hin hdec => step_of_cmdWrite hin hdec,
    fun s i => step_of_cmdWrite (withFetchWord_inputs s (encode i)) (decode_encode i)⟩

end Sys2Proof.Machine
end

section
/-!
What a step is made of. A register write is one of a few named updates; an Engine's part, at either level, is a completion, a
byte moved, a move of the entropy handshake, or nothing; and every event but a reset is a host part, an Engine part, and the
end of a cycle (RX line, Timer, `irq` pin), each of them possibly idle. Every invariant below is proved part by part.
-/
namespace Sys2Proof.Machine

/-- What a write of the word `v` to the register `r` can do to a state (R23, R35, R44, R76, R77, R101, R105). -/
inductive WriteStep (r : Reg) (v : Word) (s : State) : State → Prop
  | ignored : WriteStep r v s s
  | dropped : WriteStep r v s (dropWrite s)
  | status (hr : r = .status) : WriteStep r v s (writeStatus v s)
  | rejected : WriteStep r v s (rejectCommand s)
  | illegal (op : BitVec 8) (hr : r = .cmd) (hb : s.busy = false) :
      WriteStep r v s (finish .illegalCommand (beginCommand op s))
  | command (i : Instr) (hr : r = .cmd) (hb : s.busy = false) (hv : decode v = .ok i) :
      WriteStep r v s (commandBody i (beginCommand (opcodeOf i) s))
  | ctrl (hb : s.busy = false) : WriteStep r v s (setCtrl v s)
  | timeout (hb : s.busy = false) : WriteStep r v s (setTimeout v s)
  | ptLen (hb : s.busy = false) : WriteStep r v s (setPtLen v s)
  | rxLen (hb : s.busy = false) : WriteStep r v s (setRxLen v s)
  | key (i : Fin 8) (hl : s.keyLocked = false) (hb : s.busy = false) : WriteStep r v s (setKey i v s)
  | buf (base k : Nat) (hb : s.busy = false) : WriteStep r v s (writeBuf base k v s)

/-- While busy a write to `CMD` is rejected, whatever the word (R77). -/
theorem writeCmd_busy (v : Word) {s : State} (hb : s.busy = true) : writeCmd v s = .next (rejectCommand s) := by
  unfold writeCmd
  split
  · exact exec_busy _ hb
  · rw [acceptIllegal, accept, hb]; rfl

/-- A write to `CMD` rejects the word, finds it illegal, or runs its command (R77, R101, R105). -/
theorem writeCmd_step {v : Word} {s t : State} (h : writeCmd v s = .next t) : WriteStep .cmd v s t := by
  cases hb : s.busy with
  | true => rw [writeCmd_busy v hb] at h; rw [← next_inj h]; exact .rejected
  | false =>
    unfold writeCmd at h
    split at h
    · rename_i i hv
      rw [exec_idle i hb] at h; rw [← next_inj h]; exact .command i rfl hb hv
    · rw [← next_inj h, acceptIllegal, accept, hb]; exact .illegal _ rfl hb

/-- A guarded write is dropped while busy, and is made while not busy (R76). -/
theorem guardedWrite_step {r : Reg} {v : Word} {s : State} {f : State → State}
    (hf : s.busy = false → WriteStep r v s (f s)) : WriteStep r v s (guardedWrite f s) := by
  cases hb : s.busy with
  | true => rw [guardedWrite_busy f hb]; exact .dropped
  | false => rw [guardedWrite_idle f hb]; exact hf hb

/-- Every register write is one of the named updates. -/
theorem writeReg_step {r : Reg} {v : Word} {s t : State} (h : writeReg r v s = .next t) : WriteStep r v s t := by
  cases r with
  | cmd => exact writeCmd_step h
  | status => rw [← next_inj h]; exact .status rfl
  | ctrl => rw [← next_inj h]; exact guardedWrite_step .ctrl
  | timeout => rw [← next_inj h]; exact guardedWrite_step .timeout
  | ptLen => rw [← next_inj h]; exact guardedWrite_step .ptLen
  | rxLen => rw [← next_inj h]; exact guardedWrite_step .rxLen
  | ptBuf k => rw [← next_inj h]; exact guardedWrite_step (.buf _ _)
  | rxBuf k => rw [← next_inj h]; exact guardedWrite_step (.buf _ _)
  | key i =>
    rw [← next_inj h]; unfold writeKey
    split
    · exact .dropped
    · rename_i hl
      exact guardedWrite_step (.key i (by simpa using hl))
  | mono | deadline | txLen | rxLevel | iv _ | txBuf _ | reserved => rw [← next_inj h]; exact .ignored

/-- The event contains a host write of `v` by the access `a`, at either level (R14, R70). -/
def HostWrites (e : Event) (a : Access) (v : Word) : Prop :=
  e = .memWrite a v ∨
    ∃ c, e = .clock c ∧ c.psel = true ∧ c.penable = true ∧ c.pwrite = true ∧ c.access = a ∧ c.pwdata = v

/-- What the host's part of an event can do: nothing but answer on the bus, a read, or a supported write. -/
inductive HostPart (e : Event) (s : State) : State → Prop
  | quiet (error : Bool) (data : Word) : HostPart e s (answerBus error data s)
  | read (error : Bool) (r : Reg) : HostPart e s (readReg r (answerBus error s.prdata s))
  | write (error : Bool) (a : Access) (v : Word) (u : State) (he : HostWrites e a v) (ha : supported a = true)
      (hu : writeReg (regOf a.addr) v (answerBus error s.prdata s) = .next u) : HostPart e s u

/-- What the Engine's part of an event can do after the host's part left the state `u`, `a` being the engine state before the
event (R17, R250). -/
inductive EnginePart (a : EngineState) (u : State) : State → Prop
  | stay : EnginePart a u u
  | entropy (p : EntropyPort) (hu : u.engine = .encrypting) (hp : ∀ n, p = .waiting n → n < Config.entWaitMax) :
      EnginePart a u (setEntropy p u)
  | encrypt (d : Option (BitVec 128)) (ha : a = .encrypting) (hu : u.engine = a) : EnginePart a u (encryptComplete d u)
  | decrypt (src : Src) (ha : a = .decrypting src) (hu : u.engine = a) : EnginePart a u (decryptComplete src u)
  | byte (mode : FrameMode) (ha : a = .receiving mode) (hu : u.engine = a) : EnginePart a u (frameByte mode u)

theorem engineStep_part (e : Option (BitVec 128)) (s : State) : EnginePart s.engine s (engineStep e s) := by
  unfold engineStep
  split
  · exact .stay
  · exact .encrypt _ ‹_› rfl
  · exact .decrypt _ ‹_› rfl
  · exact .byte _ ‹_› rfl

theorem requestEntropy_part (a : EngineState) (c : ClockIn) (u : State) : EnginePart a u (requestEntropy c u) := by
  unfold requestEntropy
  split
  · rename_i h
    simp only [Bool.and_eq_true, beq_iff_eq] at h
    exact .entropy _ h.1.2 (by rintro n ⟨⟩; decide)
  · exact .stay

theorem entropyCycle_part (c : ClockIn) {u : State} (hu : u.engine = .encrypting) :
    EnginePart .encrypting u (entropyCycle c u) := by
  refine entropyCycle_cases (EnginePart .encrypting u) c u (requestEntropy_part _ c u) (fun d => ?_)
    (fun n _ hn => .entropy _ hu (by rintro m ⟨⟩; exact hn))
  unfold takeDraw
  split
  · exact .encrypt d rfl hu
  · exact .entropy _ hu (by rintro n ⟨⟩)

theorem enginePhase_part (c : ClockIn) {a : EngineState} {u : State} (h : a ≠ .idle → u.engine = a) :
    EnginePart a u (enginePhase c a u) := by
  cases a with
  | idle => exact requestEntropy_part _ c u
  | encrypting => exact entropyCycle_part c (h (by simp))
  | decrypting src =>
    unfold enginePhase; dsimp only
    split
    · exact .decrypt src rfl (h (by simp))
    · exact .stay
  | receiving mode => exact .byte mode rfl (h (by simp))

theorem busPhase_part {c : ClockIn} {s u : State} (h : busPhase c s = .next u) : HostPart (.clock c) s u :=
  busPhase_cases (HostPart (.clock c) s) h (fun error data => .quiet error data) (fun r => .read false r)
    (fun hs ha hw t ht => .write false c.access c.pwdata t (.inr ⟨c, rfl, hs.1, hs.2, hw, rfl, rfl⟩) ha ht)

/-- What follows the Engine's part in an event: the RX line's, the Timer's, and the `irq` pin's. -/
def cycleEnd (c : ClockIn) (pin : Bool) (w : State) : State := showIrq pin (tickPhase c (rxPhase c w))

/-- The end of an event in which only the RX line and the Timer act. -/
def endInputs (rx : Option Byte) (tick : Bool) : ClockIn := { (default : ClockIn) with
  rxValid := rx.isSome, rxData := rx.getD 0, tick := tick }

/-- A reset event, at either level, is the reset (R270, R273). -/
theorem runEvent_of_resets {e : Event} {s : State} (h : resets e = true) : runEvent e s = .next (resetState s) := by
  cases e with
  | reset => rfl
  | clock c =>
    have hrst : c.rstN = false := by simpa [resets] using h
    simp [runEvent, clockCycle, hrst]
  | memRead | memWrite | engine | rxByte | tick => cases h

/-- Every event but a reset is a host part, an Engine part, and an end. -/
theorem runEvent_parts {e : Event} {s t : State} (hr : resets e = false) (h : runEvent e s = .next t) :
    ∃ u w c pin, HostPart e s u ∧ EnginePart s.engine u w ∧ t = cycleEnd c pin w ∧ c.tick = ticks e := by
  cases e with
  | memRead a =>
    simp only [runEvent, hostRead] at h
    split at h
    · exact ⟨t, t, endInputs none false, t.irqPin, next_inj h ▸ .read s.pslverr _, .stay, rfl, rfl⟩
    · cases h
  | memWrite a v =>
    simp only [runEvent, hostWrite] at h
    split at h
    · exact ⟨t, t, endInputs none false, t.irqPin, .write s.pslverr a v t (.inl rfl) ‹_› h, .stay, rfl, rfl⟩
    · cases h
  | engine d =>
    exact ⟨s, t, endInputs none false, t.irqPin, .quiet s.pslverr s.prdata, next_inj h ▸ engineStep_part d s, rfl, rfl⟩
  | rxByte b =>
    exact ⟨s, s, endInputs (some b) false, t.irqPin, .quiet s.pslverr s.prdata, .stay,
      by rw [← next_inj h]; rfl, rfl⟩
  | tick =>
    exact ⟨s, s, endInputs none true, t.irqPin, .quiet s.pslverr s.prdata, .stay, by rw [← next_inj h]; rfl, rfl⟩
  | reset => cases hr
  | clock c =>
    have hrst : c.rstN = true := by simpa [resets] using hr
    obtain ⟨u, hu, rfl⟩ := clockCycle_inv hrst h
    refine ⟨u, _, c, irq s, busPhase_part hu, enginePhase_part c (fun hne => ?_), rfl, by simp [ticks, hrst]⟩
    rw [busPhase_busy hu (busy_eq_true.2 hne)]

end Sys2Proof.Machine
end

section
/-!
The invariant (O8, O9). `BaseInv` is the part that speaks of every engine state; a state that is idle, with no entropy
handshake, needs no more. So a completion is shown once, and only the running states carry their own clauses.
-/
namespace Sys2Proof.Machine

/-- The clauses of `StateInv` that hold whatever the engine does. -/
structure BaseInv (s : State) : Prop where
  memWf : Memory.wf s.mem = true
  fifo : s.rxFifo.length ≤ Config.rxFifoDepth
  txLen : txLenLegal s.txLen.toNat
  deadline : s.deadline = s.frameStart + s.frameTo
  locked : s.keyLocked = true → s.keyWmask = 0xFF

theorem StateInv.base {s : State} (h : StateInv s) : BaseInv s := ⟨h.memWf, h.fifo, h.txLen, h.deadline, h.locked⟩

/-- The handshake serves a running ENCRYPT only (R176). -/
theorem StateInv.entropy_idle {s : State} (h : StateInv s) (hs : s.engine ≠ .encrypting) : s.entropy = .idle :=
  Classical.byContradiction fun he => hs (h.entropy he)

theorem BaseInv.idle {s : State} (h : BaseInv s) (hs : s.engine = .idle) (he : s.entropy = .idle) : StateInv s where
  memWf := h.memWf
  fifo := h.fifo
  txLen := h.txLen
  deadline := h.deadline
  locked := h.locked
  running := by simp [hs, runningOp]
  encrypting := by simp [hs]
  decrypting := by simp [hs]
  receiving := by simp [hs]
  decoding := by simp [hs]
  entropy := absurd he
  waiting := by simp [he]

/-- A completion meets the invariant when the handshake is over (R15). -/
theorem BaseInv.finish {s : State} (code : ResultCode) (h : BaseInv s) (he : s.entropy = .idle) :
    StateInv (finish code s) :=
  BaseInv.idle ⟨h.memWf, h.fifo, h.txLen, h.deadline, h.locked⟩ rfl he

/-- Flags, bus outputs, and the model's bookkeeping are no part of the invariant, but that `DONE` may not rise. -/
theorem StateInv.of_flags {s t : State} (h : StateInv s) (hd : t.done = true → s.done = true)
    (ht : t = { s with
      done := t.done, cmdRejected := t.cmdRejected, rxOvf := t.rxOvf, wrIgnored := t.wrIgnored, irqPin := t.irqPin,
      prdata := t.prdata, pslverr := t.pslverr, inputs := t.inputs, draws := t.draws,
      epoch := t.epoch }) : StateInv t := by
  have hrun : ∀ op, runningOp s.engine = some op → t.done = false ∧ s.result = .none ∧ s.lastOp = op := fun op hop =>
    have ⟨h1, h2⟩ := h.running op hop
    ⟨Bool.eq_false_iff.2 fun h3 => by simp [hd h3] at h1, h2⟩
  rw [ht]
  exact { h with running := hrun }

/-! The host's part. -/

theorem beginCommand_base {s : State} (op : BitVec 8) (h : BaseInv s) : BaseInv (beginCommand op s) :=
  ⟨h.memWf, h.fifo, h.txLen, h.deadline, h.locked⟩

theorem clearPtLen_base {s : State} (h : BaseInv s) : BaseInv (clearPtLen s) :=
  ⟨h.memWf, h.fifo, h.txLen, h.deadline, h.locked⟩

theorem clearTxLen_base {s : State} (h : BaseInv s) : BaseInv (clearTxLen s) :=
  ⟨h.memWf, h.fifo, .inl rfl, h.deadline, h.locked⟩

/-- Frame acceptance leaves a reception with all its room and all its time (R205). -/
theorem frameAccept_inv {mode : FrameMode} {s : State} (h : BaseInv s) (he : s.entropy = .idle) (hd : s.done = false)
    (hres : s.result = .none) (hop : runningOp (.receiving mode) = some s.lastOp)
    (hdec : mode = .decode → s.keyLocked = true ∧ s.ptLen = 0) : StateInv (frameAccept mode s) := by
  have hl : BaseInv (latchFrame s) := ⟨h.memWf, h.fifo, h.txLen, rfl, h.locked⟩
  unfold frameAccept
  split
  · exact hl.finish _ he
  · rename_i hto
    refine ⟨hl.memWf, hl.fifo, hl.txLen, hl.deadline, hl.locked, fun op h1 => ⟨hd, hres, ?_⟩, nofun, nofun,
      fun m _ => ⟨?_, ?_⟩, fun h1 => hdec ?_, absurd he, fun n h1 => ?_⟩
    · exact Option.some.inj (hop.symm.trans h1)
    · simp [Config.rxCap]
    · simpa [BitVec.lt_def, Nat.pos_iff_ne_zero, BitVec.toNat_eq] using hto
    · simpa using h1
    · exact nomatch he.symm.trans h1

/-- A command accepted in an idle state meets the invariant, completed or running. -/
theorem commandBody_inv {s : State} (i : Instr) (h : StateInv s) (hs : s.engine = .idle) :
    StateInv (commandBody i (beginCommand (opcodeOf i) s)) := by
  have hb := beginCommand_base (opcodeOf i) h.base
  have he : (beginCommand (opcodeOf i) s).entropy = .idle := h.entropy_idle (by simp [hs])
  cases i with
  | encrypt =>
    simp only [commandBody, encryptBody]
    split
    · exact (clearTxLen_base hb).finish _ he
    · split
      · exact (clearTxLen_base hb).finish _ he
      · rename_i hk hl
        refine ⟨hb.memWf, hb.fifo, hb.txLen, hb.deadline, hb.locked, ?_, fun _ => ⟨by simpa using hk, by simpa using hl⟩,
          nofun, nofun, nofun, fun _ => rfl, fun n h1 => nomatch he.symm.trans h1⟩
        rintro op ⟨⟩; exact ⟨rfl, rfl, rfl⟩
  | decrypt src =>
    simp only [commandBody, decryptBody]
    split
    · exact (clearPtLen_base hb).finish _ he
    · split
      · exact (clearPtLen_base hb).finish _ he
      · rename_i hk hl
        refine ⟨hb.memWf, hb.fifo, hb.txLen, hb.deadline, hb.locked, ?_, nofun, ?_, nofun, nofun, absurd he,
          fun n h1 => nomatch he.symm.trans h1⟩
        · rintro op ⟨⟩; exact ⟨rfl, rfl, rfl⟩
        · rintro _ ⟨⟩; exact ⟨by simpa using hk, by cases src <;> exact Nat.le_of_not_gt hl⟩
  | frameRecv =>
    simp only [commandBody, frameRecvBody]
    split
    · exact (clearPtLen_base hb).finish _ he
    · rename_i hk
      exact frameAccept_inv (clearPtLen_base hb) he rfl rfl rfl fun _ => ⟨by simpa using hk, rfl⟩
  | frameRaw => exact frameAccept_inv hb he rfl rfl rfl nofun
  | rxFlush =>
    exact BaseInv.finish .ok (s := emptyFifo _) ⟨hb.memWf, Nat.zero_le _, hb.txLen, hb.deadline, hb.locked⟩ he
  | keyLock =>
    simp only [commandBody, keyLockBody]
    split
    · exact hb.finish _ he
    · split
      · rename_i hm
        exact BaseInv.finish .ok (s := lockKey _) ⟨hb.memWf, hb.fifo, hb.txLen, hb.deadline, fun _ => hm⟩ he
      · exact hb.finish _ he

theorem writeReg_inv {r : Reg} {v : Word} {s t : State} (h : StateInv s) (hw : writeReg r v s = .next t) :
    StateInv t := by
  have hidle : s.busy = false → s.engine = .idle := busy_eq_false.1
  have hent : s.busy = false → s.entropy = .idle := fun hb => h.entropy_idle (by simp [hidle hb])
  cases writeReg_step hw with
  | ignored => exact h
  | dropped => exact h.of_flags id rfl
  | status => exact h.of_flags (fun hd => by simp_all) rfl
  | rejected => exact h.of_flags id rfl
  | illegal op hr hb => exact (beginCommand_base op h.base).finish _ (hent hb)
  | command i hr hb => exact commandBody_inv i h (hidle hb)
  | ctrl hb | timeout hb | ptLen hb | rxLen hb =>
    exact BaseInv.idle ⟨h.memWf, h.fifo, h.txLen, h.deadline, h.locked⟩ (hidle hb) (hent hb)
  | key i hl hb =>
    exact BaseInv.idle ⟨h.memWf, h.fifo, h.txLen, h.deadline, fun hk => by simp_all⟩ (hidle hb) (hent hb)
  | buf base k hb =>
    exact BaseInv.idle ⟨storeBytes_wf _ _ h.memWf, h.fifo, h.txLen, h.deadline, h.locked⟩ (hidle hb) (hent hb)

theorem hostPart_inv {e : Event} {s u : State} (h : StateInv s) (hu : HostPart e s u) : StateInv u := by
  cases hu with
  | quiet => exact h.of_flags id rfl
  | read => exact h.of_flags id rfl
  | write error a v u he ha hw =>
    exact writeReg_inv (s := answerBus error s.prdata s) (h.of_flags id rfl) hw

/-! The Engine's part. -/

/-- The length of an envelope is a legal `TX_LEN` (R41, R173). -/
theorem txLenLegal_envelope {n : Nat} (term : Bool) (h : n ≤ Config.maxPt) :
    txLenLegal (32 + 32 * (n / 16 + 1) + 2 * term.toNat) := by
  simp only [Config.maxPt] at h
  refine .inr ⟨n / 16 + 2, by omega, by omega, ?_⟩
  cases term
  · left; simp; omega
  · right; simp; omega

theorem encryptComplete_inv {d : Option (BitVec 128)} {s : State} (h : StateInv s) (hs : s.engine = .encrypting) :
    StateInv (encryptComplete d s) := by
  obtain ⟨-, hlen⟩ := h.encrypting hs
  have hb := h.base
  cases d with
  | none => exact BaseInv.finish _ (s := clearTxLen _) ⟨hb.memWf, hb.fifo, .inl rfl, hb.deadline, hb.locked⟩ rfl
  | some d =>
    refine BaseInv.finish _ (s := putEnvelope _ _ _) ⟨storeBytes_wf _ _ hb.memWf, hb.fifo, ?_, hb.deadline, hb.locked⟩ rfl
    rw [(putEnvelope_reads _ (envelope_fits d hlen)).1, envelopeEncrypt_length, bytesOfDraw_length, ptText_length]
    exact txLenLegal_envelope s.txTerm hlen

theorem finishDecrypt_inv (r : EnvelopeResult) {s : State} (h : BaseInv s) (he : s.entropy = .idle) :
    StateInv (finishDecrypt r s) := by
  cases r with
  | ok p iv =>
    exact BaseInv.finish _ (s := putPlaintext _ _ _)
      ⟨storeBytes_wf _ _ h.memWf, h.fifo, h.txLen, h.deadline, h.locked⟩ he
  | fail code => exact (clearPtLen_base h).finish _ he

/-- A byte taken leaves room for the next, or ends the frame (R206). -/
theorem frameByte_inv {mode : FrameMode} {s : State} (h : StateInv s) (hs : s.engine = .receiving mode) :
    StateInv (frameByte mode s) := by
  have he := h.entropy_idle (by simp [hs])
  obtain ⟨hroom, htime⟩ := h.receiving mode hs
  unfold frameByte
  split
  · exact h
  · rename_i b rest hf
    have hfifo : rest.length ≤ Config.rxFifoDepth := by have := h.fifo; simp [hf] at this; omega
    have hb : BaseInv (takeByte b rest s) := ⟨storeByte_wf _ _ h.memWf, hfifo, h.txLen, h.deadline, h.locked⟩
    unfold afterByte
    split
    · cases mode with
      | decode => exact finishDecrypt_inv _ hb he
      | raw => exact hb.finish _ he
    · split
      · exact hb.finish _ he
      · rename_i hfull
        rw [takeByte_rxLen, rxLen_succ hroom] at hfull
        refine ⟨hb.memWf, hb.fifo, hb.txLen, hb.deadline, hb.locked, h.running, h.encrypting, fun src h1 => ?_,
          fun m _ => ⟨?_, htime⟩, h.decoding, h.entropy, h.waiting⟩
        · exact nomatch hs.symm.trans h1
        · rw [takeByte_rxLen, rxLen_succ hroom]; omega

theorem enginePart_inv {a : EngineState} {u w : State} (h : StateInv u) (hw : EnginePart a u w) : StateInv w := by
  cases hw with
  | stay => exact h
  | entropy p hu hp =>
    exact ⟨h.memWf, h.fifo, h.txLen, h.deadline, h.locked, h.running, h.encrypting, h.decrypting, h.receiving,
      h.decoding, fun _ => hu, hp⟩
  | encrypt d ha hu => exact encryptComplete_inv h (hu.trans ha)
  | decrypt src ha hu => exact finishDecrypt_inv _ h.base (h.entropy_idle (by simp [hu, ha]))
  | byte mode ha hu => exact frameByte_inv h (hu.trans ha)

/-! The end of a cycle. -/

theorem rxDeliver_inv {s : State} (b : Byte) (h : StateInv s) : StateInv (rxDeliver b s) := by
  unfold rxDeliver
  split
  · refine { h with fifo := ?_ }
    simp; omega
  · exact h.of_flags id rfl

/-- A tick ends a reception, or leaves it time (R204). -/
theorem tickStep_inv {s : State} (h : StateInv s) : StateInv (tickStep s) := by
  have hb : BaseInv (countTick s) := ⟨h.memWf, h.fifo, h.txLen, h.deadline, h.locked⟩
  have hidle : s.engine ≠ .encrypting → (countTick s).entropy = .idle := h.entropy_idle
  unfold tickStep timeoutTest
  split
  · rename_i mode hs
    split
    · exact hb.finish _ (hidle (by simp [hs]))
    · rename_i htime
      exact { h with receiving := fun m hm => ⟨(h.receiving m hm).1, by simpa using htime⟩ }
  all_goals
    rename_i hs
    exact { h with receiving := fun m hm => nomatch hs.symm.trans hm }

theorem cycleEnd_inv {w : State} (c : ClockIn) (pin : Bool) (h : StateInv w) : StateInv (cycleEnd c pin w) := by
  have hrx : StateInv (rxPhase c w) := by
    unfold rxPhase; split
    · exact rxDeliver_inv _ h
    · exact h
  have htick : StateInv (tickPhase c (rxPhase c w)) := by
    unfold tickPhase; split
    · exact tickStep_inv hrx
    · exact hrx
  exact htick.of_flags id rfl

/-! Reset, and every step. -/

theorem reset_inv : StateInv State.reset :=
  BaseInv.idle ⟨reset_mem_wf, by decide, .inl rfl, by decide, by decide⟩ rfl rfl

theorem resetState_inv (s : State) : StateInv (resetState s) := reset_inv.of_flags id rfl

theorem runEvent_inv {e : Event} {s t : State} (h : StateInv s) (ht : runEvent e s = .next t) : StateInv t := by
  cases hr : resets e with
  | true => rw [runEvent_of_resets hr] at ht; rw [← next_inj ht]; exact resetState_inv s
  | false =>
    obtain ⟨u, w, c, pin, hu, hw, rfl, -⟩ := runEvent_parts hr ht
    exact cycleEnd_inv c pin (enginePart_inv (hostPart_inv h hu) hw)

/-- Settles O8: the reset state is idle, with empty buffers and FIFO, `TX_LEN` 0 and the key unlocked. -/
theorem resetMeetsInvariant : Obligations.ResetMeetsInvariant := reset_inv

/-- Settles O9: taking the next event off the list changes bookkeeping only, and every part of an event keeps the invariant. -/
theorem stepKeepsInvariant : Obligations.StepKeepsInvariant := by
  intro s t h ht
  have hnext : StateInv (nextEvent s).2 := by
    unfold nextEvent; split <;> exact h.of_flags id rfl
  exact runEvent_inv hnext ht

end Sys2Proof.Machine
end

section
/-!
What no event but a reset changes, and which part of an event changes what (O48 to O53): frame lemmas for the three parts, then
each rule of the whole machine from them.
-/
namespace Sys2Proof.Machine

/-! What the parts of an event leave unchanged. -/

/-- What a command's acceptance part may write (R104). -/
theorem commandBody_frame (i : Instr) (s : State) :
    commandBody i s = { s with
      engine := (commandBody i s).engine, done := (commandBody i s).done, result := (commandBody i s).result,
      keyLocked := (commandBody i s).keyLocked, ptLen := (commandBody i s).ptLen, txLen := (commandBody i s).txLen,
      rxLen := (commandBody i s).rxLen, deadline := (commandBody i s).deadline,
      frameStart := (commandBody i s).frameStart, frameTo := (commandBody i s).frameTo,
      rxFifo := (commandBody i s).rxFifo } := by
  cases i <;>
    simp only [commandBody, encryptBody, decryptBody, frameRecvBody, frameAccept, rxFlushBody, keyLockBody] <;>
    (repeat' split) <;> rfl

/-- What an Engine's part may write. -/
theorem enginePart_frame {a : EngineState} {u w : State} (h : EnginePart a u w) :
    w = { u with
      engine := w.engine, done := w.done, result := w.result, ptLen := w.ptLen, txLen := w.txLen, iv := w.iv,
      mem := w.mem, rxFifo := w.rxFifo, rxLen := w.rxLen, entropy := w.entropy } := by
  cases h with
  | stay => rfl
  | entropy => rfl
  | encrypt d => rw [encryptComplete_frame]
  | decrypt src => rw [decryptComplete, finishDecrypt_frame]
  | byte mode => rw [frameByte_frame]

/-- What the end of an event may write. -/
theorem cycleEnd_writes (c : ClockIn) (pin : Bool) (w : State) :
    cycleEnd c pin w = { w with
      irqPin := pin, rxFifo := (rxPhase c w).rxFifo, rxOvf := (rxPhase c w).rxOvf,
      mono := if c.tick then w.mono + 1 else w.mono, engine := (cycleEnd c pin w).engine,
      done := (cycleEnd c pin w).done, result := (cycleEnd c pin w).result } := by
  simp only [cycleEnd]
  rw [tickPhase_frame, rxPhase_frame]
  rfl

/-- The host's part changes neither `MONO` nor the IV nor the reset count (R38, R45). -/
theorem hostPart_keeps {e : Event} {s u : State} (h : HostPart e s u) :
    u.mono = s.mono ∧ u.iv = s.iv ∧ u.epoch = s.epoch := by
  cases h with
  | quiet => exact ⟨rfl, rfl, rfl⟩
  | read => exact ⟨rfl, rfl, rfl⟩
  | write error a v u he ha hu => exact writeReg_keeps (s := answerBus error s.prdata s) hu

/-- Where no reception runs, the end of an event leaves the engine, the result and the handshake alone (R203). -/
theorem cycleEnd_keeps {w : State} (c : ClockIn) (pin : Bool) (h : ∀ mode, w.engine ≠ .receiving mode) :
    (cycleEnd c pin w).engine = w.engine ∧ (cycleEnd c pin w).result = w.result ∧
      (cycleEnd c pin w).entropy = w.entropy := by
  have hrx : (rxPhase c w).engine = w.engine ∧ (rxPhase c w).result = w.result ∧ (rxPhase c w).entropy = w.entropy := by
    rw [rxPhase_frame]; exact ⟨rfl, rfl, rfl⟩
  simp only [cycleEnd, tickPhase]
  split
  · unfold tickStep
    split
    · rename_i mode hm; exact absurd (hrx.1.symm.trans hm) (h mode)
    all_goals exact hrx
  · exact hrx

/-- Which register an access must address to reach `CMD` or `STATUS` (R22, R72). -/
theorem access_of_regOf {a : Access} (ha : supported a = true) :
    (regOf a.addr = .cmd → a = wordAccess cmdOffset) ∧ (regOf a.addr = .status → a = wordAccess 0x004) := by
  obtain ⟨off, strb⟩ := a
  obtain rfl : strb = 0b1111 := ((supported_iff _).1 ha).2
  by_cases hhigh : 0x040 ≤ off.toNat
  · rw [regOf_high hhigh]
    repeat' split
    all_goals simp
  · simp only [regOf, if_pos (Nat.lt_of_not_le hhigh)]
    repeat' split
    all_goals simp [wordAccess, cmdOffset, BitVec.toNat_eq, *]

/-! The key (O48). -/

theorem keyLocked_commandBody (i : Instr) {s : State} (h : s.keyLocked = true) : (commandBody i s).keyLocked = true := by
  cases i <;>
    simp only [commandBody, encryptBody, decryptBody, frameRecvBody, frameAccept, rxFlushBody, keyLockBody] <;>
    (repeat' split) <;> simp [h]

/-- The key registers, their written bits and the lock are those of a locked state `s`. -/
def SameKey (s t : State) : Prop := t.keyLocked = true ∧ t.key = s.key ∧ t.keyWmask = s.keyWmask

/-- A register write to a locked machine keeps the key (R44, R171). -/
theorem writeStep_sameKey {r : Reg} {v : Word} {s u : State} (hs : s.keyLocked = true) (h : WriteStep r v s u) :
    SameKey s u := by
  cases h with
  | key i hl => exact absurd hs (by simp [hl])
  | command i =>
    exact ⟨keyLocked_commandBody i hs, by rw [commandBody_frame]; rfl, by rw [commandBody_frame]; rfl⟩
  | ignored | dropped | status | rejected | illegal | ctrl | timeout | ptLen | rxLen | buf => exact ⟨hs, rfl, rfl⟩

theorem hostPart_sameKey {e : Event} {s u : State} (hs : s.keyLocked = true) (h : HostPart e s u) : SameKey s u := by
  cases h with
  | quiet | read => exact ⟨hs, rfl, rfl⟩
  | write error a v u he ha hu => exact writeStep_sameKey (s := answerBus error s.prdata s) hs (writeReg_step hu)

theorem runEvent_sameKey {e : Event} {s t : State} (hs : s.keyLocked = true) (hr : resets e = false)
    (h : runEvent e s = .next t) : SameKey s t := by
  obtain ⟨u, w, c, pin, hu, hw, rfl, -⟩ := runEvent_parts hr h
  have hkey := hostPart_sameKey hs hu
  rw [cycleEnd_writes, enginePart_frame hw]
  exact hkey

/-- Settles O48: a write of a locked key is dropped, no command clears the lock, and no other part of an event has the key in
its frame. -/
theorem lockedKeyIsImmutable : Obligations.LockedKeyIsImmutable := by
  intro s t hs hr ht
  have hnext : SameKey s (nextEvent s).2 := by unfold nextEvent; split <;> exact ⟨hs, rfl, rfl⟩
  obtain ⟨hl, hk, hm⟩ := runEvent_sameKey hnext.1 hr ht
  exact ⟨hl, hk.trans hnext.2.1, hm.trans hnext.2.2⟩

/-! `MONO` (O49). -/

/-- Settles O49: a reset clears `MONO`; of the parts of any other event only the Timer's writes it. -/
theorem monoCountsTicks : Obligations.MonoCountsTicks := by
  intro e s t h
  cases hr : resets e with
  | true => rw [runEvent_of_resets hr] at h; rw [← next_inj h]; rfl
  | false =>
    obtain ⟨u, w, c, pin, hu, hw, rfl, htick⟩ := runEvent_parts hr h
    obtain ⟨hmono, -, -⟩ := hostPart_keeps hu
    rw [cycleEnd_writes, enginePart_frame hw, ← htick, ← hmono]
    rfl

/-! `DEADLINE` (O50). -/

/-- The fields of a word are the word (R100). -/
theorem fieldsWord_wordFields (w : Word) : fieldsWord (wordFields w) = w := by
  simp only [fieldsWord, wordFields]
  rw [BitVec.extractLsb'_append_extractLsb'_eq_extractLsb' (by rfl),
    BitVec.extractLsb'_append_extractLsb'_eq_extractLsb' (by rfl)]
  exact BitVec.extractLsb'_eq_self

theorem encodeSrc_decodeSrc (b : BitVec 1) : encodeSrc (decodeSrc b) = b := by
  revert b; decide

/-- A word that decodes to a command is that command's word (R102). -/
theorem encode_of_decode {w : Word} {i : Instr} (h : decode w = .ok i) : w = encode i := by
  rw [← fieldsWord_wordFields w, encode]
  congr 1
  unfold decode at h
  generalize wordFields w = c at h ⊢
  obtain ⟨op, src, rsvd⟩ := c
  simp only at h
  repeat' split at h
  all_goals cases h
  all_goals simp_all [CmdWord.rsvdOk, CmdWord.srcOk, instrFields, encodeSrc_decodeSrc]

/-- Of the commands only a frame command's acceptance writes `DEADLINE` (R205). -/
theorem commandBody_deadline (i : Instr) (s : State) (h : (commandBody i s).deadline ≠ s.deadline) :
    (i = .frameRecv ∨ i = .frameRaw) ∧ (commandBody i s).deadline = s.mono + s.timeout := by
  have hframe : ∀ mode t, (frameAccept mode t).deadline = t.mono + t.timeout := by
    intro mode t; unfold frameAccept; split <;> rfl
  cases i with
  | frameRecv =>
    refine ⟨.inl rfl, ?_⟩
    simp only [commandBody, frameRecvBody] at h ⊢
    split at h
    · exact absurd rfl h
    · rw [if_neg ‹_›, hframe]; rfl
  | frameRaw => exact ⟨.inr rfl, hframe _ _⟩
  | encrypt | decrypt src | rxFlush | keyLock =>
    refine absurd ?_ h
    simp only [commandBody, encryptBody, decryptBody, rxFlushBody, keyLockBody]
    repeat' split
    all_goals rfl

/-- Settles O50: only the host's part has `DEADLINE` in its frame, there only an acceptance, and of those only a frame
command's. -/
theorem deadlineWrittenOnlyByFrameAcceptance : Obligations.DeadlineWrittenOnlyByFrameAcceptance := by
  intro e s t hr h hne
  obtain ⟨u, w, c, pin, hu, hw, rfl, -⟩ := runEvent_parts hr h
  have heq : (cycleEnd c pin w).deadline = u.deadline := by rw [cycleEnd_writes, enginePart_frame hw]
  rw [heq] at hne ⊢
  cases hu with
  | quiet | read => exact absurd rfl hne
  | write error a v u he ha hu =>
    cases writeReg_step hu with
    | command i hreg hb hv =>
      obtain ⟨hi, hdl⟩ := commandBody_deadline i _ hne
      obtain rfl := (access_of_regOf ha).1 hreg
      exact ⟨hb, hdl, v, encode_of_decode hv ▸ hi.imp (congrArg encode) (congrArg encode), he⟩
    | ignored | dropped | status | rejected | illegal | ctrl | timeout | ptLen | rxLen | key | buf => exact absurd rfl hne

/-! `TX_BUF` and the IV (O51, O52): a change is seen in the Engine's part, and it ends in a completion with `OK`. -/

/-- A decryption changes the IV only with `OK` (R183). -/
theorem finishDecrypt_iv {r : EnvelopeResult} {s : State} (h : (finishDecrypt r s).iv ≠ s.iv) :
    (finishDecrypt r s).engine = .idle ∧ (finishDecrypt r s).result = .ok := by
  cases r with
  | ok p iv => exact ⟨rfl, rfl⟩
  | fail code => exact absurd rfl h

/-- An encryption changes memory and the IV only with `OK` (R177, R178). -/
theorem encryptComplete_ok {d : Option (BitVec 128)} {s : State}
    (h : (encryptComplete d s).mem ≠ s.mem ∨ (encryptComplete d s).iv ≠ s.iv) :
    (encryptComplete d s).engine = .idle ∧ (encryptComplete d s).result = .ok := by
  cases d with
  | some d => exact ⟨rfl, rfl⟩
  | none => exact h.elim (absurd rfl) (absurd rfl)

/-- A byte taken changes the IV only where it completes a FRAME_RECV with `OK` (R208). -/
theorem frameByte_iv {mode : FrameMode} {s : State} (h : (frameByte mode s).iv ≠ s.iv) :
    mode = .decode ∧ (frameByte mode s).engine = .idle ∧ (frameByte mode s).result = .ok := by
  unfold frameByte at h ⊢
  split at h
  · exact absurd rfl h
  · simp only [afterByte] at h ⊢
    split at h
    · rw [if_pos ‹_›]
      cases mode with
      | decode => exact ⟨rfl, finishDecrypt_iv h⟩
      | raw => exact absurd rfl h
    · split at h <;> exact absurd rfl h

theorem enginePart_iv {a : EngineState} {u w : State} (hw : EnginePart a u w) (h : w.iv ≠ u.iv) :
    (a = .encrypting ∨ (∃ src, a = .decrypting src) ∨ a = .receiving .decode) ∧ w.engine = .idle ∧
      w.result = .ok := by
  cases hw with
  | stay | entropy => exact absurd rfl h
  | encrypt d ha => exact ⟨.inl ha, encryptComplete_ok (.inr h)⟩
  | decrypt src ha => exact ⟨.inr (.inl ⟨src, ha⟩), finishDecrypt_iv h⟩
  | byte mode ha =>
    obtain ⟨rfl, hdone⟩ := frameByte_iv h
    exact ⟨.inr (.inr ha), hdone⟩

/-- Settles O52: the host and the end of a cycle leave the IV, so the Engine's part changed it, and what completed stays
completed. -/
theorem ivWrittenOnlyBySuccess : Obligations.IvWrittenOnlyBySuccess := by
  intro e s t hr h hne
  obtain ⟨u, w, c, pin, hu, hw, rfl, -⟩ := runEvent_parts hr h
  have hiv : w.iv ≠ u.iv := by rw [cycleEnd_writes] at hne; rwa [(hostPart_keeps hu).2.1]
  obtain ⟨hrun, hidle, hok⟩ := enginePart_iv hw hiv
  obtain ⟨heng, hres, -⟩ := cycleEnd_keeps c pin (w := w) (by simp [hidle])
  exact ⟨hrun, heng.trans hidle, hres.trans hok⟩

/-- The text of a DECRYPT or of a frame is short enough for its plaintext to stay below `TX_BUF` (R46, R182). -/
theorem srcText_length_lt (src : Src) (s : State) : (srcText src s).length < 1024 := by
  cases src <;> simp only [srcText, rxText_length, txText_length] <;> exact BitVec.isLt _

/-- A byte taken leaves `TX_BUF` alone: it goes to `RX_BUF`, and a plaintext to `PT_BUF` (R206, R208). -/
theorem readByte_frameByte_tx (mode : FrameMode) (s : State) {off : Nat} (h1 : txBase ≤ off)
    (h2 : off < txBase + Config.txCap) : readByte (frameByte mode s) off = readByte s off := by
  unfold frameByte
  split
  · rfl
  · rename_i b rest _
    have htake : readByte (takeByte b rest s) off = readByte s off :=
      readByte_takeByte_ne b rest s (by simp only [txBase, Config.txCap, rxBase] at *; omega)
    unfold afterByte
    split
    · cases mode with
      | decode => exact (finishDecrypt_far _ (srcText_length_lt .rxBuf _) h1).trans htake
      | raw => exact htake
    · split <;> exact htake

theorem enginePart_tx {a : EngineState} {u w : State} (hw : EnginePart a u w) {off : Nat} (h1 : txBase ≤ off)
    (h2 : off < txBase + Config.txCap) (h : readByte w off ≠ readByte u off) :
    a = .encrypting ∧ w.engine = .idle ∧ w.result = .ok := by
  cases hw with
  | stay | entropy => exact absurd rfl h
  | encrypt d ha =>
    exact ⟨ha, encryptComplete_ok (.inl fun hm => h (readByte_congr hm (by rw [encryptComplete_frame]) off))⟩
  | decrypt src => exact absurd (finishDecrypt_far u (srcText_length_lt src u) h1) h
  | byte mode => exact absurd (readByte_frameByte_tx mode u h1 h2) h

/-- The host's part leaves `TX_BUF` alone (R47, R76). -/
theorem readByte_hostPart_tx {e : Event} {s u : State} (hu : HostPart e s u) {off : Nat} (h1 : txBase ≤ off)
    (h2 : off < txBase + Config.txCap) : readByte u off = readByte s off := by
  have hepoch : u.epoch = s.epoch := (hostPart_keeps hu).2.2
  cases hu with
  | quiet | read => rfl
  | write error a v u he ha hw =>
    obtain hm | ⟨-, base, k, hbase, hm⟩ := writeReg_mem hw
    · exact readByte_congr hm hepoch off
    · rw [readByte, hm, hepoch]
      refine loadByte_storeBytes_outside s.mem s.epoch (bytesOfWord v) ?_
      simp only [bytesOfWord, List.length_cons, List.length_nil, txBase, Config.txCap, ptBase, rxBase] at *
      omega

/-- Settles O51: the host and the end of a cycle leave `TX_BUF`, so the Engine's part changed it, and what completed stays
completed. -/
theorem txBufWrittenOnlyByEncrypt : Obligations.TxBufWrittenOnlyByEncrypt := by
  intro e s t off hr h h1 h2 hne
  obtain ⟨u, w, c, pin, hu, hw, rfl, -⟩ := runEvent_parts hr h
  have hbyte : readByte w off ≠ readByte u off := by
    rw [cycleEnd_writes] at hne; rwa [readByte_hostPart_tx hu h1 h2]
  obtain ⟨hrun, hidle, hok⟩ := enginePart_tx hw h1 h2 hbyte
  obtain ⟨heng, hres, -⟩ := cycleEnd_keeps c pin (w := w) (by simp [hidle])
  exact ⟨hrun, heng.trans hidle, hres.trans hok⟩

/-! The sticky flags (O53). -/

/-- A register write clears a flag only as a write of 1 to its bit of `STATUS`, and `DONE` also as a `CMD` write while not busy
(R35, R55). -/
theorem writeStep_clears {r : Reg} {v : Word} {s u : State} (h : WriteStep r v s u) :
    (s.cmdRejected = true → u.cmdRejected = false → r = .status ∧ v.getLsbD 3 = true) ∧
    (s.rxOvf = true → u.rxOvf = false → r = .status ∧ v.getLsbD 4 = true) ∧
    (s.wrIgnored = true → u.wrIgnored = false → r = .status ∧ v.getLsbD 5 = true) ∧
    (s.done = true → u.done = false →
      (r = .status ∧ v.getLsbD 1 = true) ∨ (r = .cmd ∧ s.busy = false)) := by
  cases h with
  | status hr => simp +contextual [hr]
  | command i hr hb => rw [commandBody_frame]; simp +contextual [hr, hb]
  | illegal op hr hb => simp +contextual [hr, hb]
  | ignored | dropped | rejected | ctrl | timeout | ptLen | rxLen | key | buf => simp +contextual

/-- What a step of the machine's own may not do to the sticky flags: clear them (R27, R29, R30, R31). -/
structure FlagsKept (s t : State) : Prop where
  done : s.done = true → t.done = true
  cmdRejected : s.cmdRejected = true → t.cmdRejected = true
  rxOvf : s.rxOvf = true → t.rxOvf = true
  wrIgnored : s.wrIgnored = true → t.wrIgnored = true

theorem FlagsKept.refl (s : State) : FlagsKept s s := ⟨id, id, id, id⟩

theorem FlagsKept.trans {s t u : State} (h1 : FlagsKept s t) (h2 : FlagsKept t u) : FlagsKept s u :=
  ⟨h2.done ∘ h1.done, h2.cmdRejected ∘ h1.cmdRejected, h2.rxOvf ∘ h1.rxOvf, h2.wrIgnored ∘ h1.wrIgnored⟩

/-- A completion sets `DONE` and leaves the other flags (R15). -/
theorem finish_flagsKept (code : ResultCode) (s : State) : FlagsKept s (finish code s) := ⟨fun _ => rfl, id, id, id⟩

theorem finishDecrypt_flagsKept (r : EnvelopeResult) (s : State) : FlagsKept s (finishDecrypt r s) := by
  rw [finishDecrypt_frame]; exact ⟨fun _ => rfl, id, id, id⟩

theorem frameByte_flagsKept (mode : FrameMode) (s : State) : FlagsKept s (frameByte mode s) := by
  unfold frameByte
  split
  · exact .refl s
  · rename_i b rest _
    have htake : FlagsKept s (takeByte b rest s) := ⟨id, id, id, id⟩
    unfold afterByte
    split
    · cases mode with
      | decode => exact htake.trans (finishDecrypt_flagsKept _ _)
      | raw => exact htake.trans (finish_flagsKept _ _)
    · split
      · exact htake.trans (finish_flagsKept _ _)
      · exact htake

theorem enginePart_flagsKept {a : EngineState} {u w : State} (h : EnginePart a u w) : FlagsKept u w := by
  cases h with
  | stay | entropy => exact ⟨id, id, id, id⟩
  | encrypt d => rw [encryptComplete_frame]; exact ⟨fun _ => rfl, id, id, id⟩
  | decrypt src => exact finishDecrypt_flagsKept _ u
  | byte mode => exact frameByte_flagsKept mode u

theorem rxPhase_flagsKept (c : ClockIn) (w : State) : FlagsKept w (rxPhase c w) := by
  unfold rxPhase rxDeliver
  repeat' split
  all_goals exact ⟨id, id, fun h => by simp [h], id⟩

theorem tickStep_flagsKept (s : State) : FlagsKept s (tickStep s) := by
  have hcount : FlagsKept s (countTick s) := ⟨id, id, id, id⟩
  unfold tickStep timeoutTest
  split
  · split
    · exact hcount.trans (finish_flagsKept _ _)
    · exact hcount
  all_goals exact hcount

theorem cycleEnd_flagsKept (c : ClockIn) (pin : Bool) (w : State) : FlagsKept w (cycleEnd c pin w) := by
  have htick : FlagsKept w (tickPhase c (rxPhase c w)) := by
    unfold tickPhase; split
    · exact (rxPhase_flagsKept c w).trans (tickStep_flagsKept _)
    · exact rxPhase_flagsKept c w
  exact htick.trans ⟨id, id, id, id⟩

/-- A flag kept by what follows the host's part, and cleared by the event, was cleared by the host's part. -/
theorem cleared_of_kept {p q : Bool} (hkept : p = true → q = true) (hq : q = false) : p = false :=
  Bool.eq_false_iff.2 fun h => by simp [hkept h] at hq

/-- Settles O53: the Engine's part and the end of a cycle clear no flag, so the host's part did, as a register write. -/
theorem flagsClearedOnlyByHost : Obligations.FlagsClearedOnlyByHost := by
  intro e s t hr h
  dsimp only
  obtain ⟨u, w, c, pin, hu, hw, rfl, -⟩ := runEvent_parts hr h
  have hkept := (enginePart_flagsKept hw).trans (cycleEnd_flagsKept c pin w)
  cases hu with
  | quiet | read =>
    refine ⟨fun h1 h2 => ?_, fun h1 h2 => ?_, fun h1 h2 => ?_, fun h1 h2 => ?_⟩
    · exact absurd (cleared_of_kept hkept.cmdRejected h2) (by simp [h1])
    · exact absurd (cleared_of_kept hkept.rxOvf h2) (by simp [h1])
    · exact absurd (cleared_of_kept hkept.wrIgnored h2) (by simp [h1])
    · exact absurd (cleared_of_kept hkept.done h2) (by simp [h1])
  | write error a v u he ha hu =>
    obtain ⟨hrej, hovf, hign, hdone⟩ := writeStep_clears (writeReg_step hu)
    obtain ⟨hcmd, hstatus⟩ := access_of_regOf ha
    refine ⟨fun h1 h2 => ?_, fun h1 h2 => ?_, fun h1 h2 => ?_, fun h1 h2 => ?_⟩
    · obtain ⟨hreg, hbit⟩ := hrej h1 (cleared_of_kept hkept.cmdRejected h2)
      exact ⟨v, hbit, hstatus hreg ▸ he⟩
    · obtain ⟨hreg, hbit⟩ := hovf h1 (cleared_of_kept hkept.rxOvf h2)
      exact ⟨v, hbit, hstatus hreg ▸ he⟩
    · obtain ⟨hreg, hbit⟩ := hign h1 (cleared_of_kept hkept.wrIgnored h2)
      exact ⟨v, hbit, hstatus hreg ▸ he⟩
    · obtain ⟨hreg, hbit⟩ | ⟨hreg, hb⟩ := hdone h1 (cleared_of_kept hkept.done h2)
      · exact .inl ⟨v, hbit, hstatus hreg ▸ he⟩
      · exact .inr ⟨hb, v, trivial, hcmd hreg ▸ he⟩

end Sys2Proof.Machine
end

section
/-!
The reception that gets no byte (O33): the timeout test in numbers, then every tick up to the deadline.
-/
namespace Sys2Proof.Machine

/-- The state after `n` ticks that only count (R203). -/
def afterTicks (n : Nat) (s : State) : State := { s with mono := s.mono + BitVec.ofNat 32 n }

theorem afterTicks_zero (s : State) : afterTicks 0 s = s := by simp [afterTicks]

theorem countTick_afterTicks (n : Nat) (s : State) : countTick (afterTicks n s) = afterTicks (n + 1) s := by
  simp [countTick, afterTicks, BitVec.ofNat_add, BitVec.add_assoc]

/-- The ticks counted since acceptance, the next one included (R204): the wrap of `MONO` cancels. -/
theorem elapsed_afterTicks {n : Nat} (start : Word) (h : n < 2 ^ 32) : (start + BitVec.ofNat 32 n - start).toNat = n := by
  rw [BitVec.add_comm, BitVec.add_sub_cancel, BitVec.toNat_ofNat, Nat.mod_eq_of_lt h]

variable {s : State} {mode : FrameMode} {n : Nat}

/-- The tick after `n` ticks of a reception ends it with `TIMEOUT` exactly when it is the `TO`-th (R204). -/
theorem tickStep_afterTicks (hs : s.engine = .receiving mode) (hm : s.mono = s.frameStart) (hn : n < s.frameTo.toNat) :
    tickStep (afterTicks n s) =
      if n + 1 = s.frameTo.toNat then finish .timeout (afterTicks (n + 1) s) else afterTicks (n + 1) s := by
  have hrecv : tickStep (afterTicks n s) = timeoutTest (afterTicks (n + 1) s) := by
    rw [← countTick_afterTicks]; simp only [tickStep, show (afterTicks n s).engine = .receiving mode from hs]
  have helapsed : ((afterTicks (n + 1) s).mono - s.frameStart).toNat = n + 1 := by
    rw [← hm]; exact elapsed_afterTicks s.mono (by have := s.frameTo.isLt; omega)
  have htest : s.frameTo ≤ (afterTicks (n + 1) s).mono - s.frameStart ↔ n + 1 = s.frameTo.toNat := by
    rw [BitVec.le_def, helapsed]; omega
  rw [hrecv]
  exact ite_congr (propext htest) (fun _ => rfl) (fun _ => rfl)

/-- A reception just accepted goes on through every number of ticks below its `TO`. -/
theorem runEvents_ticks (hs : s.engine = .receiving mode) (hm : s.mono = s.frameStart) (hn : n < s.frameTo.toNat) :
    runEvents (List.replicate n .tick) s = .next (afterTicks n s) := by
  induction n with
  | zero => rw [afterTicks_zero]; rfl
  | succ n ih =>
    rw [List.replicate_succ', runEvents_append, ih (by omega)]
    simp only [runEvents, runEvent]
    rw [tickStep_afterTicks hs hm (by omega), if_neg (by omega)]

/-- A frame command accepted with time to wait is a reception that starts now (R205, R207). -/
theorem frame_exec {i : Instr} (hi : i = .frameRaw ∨ (i = .frameRecv ∧ s.keyLocked = true)) (hb : s.busy = false)
    (ht : s.timeout ≠ 0) : ∃ mode t, exec i s = .next t ∧ t.engine = .receiving mode ∧ t.mono = s.mono ∧
      t.frameStart = s.mono ∧ t.frameTo = s.timeout ∧ t.rxLen = 0 ∧ t.rxFifo = s.rxFifo := by
  obtain rfl | ⟨rfl, hk⟩ := hi
  · refine ⟨.raw, startReceiving .raw (latchFrame (beginCommand 0x04 s)), ?_, rfl, rfl, rfl, rfl, rfl, rfl⟩
    rw [exec_idle _ hb]
    exact congrArg _ (if_neg ht)
  · refine ⟨.decode, startReceiving .decode (latchFrame (clearPtLen (beginCommand 0x03 s))), ?_, rfl, rfl, rfl, rfl, rfl,
      rfl⟩
    rw [exec_idle _ hb]
    refine congrArg _ ((if_neg ?_).trans (if_neg ht))
    simp [hk]

/-- Settles O33: the elapsed time counts the ticks since acceptance whatever `MONO` was, so the test first holds at the
`TIMEOUT`-th. -/
theorem receptionEndsAtDeadlineTick : Obligations.ReceptionEndsAtDeadlineTick := by
  intro i s n hi hb hn
  have hto : s.timeout ≠ 0 := by rintro h; simp [h] at hn
  obtain ⟨mode, t, hexec, heng, hmono, hstart, hTO, hlen, hfifo⟩ := frame_exec hi hb hto
  have hm : t.mono = t.frameStart := hmono.trans hstart.symm
  rw [← hTO] at hn
  refine ⟨t, afterTicks n t, hexec, runEvents_ticks heng hm hn, by rw [← hmono]; rfl, ?_, hlen, hfifo, fun hlast => ?_⟩
  · exact busy_eq_true.2 (by simp [afterTicks, heng])
  · rw [← hTO] at hlast
    have hdeadline : s.mono + s.timeout = t.mono + BitVec.ofNat 32 (n + 1) := by
      rw [hlast, BitVec.ofNat_toNat, BitVec.setWidth_eq, hmono, hTO]
    rw [runEvent, tickStep_afterTicks heng hm hn, if_pos hlast, hdeadline]
    rfl

end Sys2Proof.Machine
end

section
/-!
The key registers (O13) and where the key can flow (O54): the parts of an event that run outside ENCRYPT, DECRYPT and
FRAME_RECV commute with a change of the key registers.
-/
namespace Sys2Proof.Machine

theorem writeKey_dropped (i : Fin 8) (v : Word) {s : State} (h : s.keyLocked = true ∨ s.busy = true) :
    writeKey i v s = dropWrite s := by
  unfold writeKey
  split
  · rfl
  · exact guardedWrite_busy _ (h.resolve_left ‹_›)

theorem writeKey_open (i : Fin 8) (v : Word) {s : State} (hl : s.keyLocked = false) (hb : s.busy = false) :
    writeKey i v s = setKey i v s := by
  rw [writeKey, hl, guardedWrite_idle _ hb]; rfl

/-- The state with the key `k` in `KEY0..7`. -/
def withKey (k : Vector Word 8) (s : State) : State := { s with key := k }

variable (k : Vector Word 8)

/-! The host's part. -/

/-- A read does not depend on the key (R44). -/
theorem readReg_withKey (r : Reg) (s : State) : readReg r (withKey k s) = withKey k (readReg r s) := by
  cases r <;> rfl

/-- No command's acceptance depends on the key (R101). -/
theorem commandBody_withKey (i : Instr) (s : State) : commandBody i (withKey k s) = withKey k (commandBody i s) := by
  cases i with
  | decrypt src => cases src <;> simp only [commandBody, decryptBody, apply_ite (withKey k)] <;> rfl
  | encrypt | frameRecv | frameRaw | rxFlush | keyLock =>
    simp only [commandBody, encryptBody, frameRecvBody, frameAccept, rxFlushBody, keyLockBody, apply_ite (withKey k)]
    rfl

theorem accept_withKey (op : BitVec 8) {body : State → State} (s : State)
    (h : body (beginCommand op (withKey k s)) = withKey k (body (beginCommand op s))) :
    accept op body (withKey k s) = withKey k (accept op body s) := by
  unfold accept
  rw [apply_ite (withKey k), ← h]
  rfl

theorem guardedWrite_withKey {f : State → State} (s : State) (h : f (withKey k s) = withKey k (f s)) :
    guardedWrite f (withKey k s) = withKey k (guardedWrite f s) := by
  unfold guardedWrite
  rw [apply_ite (withKey k), ← h]
  rfl

theorem writeCmd_withKey {v : Word} {s t : State} (h : writeCmd v s = .next t) :
    writeCmd v (withKey k s) = .next (withKey k t) := by
  unfold writeCmd at h ⊢
  split at h
  · rename_i i _
    rw [exec_eq] at h ⊢
    rw [← next_inj h, accept_withKey k (opcodeOf i) s (commandBody_withKey k i (beginCommand (opcodeOf i) s))]
  · rw [← next_inj h, acceptIllegal, accept_withKey k _ s rfl]; rfl

/-- A register write depends on the key in the key registers only (R44, R171). -/
theorem writeReg_withKey {r : Reg} {v : Word} {s t : State} (h : writeReg r v s = .next t) :
    ∃ k', writeReg r v (withKey k s) = .next (withKey k' t) := by
  cases r with
  | cmd => exact ⟨k, writeCmd_withKey k h⟩
  | key i =>
    rw [← next_inj h, writeReg]
    by_cases hd : s.keyLocked = true ∨ s.busy = true
    · exact ⟨k, by rw [writeKey_dropped i v hd, writeKey_dropped i v (s := withKey k s) hd]; rfl⟩
    · simp only [not_or, Bool.not_eq_true] at hd
      refine ⟨k.set i v, ?_⟩
      rw [writeKey_open i v hd.1 hd.2, writeKey_open i v (s := withKey k s) hd.1 hd.2]; rfl
  | ctrl | timeout | ptLen | rxLen | ptBuf j | rxBuf j =>
    rw [← next_inj h]
    refine ⟨k, congrArg Host.Outcome.next ?_⟩
    exact guardedWrite_withKey k s rfl
  | status | mono | deadline | txLen | rxLevel | iv _ | txBuf _ | reserved => rw [← next_inj h]; exact ⟨k, rfl⟩

theorem busPhase_withKey {c : ClockIn} {s u : State} (h : busPhase c s = .next u) :
    ∃ k', busPhase c (withKey k s) = .next (withKey k' u) := by
  unfold busPhase at h ⊢
  split
  · rw [if_pos ‹_›] at h
    split
    · rw [if_pos ‹_›] at h
      split
      · rw [if_pos ‹_›] at h; exact writeReg_withKey k h
      · rw [if_neg ‹_›] at h
        rw [← next_inj h]; exact ⟨k, congrArg _ (readReg_withKey k _ (answerBus false s.prdata s))⟩
    · rw [if_neg ‹_›] at h
      rw [← next_inj h]; exact ⟨k, rfl⟩
  · rw [if_neg ‹_›] at h
    rw [← next_inj h]; exact ⟨k, rfl⟩

/-! The Engine's part, idle or in FRAME_RAW, and the end of a cycle. -/

/-- A byte taken by FRAME_RAW does not meet the key (R209). -/
theorem frameByte_withKey (s : State) : frameByte .raw (withKey k s) = withKey k (frameByte .raw s) := by
  have hafter : ∀ t, afterByte .raw (withKey k t) = withKey k (afterByte .raw t) := by
    intro t; simp only [afterByte, apply_ite (withKey k)]; rfl
  have hfifo : (withKey k s).rxFifo = s.rxFifo := rfl
  simp only [frameByte, hfifo]
  split
  · rfl
  · rename_i b rest _
    exact hafter (takeByte b rest s)

theorem requestEntropy_withKey (c : ClockIn) (s : State) :
    requestEntropy c (withKey k s) = withKey k (requestEntropy c s) := by
  simp only [requestEntropy, apply_ite (withKey k)]; rfl

theorem enginePhase_withKey (c : ClockIn) {a : EngineState} (ha : a = .idle ∨ a = .receiving .raw) (s : State) :
    enginePhase c a (withKey k s) = withKey k (enginePhase c a s) := by
  obtain rfl | rfl := ha
  · exact requestEntropy_withKey k c s
  · exact frameByte_withKey k s

theorem engineStep_withKey (d : Option (BitVec 128)) {s : State} (hs : s.engine = .idle ∨ s.engine = .receiving .raw) :
    engineStep d (withKey k s) = withKey k (engineStep d s) := by
  have heng : (withKey k s).engine = s.engine := rfl
  simp only [engineStep, heng]
  obtain h | h := hs <;> rw [h]
  exact frameByte_withKey k s

theorem rxDeliver_withKey (b : Byte) (s : State) : rxDeliver b (withKey k s) = withKey k (rxDeliver b s) := by
  simp only [rxDeliver, apply_ite (withKey k)]; rfl

theorem tickStep_withKey (s : State) : tickStep (withKey k s) = withKey k (tickStep s) := by
  have heng : (withKey k s).engine = s.engine := rfl
  simp only [tickStep, heng]
  split
  · simp only [timeoutTest, apply_ite (withKey k)]; rfl
  all_goals rfl

theorem cycleEnd_withKey (c : ClockIn) (pin : Bool) (s : State) :
    cycleEnd c pin (withKey k s) = withKey k (cycleEnd c pin s) := by
  have hrx : rxPhase c (withKey k s) = withKey k (rxPhase c s) := by
    unfold rxPhase; split
    · exact rxDeliver_withKey k _ s
    · rfl
  simp only [cycleEnd, hrx, tickPhase]
  split
  · rw [tickStep_withKey]; rfl
  · rfl

/-- Settles O54: outside the cipher commands only a write of `KEYi` meets the key registers, and it sets one of them. -/
theorem keyReachesOnlyCipherCommands : Obligations.KeyReachesOnlyCipherCommands := by
  intro e s t k hs h
  show ∃ k', runEvent e (withKey k s) = .next (withKey k' t)
  cases e with
  | memRead a =>
    simp only [runEvent, hostRead] at h ⊢
    split at h
    · rw [if_pos ‹_›, ← next_inj h, readReg_withKey]; exact ⟨k, rfl⟩
    · cases h
  | memWrite a v =>
    simp only [runEvent, hostWrite] at h ⊢
    split at h
    · rw [if_pos ‹_›]; exact writeReg_withKey k h
    · cases h
  | engine d => rw [← next_inj h]; exact ⟨k, congrArg _ (engineStep_withKey k d hs)⟩
  | rxByte b => rw [← next_inj h]; exact ⟨k, congrArg _ (rxDeliver_withKey k b s)⟩
  | tick => rw [← next_inj h]; exact ⟨k, congrArg _ (tickStep_withKey k s)⟩
  | reset => rw [← next_inj h]; exact ⟨(resetState s).key, rfl⟩
  | clock c =>
    cases hr : c.rstN with
    | false =>
      rw [runEvent_of_resets (by simp [resets, hr])] at h ⊢
      rw [← next_inj h]; exact ⟨(resetState s).key, rfl⟩
    | true =>
      obtain ⟨u, hu, rfl⟩ := clockCycle_inv hr h
      obtain ⟨k', hk'⟩ := busPhase_withKey k hu
      refine ⟨k', (clockCycle_of_bus hr hk').trans (congrArg _ ?_)⟩
      show cycleEnd c (irq s) (enginePhase c s.engine (withKey k' u)) = _
      rw [enginePhase_withKey k' c hs, cycleEnd_withKey]
      rfl

end Sys2Proof.Machine
end

section
/-!
The host port (O6, O13 to O20): which registers a busy write drops and which ignore every write, what a read returns where it
is not open, and what each write reads back as.
-/
namespace Sys2Proof.Machine

/-! Offsets as numbers (R22, R71). -/

theorem regOf_of_toNat {off : Offset} {n : Nat} (h : off.toNat = n) : regOf off = regOf (BitVec.ofNat 12 n) := by
  rw [← h, BitVec.ofNat_toNat, BitVec.setWidth_eq]

theorem offset_toNat {n : Nat} (h : n < 4096) : (BitVec.ofNat 12 n).toNat = n := by
  rw [BitVec.toNat_ofNat]; exact Nat.mod_eq_of_lt h

theorem regOf_keyWord (i : Fin 8) : regOf (BitVec.ofNat 12 (0x040 + 4 * i.val)) = .key i := by
  revert i; decide

theorem regOf_ivWord (i : Fin 4) : regOf (BitVec.ofNat 12 (0x060 + 4 * i.val)) = .iv i := by
  revert i; decide

theorem regOf_ptWord {k : Nat} (h : k < 64) : regOf (BitVec.ofNat 12 (0x100 + 4 * k)) = .ptBuf k := by
  have hn := offset_toNat (n := 0x100 + 4 * k) (by omega)
  rw [regOf_ptBuf (by omega) (by omega), hn]; congr 1; omega

theorem regOf_txWord {k : Nat} (h : k < 137) : regOf (BitVec.ofNat 12 (0x400 + 4 * k)) = .txBuf k := by
  have hn := offset_toNat (n := 0x400 + 4 * k) (by omega)
  rw [regOf_txBuf (by omega) (by omega), hn]; congr 1; omega

theorem regOf_rxWord {k : Nat} (h : k < 137) : regOf (BitVec.ofNat 12 (0x800 + 4 * k)) = .rxBuf k := by
  have hn := offset_toNat (n := 0x800 + 4 * k) (by omega)
  rw [regOf_rxBuf (by omega) (by omega), hn]; congr 1; omega

/-! Words and bytes (R74). -/

/-- A byte of a word is the byte it was made of. -/
theorem wordByte_wordOfBytes (a b c d : Byte) : wordByte (wordOfBytes a b c d) 0 = a ∧
    wordByte (wordOfBytes a b c d) 1 = b ∧ wordByte (wordOfBytes a b c d) 2 = c ∧ wordByte (wordOfBytes a b c d) 3 = d := by
  simpa [bytesOfWord] using bytesOfWord_wordOfBytes a b c d

/-- A word is made of its bytes. -/
theorem wordOfBytes_wordByte (w : Word) : wordOfBytes (wordByte w 0) (wordByte w 1) (wordByte w 2) (wordByte w 3) = w := by
  simp only [wordOfBytes, wordByte]
  rw [BitVec.extractLsb'_append_extractLsb'_eq_extractLsb' (by rfl),
    BitVec.extractLsb'_append_extractLsb'_eq_extractLsb' (by rfl),
    BitVec.extractLsb'_append_extractLsb'_eq_extractLsb' (by rfl)]
  exact BitVec.extractLsb'_eq_self

/-- The low bits of a word, widened again, are the word under their mask. -/
theorem setWidth_setWidth_eq_and (v : Word) {n : Nat} (h : n ≤ 32) :
    (v.setWidth n).setWidth 32 = v &&& BitVec.ofNat 32 (2 ^ n - 1) := by
  apply BitVec.eq_of_toNat_eq
  have hpow : 2 ^ n ≤ 2 ^ 32 := Nat.pow_le_pow_right (by decide) h
  have hmask : (2 ^ n - 1) % 2 ^ 32 = 2 ^ n - 1 := Nat.mod_eq_of_lt (by omega)
  have hmod : v.toNat % 2 ^ n < 2 ^ 32 := Nat.lt_of_lt_of_le (Nat.mod_lt _ (Nat.two_pow_pos n)) hpow
  rw [BitVec.toNat_and, BitVec.toNat_ofNat, hmask, Nat.and_two_pow_sub_one_eq_mod, BitVec.toNat_setWidth,
    BitVec.toNat_setWidth, Nat.mod_eq_of_lt hmod]

/-- The low half of a word as its two bytes. -/
theorem wordOfBytes_low (w : Word) : wordOfBytes (wordByte w 0) (wordByte w 1) 0 0 = w &&& 0xFFFF := by
  have hmask : w &&& 0xFFFF = (w.setWidth 16).setWidth 32 := (setWidth_setWidth_eq_and w (n := 16) (by decide)).symm
  rw [hmask]
  apply BitVec.eq_of_getLsbD_eq
  intro j hj
  simp only [wordOfBytes, wordByte, BitVec.getLsbD_append, BitVec.getLsbD_extractLsb', BitVec.getLsbD_setWidth]
  by_cases h1 : j < 8
  · simp [h1, hj, show j < 16 by omega]
  · by_cases h2 : j < 16
    · simp [h1, hj, h2, show j - 8 < 8 by omega, show 8 + (j - 8) = j by omega]
    · simp [h1, h2, show ¬ j - 8 < 8 by omega]

/-! Reads (R22, R78). -/

variable {s : State} {r : Reg} {n : Nat}

/-- A read of a register that is not open returns its current value and changes nothing else (R78, R80). -/
theorem read_closed (hr : regOf (BitVec.ofNat 12 n) = r) (h4 : n % 4 = 0) (ho : readOpen s r = false) :
    runEvent (.memRead (wordAccess (BitVec.ofNat 12 n))) s = .next { s with prdata := currentWord s r } := by
  rw [run_read (by rw [BitVec.toNat_ofNat]; omega), hr, readReg_closed ho]

/-- An open read returns the open word and uses up one free value (R78, log entry 4). -/
theorem read_open (hr : regOf (BitVec.ofNat 12 n) = r) (h4 : n % 4 = 0) (ho : readOpen s r = true) :
    runEvent (.memRead (wordAccess (BitVec.ofNat 12 n))) s =
      .next { s with prdata := openWord s r, draws := s.draws + 1 } := by
  rw [run_read (by rw [BitVec.toNat_ofNat]; omega), hr]
  simp [readReg, readWord, ho]

/-! Reset values, `STATUS` and the key registers. -/

/-- Settles O6: every register by evaluation; no buffer byte is listed, so each storage byte is the free value of reset 0. -/
theorem resetValues : Obligations.ResetValues := by
  refine ⟨rfl, by decide, by decide, rfl, rfl, rfl, rfl, rfl, rfl, by decide, by decide, by decide, rfl, rfl, rfl, rfl, rfl,
    rfl, fun off h => ?_⟩
  simp [readByte, loadByte, h, State.reset, Memory.get]

/-- Settles O15: `STATUS` accepts its write busy or not, and each flag is kept exactly where the write has a 0. -/
theorem statusWriteClearsFlags : Obligations.StatusWriteClearsFlags := by
  intro v s
  refine ⟨writeStatus v s, run_write (off := 0x004) (by decide) v s, rfl, ?_, ?_, ?_, ?_⟩ <;> simp

/-- Settles O13: a write of `KEYi` is `writeKey`, dropped or made; `KEYi` reads 0, and a read commutes with a change of the
key. -/
theorem keyRegisterRule : Obligations.KeyRegisterRule := by
  intro i v s
  have hoff : (BitVec.ofNat 12 (0x040 + 4 * i.val)).toNat % 4 = 0 := by rw [offset_toNat (by omega)]; omega
  have hwrite : runEvent (.memWrite (wordAccess (BitVec.ofNat 12 (0x040 + 4 * i.val))) v) s = .next (writeKey i v s) := by
    rw [run_write hoff, regOf_keyWord]; rfl
  refine ⟨fun h => ?_, fun hl hb => ?_, ?_, fun a k ha => ⟨readReg (regOf a.addr) s, ?_, ?_⟩⟩
  · rw [hwrite, writeKey_dropped i v h]; rfl
  · rw [hwrite, writeKey_open i v hl hb]; rfl
  · exact ⟨_, read_closed (regOf_keyWord i) (by omega) (readOpen_control s rfl rfl rfl), rfl⟩
  · simp only [runEvent, hostRead, ha, if_true]
  · simp only [runEvent, hostRead, ha, if_true]
    exact congrArg _ (readReg_withKey k _ s)

/-- The fields of a word laid out as `STATUS` is (R25). -/
theorem status_layout (m l : BitVec 8) (r : BitVec 4) (i o c k d b : Bool) :
    let w := m ++ l ++ (0 : BitVec 4) ++ r ++ (0 : BitVec 2) ++ BitVec.ofBool i ++ BitVec.ofBool o ++ BitVec.ofBool c ++
      BitVec.ofBool k ++ BitVec.ofBool d ++ BitVec.ofBool b
    (w.getLsbD 0 = b ∧ w.getLsbD 1 = d ∧ w.getLsbD 2 = k ∧ w.getLsbD 3 = c ∧ w.getLsbD 4 = o ∧ w.getLsbD 5 = i) ∧
    w.extractLsb' 6 2 = 0 ∧ w.extractLsb' 8 4 = r ∧ w.extractLsb' 12 4 = 0 ∧ w.extractLsb' 16 8 = l ∧
    w.extractLsb' 24 8 = m := by
  constructor
  · simp only [BitVec.getLsbD_append]; simp
  · simp (disch := decide) only [BitVec.extractLsb'_append_eq_of_le, BitVec.extractLsb'_append_eq_of_add_le]
    simp

/-- Settles O14: `STATUS` is never open, and its word is laid out field by field; `resultBits` gives each code its number. -/
theorem statusReadsItsFields : Obligations.StatusReadsItsFields := by
  intro s
  refine ⟨_, read_closed (n := 0x004) (r := .status) rfl rfl (readOpen_control s rfl rfl rfl), ?_⟩
  obtain ⟨⟨h0, h1, h2, h3, h4, h5⟩, h6, h8, h12, h16, h24⟩ := status_layout s.keyWmask s.lastOp (resultBits s.result)
    s.wrIgnored s.rxOvf s.cmdRejected s.keyLocked s.done s.busy
  refine ⟨h0, h1, h2, h3, h4, h5, h6, h12, h16, h24, fun p hp hres => (congrArg BitVec.toNat h8).trans ?_⟩
  rw [hres]
  clear hres
  revert p; decide

/-! Writes while busy, and writes of read-only registers (O16). -/

/-- The registers whose write is dropped while busy (R76). -/
def guardedReg : Reg → Bool
  | .ctrl | .timeout | .ptLen | .rxLen | .key _ | .ptBuf _ | .rxBuf _ => true
  | _ => false

/-- The registers that ignore every write (R23, R71). -/
def readOnlyReg : Reg → Bool
  | .mono | .deadline | .txLen | .rxLevel | .iv _ | .txBuf _ | .reserved => true
  | _ => false

theorem writeReg_guarded (v : Word) (hr : guardedReg r = true) (hb : s.busy = true) :
    writeReg r v s = .next (dropWrite s) := by
  cases r with
  | key i => exact congrArg _ (writeKey_dropped i v (.inr hb))
  | ctrl | timeout | ptLen | rxLen | ptBuf k | rxBuf k => exact congrArg _ (guardedWrite_busy _ hb)
  | status | cmd | mono | deadline | txLen | rxLevel | iv _ | txBuf _ | reserved => cases hr

theorem writeReg_readOnly (v : Word) (hr : readOnlyReg r = true) : writeReg r v s = .next s := by
  cases r with
  | mono | deadline | txLen | rxLevel | iv _ | txBuf _ | reserved => rfl
  | ctrl | status | cmd | timeout | ptLen | rxLen | key _ | ptBuf _ | rxBuf _ => cases hr

/-- The offsets R76 names. -/
theorem guardedReg_regOf {off : Offset}
    (h : off.toNat ∈ [0x000, 0x00C, 0x018, 0x020] ∨ (0x040 ≤ off.toNat ∧ off.toNat < 0x060) ∨
      (0x100 ≤ off.toNat ∧ off.toNat < 0x200) ∨ (0x800 ≤ off.toNat ∧ off.toNat < 0xA24)) :
    guardedReg (regOf off) = true := by
  obtain h | ⟨h1, h2⟩ | ⟨h1, h2⟩ | ⟨h1, h2⟩ := h
  · rw [regOf_of_toNat rfl]
    revert h; generalize off.toNat = n; revert n; decide
  · rw [regOf_key h1 h2]; rfl
  · rw [regOf_ptBuf h1 h2]; rfl
  · rw [regOf_rxBuf h1 h2]; rfl

/-- The read-only and the reserved offsets (R22, R71). -/
theorem readOnlyReg_regOf {off : Offset} (h4 : off.toNat % 4 = 0)
    (h : off.toNat ∈ [0x010, 0x014, 0x01C] ∨ (0x024 ≤ off.toNat ∧ off.toNat < 0x040) ∨
      (0x060 ≤ off.toNat ∧ off.toNat < 0x100) ∨ (0x200 ≤ off.toNat ∧ off.toNat < 0x800) ∨ 0xA24 ≤ off.toNat) :
    readOnlyReg (regOf off) = true := by
  by_cases hlow : off.toNat ∈ [0x010, 0x014, 0x01C, 0x024]
  · rw [regOf_of_toNat rfl]
    revert hlow; generalize off.toNat = n; revert n; decide
  · simp only [List.mem_cons, List.not_mem_nil, or_false, not_or] at h hlow
    by_cases hiv : 0x060 ≤ off.toNat ∧ off.toNat < 0x070
    · rw [regOf_iv hiv.1 hiv.2]; rfl
    · by_cases htx : 0x400 ≤ off.toNat ∧ off.toNat < 0x624
      · rw [regOf_txBuf htx.1 htx.2]; rfl
      · rw [regOf_reserved (by omega)]; rfl

/-- Settles O16: the offsets of each clause address guarded registers, `STATUS`, `CMD`, and read-only ones. -/
theorem busyWritesAreDropped : Obligations.BusyWritesAreDropped := by
  intro off v s h4
  rw [run_write h4]
  refine ⟨fun hb h => writeReg_guarded v (guardedReg_regOf h) hb, fun hb h => ?_, fun hb h => ?_,
    fun h => writeReg_readOnly v (readOnlyReg_regOf h4 h)⟩
  · rw [regOf_of_toNat h]; rfl
  · rw [regOf_of_toNat h]; exact writeCmd_busy v hb

/-! Registers read back (O17). -/

/-- A low register written while not busy, and read: the write is made, and the read returns its current value. -/
theorem write_read (h4 : n % 4 = 0) (hn : n < 4096) {v : Word} {f : State → State} (hr : regOf (BitVec.ofNat 12 n) = r)
    (hw : writeReg r v s = .next (guardedWrite f s)) (hb : s.busy = false) (ho : readOpen (f s) r = false) :
    runEvent (.memWrite (wordAccess (BitVec.ofNat 12 n)) v) s = .next (f s) ∧
      runEvent (.memRead (wordAccess (BitVec.ofNat 12 n))) (f s) =
        .next { f s with prdata := currentWord (f s) r } := by
  refine ⟨?_, read_closed hr h4 ho⟩
  rw [run_write (by rw [offset_toNat hn]; exact h4), hr, hw, guardedWrite_idle f hb]

/-- The two bits of `CTRL` are the low bits of what was written (R24). -/
theorem ctrlBits_eq_and (v : Word) :
    (0 : BitVec 30) ++ BitVec.ofBool (v.getLsbD 1) ++ BitVec.ofBool (v.getLsbD 0) = v &&& 0x3 := by
  have hmask : v &&& 0x3 = (v.setWidth 2).setWidth 32 := (setWidth_setWidth_eq_and v (n := 2) (by decide)).symm
  rw [hmask]
  apply BitVec.eq_of_getLsbD_eq
  intro j hj
  simp only [BitVec.getLsbD_append, BitVec.getLsbD_setWidth, BitVec.getLsbD_ofBool]
  match j with
  | 0 => simp
  | 1 => simp
  | j + 2 => simp [show ¬ j + 2 < 2 by omega]

/-- Settles O17: each write is made while not busy, and the read puts the kept bits at the bottom of a word of zeros. -/
theorem registerWritesReadBack : Obligations.RegisterWritesReadBack := by
  intro v s hb
  have hctrl := write_read (n := 0x000) (r := .ctrl) (v := v) rfl (by decide) rfl rfl hb (readOpen_idle hb _)
  have htime := write_read (n := 0x00C) (r := .timeout) (v := v) rfl (by decide) rfl rfl hb (readOpen_idle hb _)
  have hpt := write_read (n := 0x018) (r := .ptLen) (v := v) rfl (by decide) rfl rfl hb (readOpen_idle hb _)
  have hrx := write_read (n := 0x020) (r := .rxLen) (v := v) rfl (by decide) rfl rfl hb (readOpen_idle hb _)
  refine ⟨⟨_, _, hctrl.1, rfl, hctrl.2, ctrlBits_eq_and v⟩, ⟨_, _, htime.1, rfl, htime.2, rfl⟩,
    ⟨_, _, hpt.1, ?_, hpt.2, setWidth_setWidth_eq_and v (n := 9) (by decide)⟩,
    ⟨_, _, hrx.1, ?_, hrx.2, setWidth_setWidth_eq_and v (n := 10) (by decide)⟩⟩
  · rw [setPtLen, BitVec.setWidth_eq_extractLsb' (by decide)]
  · rw [setRxLen, BitVec.setWidth_eq_extractLsb' (by decide)]

/-! Offsets that read 0 (O19). -/

/-- The registers that always read 0 (R23, R36, R44, R71). -/
def zeroReg : Reg → Bool
  | .cmd | .key _ | .reserved => true
  | _ => false

theorem readReg_zero (hr : zeroReg r = true) : readReg r s = { s with prdata := 0 } := by
  cases r with
  | cmd | key _ | reserved => exact readReg_closed (readOpen_control s rfl rfl rfl)
  | ctrl | status | timeout | mono | deadline | ptLen | txLen | rxLen | rxLevel | iv _ | ptBuf _ | txBuf _ | rxBuf _ =>
    cases hr

/-- Settles O19: the offsets address `CMD`, the key registers and reserved words, which are never open and read 0. -/
theorem reservedOffsetsReadZero : Obligations.ReservedOffsetsReadZero := by
  intro off s h4 h
  rw [run_read h4, readReg_zero]
  by_cases hcmd : off.toNat = 0x008
  · rw [regOf_of_toNat hcmd]; rfl
  · by_cases hkey : 0x040 ≤ off.toNat ∧ off.toNat < 0x060
    · rw [regOf_key hkey.1 hkey.2]; rfl
    · rw [regOf_reserved (by omega)]; rfl

/-! Buffer words read back (O18). -/

theorem readByte_of_not_storage {off : Nat} (h : isStorage off = false) (s : State) : readByte s off = 0 := by
  simp [readByte, loadByte, h]

/-- The bytes of a word written to a buffer, where they are storage (R46, R48, R74). -/
theorem readByte_writeBuf {base k : Nat} (v : Word) (s : State) {j : Nat} (hj : j < 4)
    (hs : isStorage (base + 4 * k + j) = true) : readByte (writeBuf base k v s) (base + 4 * k + j) = wordByte v j := by
  refine (loadByte_storeBytes_inside s.mem s.epoch (bytesOfWord v) hj hs).trans ?_
  match j, hj with
  | 0, _ | 1, _ | 2, _ | 3, _ => rfl

/-- A word of storage reads back whole. -/
theorem bufWord_writeBuf {base k : Nat} (v : Word) (s : State)
    (hs : ∀ j, j < 4 → isStorage (base + 4 * k + j) = true) : bufWord (writeBuf base k v s) base k = v := by
  have hbyte : ∀ j, j < 4 → readByte (writeBuf base k v s) (base + 4 * k + j) = wordByte v j :=
    fun j hj => readByte_writeBuf v s hj (hs j hj)
  have h0 := hbyte 0 (by decide)
  rw [Nat.add_zero] at h0
  rw [bufWord, h0, hbyte 1 (by decide), hbyte 2 (by decide), hbyte 3 (by decide), wordOfBytes_wordByte]

/-- The last word of `RX_BUF` holds two storage bytes (R48). -/
theorem bufWord_writeBuf_half {base k : Nat} (v : Word) (s : State) (h : base + 4 * k = 0xA20) :
    bufWord (writeBuf base k v s) base k = v &&& 0xFFFF := by
  have h0 := readByte_writeBuf (base := base) (k := k) v s (j := 0) (by decide) (by rw [h]; decide)
  rw [Nat.add_zero] at h0
  have h1 := readByte_writeBuf (base := base) (k := k) v s (j := 1) (by decide) (by rw [h]; decide)
  rw [bufWord, h0, h1, readByte_of_not_storage (by rw [h]; decide), readByte_of_not_storage (by rw [h]; decide),
    wordOfBytes_low]

/-- A writable buffer offset is a word of `PT_BUF` or `RX_BUF` (R46, R48). -/
theorem regOf_writable {off : Offset} (h4 : off.toNat % 4 = 0)
    (h : (0x100 ≤ off.toNat ∧ off.toNat < 0x200) ∨ (0x800 ≤ off.toNat ∧ off.toNat < 0xA24)) :
    ∃ base k, off.toNat = base + 4 * k ∧
      (∀ v s, writeReg (regOf off) v s = .next (guardedWrite (writeBuf base k v) s)) ∧
      ∀ s, currentWord s (regOf off) = bufWord s base k := by
  obtain ⟨h1, h2⟩ | ⟨h1, h2⟩ := h
  · rw [regOf_ptBuf h1 h2]
    exact ⟨ptBase, (off.toNat - 0x100) / 4, by simp only [ptBase]; omega, fun _ _ => rfl, fun _ => rfl⟩
  · rw [regOf_rxBuf h1 h2]
    exact ⟨rxBase, (off.toNat - 0x800) / 4, by simp only [rxBase]; omega, fun _ _ => rfl, fun _ => rfl⟩

/-- Settles O18: the write stores the word's bytes where there is storage, and the read puts the same bytes together. -/
theorem bufferWritesReadBack : Obligations.BufferWritesReadBack := by
  intro off v s hb h4 h
  obtain ⟨base, k, hoff, hwrite, hcur⟩ := regOf_writable h4 h
  refine ⟨writeBuf base k v s, _, ?_, rfl, fun j hj hs => ?_, fun other ho => ?_, run_read h4 _, ?_⟩
  · rw [run_write h4, hwrite, guardedWrite_idle _ hb]
  · rw [hoff] at hs ⊢; exact readByte_writeBuf v s hj hs
  · rw [hoff] at ho; exact loadByte_storeBytes_outside s.mem s.epoch (bytesOfWord v) ho
  · rw [readReg_closed (s := writeBuf base k v s) (readOpen_idle hb _), hcur]
    split
    · rename_i hlast
      exact bufWord_writeBuf_half v s (by omega)
    · exact bufWord_writeBuf v s fun j hj => (isStorage_iff _).2 (by omega)

/-! What a read returns (O20). -/

/-- The running command writes a plaintext when it ends (R78). -/
def Decodes (s : State) : Prop := (∃ src, s.engine = .decrypting src) ∨ s.engine = .receiving .decode

/-- R78's table: the reads that are open are those of the running command's outputs. -/
theorem readOpen_iff (s : State) (r : Reg) : readOpen s r = true ↔
    (s.engine = .encrypting ∧ envelopeOutput r = true) ∨ (Decodes s ∧ plaintextOutput r = true) ∨
      ((∃ mode, s.engine = .receiving mode) ∧ unreceived s r = true) := by
  unfold readOpen Decodes
  split <;> simp_all

/-- A register that is none of the running command's outputs is not open. -/
theorem readOpen_eq_false (h1 : s.engine = .encrypting → envelopeOutput r = false)
    (h2 : Decodes s → plaintextOutput r = false) (h3 : (∃ mode, s.engine = .receiving mode) → unreceived s r = false) : readOpen s r = false := by
  rw [Bool.eq_false_iff, Ne, readOpen_iff]
  rintro (⟨he, h⟩ | ⟨he, h⟩ | ⟨he, h⟩)
  · simp [h1 he] at h
  · simp [h2 he] at h
  · simp [h3 he] at h

/-- Lane `j` of word `k` during a reception: a received byte keeps its lane, the others are the free word's (R79). -/
def receivingLane (s : State) (k j : Nat) : Byte :=
  if 4 * k + j < s.rxLen.toNat then readByte s (rxBase + 4 * k + j) else wordByte (Config.freeWord s.draws) j

theorem wordByte_receivingWord (s : State) (k : Nat) {j : Nat} (hj : j < 4) :
    wordByte (receivingWord s k) j = receivingLane s k j := by
  obtain ⟨h0, h1, h2, h3⟩ := wordByte_wordOfBytes (receivingLane s k 0) (receivingLane s k 1) (receivingLane s k 2)
    (receivingLane s k 3)
  match j, hj with
  | 0, _ => exact h0
  | 1, _ => exact h1
  | 2, _ => exact h2
  | 3, _ => exact h3

/-- A word of which nothing is received is the free word (R79). -/
theorem receivingWord_free {k : Nat} (h : s.rxLen.toNat ≤ 4 * k) : receivingWord s k = Config.freeWord s.draws := by
  have hlane : ∀ j, j < 4 → wordByte (receivingWord s k) j = wordByte (Config.freeWord s.draws) j := fun j hj =>
    (wordByte_receivingWord s k hj).trans (if_neg (by omega))
  rw [← wordOfBytes_wordByte (receivingWord s k), hlane 0 (by decide), hlane 1 (by decide), hlane 2 (by decide),
    hlane 3 (by decide), wordOfBytes_wordByte]

/-- The read of an offset returns `v` and changes nothing else of the block (R80). -/
def ReadsCurrent (s : State) (off : Nat) (v : Word) : Prop :=
  runEvent (.memRead (wordAccess (BitVec.ofNat 12 off))) s = .next { s with prdata := v }

/-- The read of an offset returns the next free word (R78, log entry 4). -/
def ReadsFree (s : State) (off : Nat) : Prop :=
  runEvent (.memRead (wordAccess (BitVec.ofNat 12 off))) s =
    .next { s with prdata := Config.freeWord s.draws, draws := s.draws + 1 }

/-- The read of a buffer word returns its four bytes, least significant first (R74). -/
def ReadsBytes (s : State) (off : Nat) : Prop :=
  ReadsCurrent s off (readByte s (off + 3) ++ readByte s (off + 2) ++ readByte s (off + 1) ++ readByte s off)

/-- The control registers no command writes are never open (R78). -/
theorem reads_always (s : State) :
    ReadsCurrent s 0x000 (ctrlWord s) ∧ ReadsCurrent s 0x00C s.timeout ∧ ReadsCurrent s 0x010 s.mono ∧
    ReadsCurrent s 0x014 s.deadline ∧ ReadsCurrent s 0x020 (s.rxLen.setWidth 32) ∧ ReadsCurrent s 0x024 (rxLevelWord s) :=
  ⟨read_closed (r := .ctrl) rfl rfl (readOpen_control s rfl rfl rfl),
    read_closed (r := .timeout) rfl rfl (readOpen_control s rfl rfl rfl),
    read_closed (r := .mono) rfl rfl (readOpen_control s rfl rfl rfl),
    read_closed (r := .deadline) rfl rfl (readOpen_control s rfl rfl rfl),
    read_closed (r := .rxLen) rfl rfl (readOpen_control s rfl rfl rfl),
    read_closed (r := .rxLevel) rfl rfl (readOpen_control s rfl rfl rfl)⟩

/-- `RX_LEVEL` is the number of bytes held (R43). -/
theorem rxLevelWord_eq (h : s.rxFifo.length ≤ 32) : rxLevelWord s = BitVec.ofNat 32 s.rxFifo.length := by
  apply BitVec.eq_of_toNat_eq
  rw [rxLevelWord, BitVec.toNat_setWidth, BitVec.toNat_ofNat, BitVec.toNat_ofNat]
  omega

theorem readsFree_iv (ho : ∀ i, readOpen s (.iv i) = true) {i : Nat} (hi : i < 4) : ReadsFree s (0x060 + 4 * i) :=
  read_open (r := .iv ⟨i, hi⟩) (regOf_ivWord ⟨i, hi⟩) (by omega) (ho _)

theorem reads_encrypting (he : s.engine = .encrypting) :
    ReadsFree s 0x01C ∧ (∀ i, i < 4 → ReadsFree s (0x060 + 4 * i)) ∧ ∀ k, k < 137 → ReadsFree s (0x400 + 4 * k) := by
  have ho : ∀ r, envelopeOutput r = true → readOpen s r = true := fun r hr => (readOpen_iff s r).2 (.inl ⟨he, hr⟩)
  exact ⟨read_open (r := .txLen) rfl rfl (ho _ rfl), fun i hi => readsFree_iv (fun _ => ho _ rfl) hi,
    fun k hk => read_open (regOf_txWord hk) (by omega) (ho _ rfl)⟩

theorem reads_decoding (hd : Decodes s) :
    ReadsFree s 0x018 ∧ (∀ i, i < 4 → ReadsFree s (0x060 + 4 * i)) ∧ ∀ k, k < 64 → ReadsFree s (0x100 + 4 * k) := by
  have ho : ∀ r, plaintextOutput r = true → readOpen s r = true :=
    fun r hr => (readOpen_iff s r).2 (.inr (.inl ⟨hd, hr⟩))
  exact ⟨read_open (r := .ptLen) rfl rfl (ho _ rfl), fun i hi => readsFree_iv (fun _ => ho _ rfl) hi,
    fun k hk => read_open (regOf_ptWord hk) (by omega) (ho _ rfl)⟩

/-- A word of `RX_BUF` that misses a byte reads as the lanes of R79. -/
theorem read_receiving {k : Nat} (hk : k < 137) (hm : ∃ mode, s.engine = .receiving mode)
    (h : s.rxLen.toNat < 4 * k + 4) :
    runEvent (.memRead (wordAccess (BitVec.ofNat 12 (0x800 + 4 * k)))) s =
      .next { s with prdata := receivingWord s k, draws := s.draws + 1 } :=
  read_open (regOf_rxWord hk) (by omega) ((readOpen_iff s _).2 (.inr (.inr ⟨hm, decide_eq_true h⟩)))

theorem readsBytes_pt {k : Nat} (hk : k < 64) (ho : readOpen s (.ptBuf k) = false) : ReadsBytes s (0x100 + 4 * k) :=
  read_closed (regOf_ptWord hk) (by omega) ho

theorem readsBytes_tx {k : Nat} (hk : k < 137) (ho : readOpen s (.txBuf k) = false) : ReadsBytes s (0x400 + 4 * k) :=
  read_closed (regOf_txWord hk) (by omega) ho

theorem readsBytes_rx {k : Nat} (hk : k < 137) (ho : readOpen s (.rxBuf k) = false) : ReadsBytes s (0x800 + 4 * k) :=
  read_closed (regOf_rxWord hk) (by omega) ho

/-- Settles O20: `readOpen_iff` says which reads are open; each offset is read as its register, open or closed. -/
theorem readsWhileRunning : Obligations.ReadsWhileRunning := by
  intro s
  obtain ⟨hctrl, htimeout, hmono, hdeadline, hrxLen, hlevel⟩ := reads_always s
  refine ⟨⟨hctrl, htimeout, hmono, hdeadline, hrxLen, fun hl => rxLevelWord_eq hl ▸ hlevel⟩, reads_encrypting,
    reads_decoding, fun hm k hk => ⟨fun hl => ?_, fun hl => ?_, fun h1 h2 => ⟨receivingWord s k, ?_, fun j hj => ?_⟩⟩,
    fun hd => ⟨?_, fun k hk => ?_⟩, fun he => ⟨?_, fun k hk => ?_⟩, fun he hd i => ?_, fun hm k hk => ?_⟩
  · exact receivingWord_free hl ▸ read_receiving hk hm (by omega)
  · exact readsBytes_rx hk (readOpen_eq_false (fun _ => rfl) (fun _ => rfl) fun _ => decide_eq_false (by omega))
  · exact read_receiving hk hm h2
  · exact wordByte_receivingWord s k hj
  · exact read_closed (r := .ptLen) rfl rfl (readOpen_eq_false (fun _ => rfl) (absurd · hd) fun _ => rfl)
  · exact readsBytes_pt hk (readOpen_eq_false (fun _ => rfl) (absurd · hd) fun _ => rfl)
  · exact read_closed (r := .txLen) rfl rfl (readOpen_eq_false (absurd · he) (fun _ => rfl) fun _ => rfl)
  · exact readsBytes_tx hk (readOpen_eq_false (absurd · he) (fun _ => rfl) fun _ => rfl)
  · exact read_closed (regOf_ivWord i) (by omega) (readOpen_eq_false (absurd · he) (absurd · hd) fun _ => rfl)
  · exact readsBytes_rx hk (readOpen_eq_false (fun _ => rfl) (fun _ => rfl) fun h => absurd h.choose_spec (hm _))

end Sys2Proof.Machine
end

section
/-!
The completion of an ENCRYPT at the event level (O23), and the byte orders of the key, the IV registers and a draw.
-/
namespace Sys2Proof.Machine

/-! Byte orders (R45, R49, R74, R176). -/

/-- A word list as bytes, four to a word. -/
theorem flatMap_bytesOfWord_length (ws : List Word) : (ws.flatMap bytesOfWord).length = 4 * ws.length := by
  induction ws with
  | nil => rfl
  | cons w ws ih => rw [List.flatMap_cons, List.length_append, ih, List.length_cons]; simp [bytesOfWord]; omega

/-- Byte `4i + j` of a word list is byte `j` of word `i` (R74). -/
theorem flatMap_bytesOfWord_getElem (ws : List Word) (i : Nat) {j : Nat} (hj : j < 4) :
    (ws.flatMap bytesOfWord)[4 * i + j]? = ws[i]?.map (wordByte · j) := by
  induction ws generalizing i with
  | nil => simp
  | cons w ws ih =>
    rw [List.flatMap_cons]
    cases i with
    | zero =>
      rw [List.getElem?_append_left (by simp [bytesOfWord]; omega)]
      match j, hj with
      | 0, _ | 1, _ | 2, _ | 3, _ => rfl
    | succ i =>
      rw [List.getElem?_append_right (by simp [bytesOfWord]; omega), List.getElem?_cons_succ, ← ih i]
      congr 1
      simp [bytesOfWord]; omega

/-- A vector of words as bytes (R45, R49). -/
theorem vector_bytes {m : Nat} (v : Vector Word m) (i : Fin m) {j : Nat} (hj : j < 4) :
    (v.toList.flatMap bytesOfWord)[4 * i.val + j]? = some ((v.get i).extractLsb' (8 * j) 8) := by
  rw [flatMap_bytesOfWord_getElem _ _ hj]
  simp [Vector.get, wordByte]

theorem keyString_length (s : State) : (keyString s).length = 32 := by
  rw [keyString, flatMap_bytesOfWord_length, Vector.length_toList]

theorem ivString_length (s : State) : (ivString s).length = 16 := by
  rw [ivString, flatMap_bytesOfWord_length, Vector.length_toList]

/-! The completion. -/

variable {s : State}

/-- An ENCRYPT with the key locked and a legal length runs (R173). -/
theorem exec_encrypt_runs (hb : s.busy = false) (hk : s.keyLocked = true) (hl : s.ptLen.toNat ≤ 255) :
    exec .encrypt s = .next (startEncrypt (beginCommand 0x01 s)) := by
  rw [exec_idle _ hb]
  refine congrArg _ ((if_neg ?_).trans (if_neg ?_))
  · simp [hk]
  · exact Nat.not_lt.2 hl

theorem releaseEntropy_of_idle (h : s.entropy = .idle) : releaseEntropy s = s := by
  rw [releaseEntropy, ← h]

/-- The running ENCRYPT with the draw `d` writes the envelope of what it was accepted with (R177). -/
theorem engine_encrypt (he : s.entropy = .idle) (d : BitVec 128) :
    runEvent (.engine (some d)) (startEncrypt (beginCommand 0x01 s)) =
      .next (finish .ok (putEnvelope (envelopeEncrypt (keyString s) (bytesOfDraw d) (ptText s) s.txTerm) (bytesOfDraw d)
        (startEncrypt (beginCommand 0x01 s)))) := by
  have hstart : (startEncrypt (beginCommand 0x01 s)).entropy = .idle := he
  have hdraw : drawOf (startEncrypt (beginCommand 0x01 s)).entropy (some d) = some d := by rw [hstart]; rfl
  show Host.Outcome.next (encryptComplete (drawOf _ (some d)) _) = _
  rw [hdraw, encryptComplete, releaseEntropy_of_idle hstart]
  rfl

/-- Settles O23: the completion is `putEnvelope`, whose outputs read back; the byte orders are those of the word lists. -/
theorem encryptCompletes : Obligations.EncryptCompletes := by
  refine ⟨fun s d hb hk hl he => ?_,
    fun s => ⟨keyString_length s, ivString_length s, fun j hj => ⟨fun i => ?_, fun i => ?_⟩⟩,
    fun d => ⟨bytesOfDraw_length d, fun i hi => ?_⟩⟩
  · obtain ⟨hlen, htext⟩ := putEnvelope_reads (iv := bytesOfDraw d) (startEncrypt (beginCommand 0x01 s))
      (envelope_fits d hl)
    refine ⟨_, _, exec_encrypt_runs hb hk hl, rfl, engine_encrypt he d, hlen, htext, ?_, fun off ho => ?_, ?_⟩
    · exact ivString_of_ivWords (bytesOfDraw_length d) rfl
    · exact loadByte_storeBytes_outside s.mem s.epoch _ ho
    · rw [busy_eq_false.1 hb]; rfl
  · exact vector_bytes s.key i hj
  · exact vector_bytes s.iv i hj
  · simp [bytesOfDraw, hi]

end Sys2Proof.Machine
end

section
/-!
The entropy handshake (O58): what a clock cycle does to a running ENCRYPT, first in one cycle and then over a wait without an
answer.
-/
namespace Sys2Proof.Machine

variable {c : ClockIn} {s : State} {n : Nat}

/-- `ent_req` is 1 exactly while the handshake waits (R176). -/
theorem entReq_eq (s : State) : entReq s = true ↔ ∃ n, s.entropy = .waiting n := by
  unfold entReq; split <;> simp_all

/-- A cycle of a running ENCRYPT is a cycle of its handshake, whatever the host does, and the end of the cycle. -/
theorem clockCycle_encrypting (he : s.engine = .encrypting) (hr : c.rstN = true) :
    ∃ u, u.engine = .encrypting ∧ u.entropy = s.entropy ∧
      clockCycle c s = .next (cycleEnd c (irq s) (entropyCycle c u)) := by
  obtain ⟨u, hu⟩ := busPhase_next c s
  have hframe := busPhase_busy hu (busy_eq_true.2 (by simp [he]))
  refine ⟨u, ?_, ?_, ?_⟩
  · rw [hframe]; exact he
  · rw [hframe]
  · rw [clockCycle_of_bus hr hu, he]; rfl

/-- What a cycle shows that leaves the ENCRYPT running with the handshake `p`. -/
theorem cycleEnd_setEntropy {u : State} (pin : Bool) (p : EntropyPort) (hu : u.engine = .encrypting) :
    (cycleEnd c pin (setEntropy p u)).engine = .encrypting ∧ (cycleEnd c pin (setEntropy p u)).entropy = p := by
  obtain ⟨heng, -, hent⟩ := cycleEnd_keeps (w := setEntropy p u) c pin (by simp [hu])
  exact ⟨heng.trans hu, hent⟩

/-- What a cycle shows that completes the ENCRYPT without a draw (R178). -/
theorem cycleEnd_noDraw (pin : Bool) (u : State) :
    entReq (cycleEnd c pin (encryptComplete none u)) = false ∧ (cycleEnd c pin (encryptComplete none u)).busy = false ∧
    (cycleEnd c pin (encryptComplete none u)).result = .randomUnavailable ∧
    (cycleEnd c pin (encryptComplete none u)).txLen = 0 := by
  obtain ⟨heng, hres, hent⟩ := cycleEnd_keeps (w := encryptComplete none u) c pin nofun
  refine ⟨?_, busy_eq_false.2 heng, hres, by rw [cycleEnd_writes]; rfl⟩
  rw [entReq, hent]; rfl

/-- What a cycle shows that completes the ENCRYPT with the draw `d` (R177). -/
theorem cycleEnd_draw (pin : Bool) (d : BitVec 128) (u : State) :
    entReq (cycleEnd c pin (encryptComplete (some d) u)) = false ∧
    (cycleEnd c pin (encryptComplete (some d) u)).busy = false ∧
    (cycleEnd c pin (encryptComplete (some d) u)).result = .ok ∧
    ivString (cycleEnd c pin (encryptComplete (some d) u)) = bytesOfDraw d := by
  obtain ⟨heng, hres, hent⟩ := cycleEnd_keeps (w := encryptComplete (some d) u) c pin nofun
  refine ⟨?_, busy_eq_false.2 heng, hres, ivString_of_ivWords (bytesOfDraw_length d) (by rw [cycleEnd_writes]; rfl)⟩
  rw [entReq, hent]; rfl

/-- A draw not yet used is held, and the request is over (log entry 11). -/
theorem cycleEnd_held {u : State} (pin : Bool) (d : Option (BitVec 128)) (hu : u.engine = .encrypting) :
    entReq (cycleEnd c pin (setEntropy (.answered d) u)) = false ∧
    (cycleEnd c pin (setEntropy (.answered d) u)).entropy = .answered d ∧
    (cycleEnd c pin (setEntropy (.answered d) u)).busy = true := by
  obtain ⟨heng, hent⟩ := cycleEnd_setEntropy (c := c) pin (.answered d) hu
  refine ⟨?_, hent, busy_eq_true.2 (by simp [heng])⟩
  rw [entReq, hent]

/-- The cycle that makes no draw: `ent_fail`, or the last of the wait without an answer (R176). -/
theorem cycle_noDraw (he : s.engine = .encrypting) (hw : s.entropy = .waiting n) (hr : c.rstN = true)
    (hc : c.entFail = true ∨ (c.entValid = false ∧ n = 255)) : ∃ t, clockCycle c s = .next t ∧ entReq t = false ∧
      (c.engineReady = false → t.entropy = .answered none ∧ t.busy = true) ∧
      (c.engineReady = true → t.busy = false ∧ t.result = .randomUnavailable ∧ t.txLen = 0) := by
  obtain ⟨u, hu, hent, hcycle⟩ := clockCycle_encrypting he hr
  have htake : entropyCycle c u = takeDraw c none u := by
    simp only [entropyCycle, hent.trans hw]
    obtain hf | ⟨hv, rfl⟩ := hc
    · rw [if_pos hf]
    · simp [hv, Config.entWaitMax]
  rw [htake] at hcycle
  refine ⟨_, hcycle, ?_⟩
  cases hready : c.engineReady with
  | true =>
    simp only [takeDraw, hready, if_true]
    obtain ⟨h1, h2⟩ := cycleEnd_noDraw (c := c) (irq s) u
    exact ⟨h1, nofun, fun _ => h2⟩
  | false =>
    simp only [takeDraw, hready]
    obtain ⟨h1, h2⟩ := cycleEnd_held (c := c) (irq s) none hu
    exact ⟨h1, fun _ => h2, nofun⟩

/-- The cycle that makes a draw (R176). -/
theorem cycle_draw (he : s.engine = .encrypting) (hw : s.entropy = .waiting n) (hr : c.rstN = true)
    (hf : c.entFail = false) (hv : c.entValid = true) : ∃ t, clockCycle c s = .next t ∧ entReq t = false ∧
      (c.engineReady = false → t.entropy = .answered (some c.entData) ∧ t.busy = true) ∧
      (c.engineReady = true → t.busy = false ∧ t.result = .ok ∧ ivString t = bytesOfDraw c.entData) := by
  obtain ⟨u, hu, hent, hcycle⟩ := clockCycle_encrypting he hr
  have htake : entropyCycle c u = takeDraw c (some c.entData) u := by
    simp [entropyCycle, hent.trans hw, hf, hv]
  rw [htake] at hcycle
  refine ⟨_, hcycle, ?_⟩
  cases hready : c.engineReady with
  | true =>
    simp only [takeDraw, hready, if_true]
    obtain ⟨h1, h2⟩ := cycleEnd_draw (c := c) (irq s) c.entData u
    exact ⟨h1, nofun, fun _ => h2⟩
  | false =>
    simp only [takeDraw, hready]
    obtain ⟨h1, h2⟩ := cycleEnd_held (c := c) (irq s) (some c.entData) hu
    exact ⟨h1, fun _ => h2, nofun⟩

/-- A cycle without an answer, not the last of the wait (R176). -/
theorem cycle_wait (he : s.engine = .encrypting) (hw : s.entropy = .waiting n) (hr : c.rstN = true)
    (hf : c.entFail = false) (hv : c.entValid = false) (hn : n < 255) :
    ∃ t, clockCycle c s = .next t ∧ t.engine = .encrypting ∧ t.entropy = .waiting (n + 1) := by
  obtain ⟨u, hu, hent, hcycle⟩ := clockCycle_encrypting he hr
  have hwait : entropyCycle c u = setEntropy (.waiting (n + 1)) u := by
    simp only [entropyCycle, hent.trans hw, hf, hv, Config.entWaitMax]
    simp [show n + 1 < 256 by omega]
  rw [hwait] at hcycle
  exact ⟨_, hcycle, cycleEnd_setEntropy _ _ hu⟩

/-- A cycle of an ENCRYPT that has not asked yet: it asks when the engine is ready (R176, R187). -/
theorem cycle_request (he : s.engine = .encrypting) (hw : s.entropy = .idle) (hr : c.rstN = true) :
    ∃ t, clockCycle c s = .next t ∧ t.busy = true ∧ t.entropy = if c.engineReady then .waiting 0 else .idle := by
  obtain ⟨u, hu, hent, hcycle⟩ := clockCycle_encrypting he hr
  have hreq : entropyCycle c u = setEntropy (if c.engineReady then .waiting 0 else .idle) u := by
    simp only [entropyCycle, hent.trans hw, requestEntropy, hu]
    cases c.engineReady with
    | true => rfl
    | false => rw [← hw, ← hent]; rfl
  rw [hreq] at hcycle
  obtain ⟨h1, h2⟩ := cycleEnd_setEntropy (c := c) (irq s) (if c.engineReady then .waiting 0 else .idle) hu
  exact ⟨_, hcycle, busy_eq_true.2 (by simp [h1]), h2⟩

/-- A wait of which `n` cycles have passed goes on through every cycle without an answer up to the 256th, which ends it. -/
theorem wait_unanswered {cs : List ClockIn} (he : s.engine = .encrypting) (hw : s.entropy = .waiting n) (hn : n < 256)
    (hlen : n + cs.length ≤ 256) (hq : ∀ c ∈ cs, c.rstN = true ∧ c.entFail = false ∧ c.entValid = false) :
    ∃ t, runEvents (cs.map .clock) s = .next t ∧
      (n + cs.length < 256 → entReq t = true ∧ t.busy = true) ∧
      (n + cs.length = 256 → entReq t = false ∧
        ((t.entropy = .answered none ∧ t.busy = true) ∨ (t.busy = false ∧ t.result = .randomUnavailable))) := by
  induction cs generalizing s n with
  | nil =>
    refine ⟨s, rfl, fun _ => ⟨(entReq_eq s).2 ⟨n, hw⟩, busy_eq_true.2 (by simp [he])⟩, fun h => ?_⟩
    rw [List.length_nil] at h; omega
  | cons c cs ih =>
    obtain ⟨⟨hr, hf, hv⟩, hrest⟩ := List.forall_mem_cons.1 hq
    rw [List.length_cons] at hlen
    by_cases hlast : n = 255
    · obtain rfl : cs = [] := List.length_eq_zero_iff.1 (by omega)
      obtain ⟨t, ht, hreq, hheld, hdone⟩ := cycle_noDraw he hw hr (.inr ⟨hv, hlast⟩)
      refine ⟨t, by simp only [List.map, runEvents, runEvent, ht], fun h => ?_, fun _ => ⟨hreq, ?_⟩⟩
      · rw [List.length_singleton] at h; omega
      · cases hready : c.engineReady with
        | true => obtain ⟨h1, h2, -⟩ := hdone hready; exact .inr ⟨h1, h2⟩
        | false => exact .inl (hheld hready)
    · obtain ⟨t, ht, heng, hent⟩ := cycle_wait he hw hr hf hv (by omega)
      obtain ⟨u, hu, hgo, hend⟩ := ih heng hent (by omega) (by omega) hrest
      refine ⟨u, by simp only [List.map, runEvents, runEvent, ht]; exact hu, fun h => hgo ?_, fun h => hend ?_⟩ <;>
        rw [List.length_cons] at h <;> omega

/-- Settles O58: the three kinds of a waiting cycle exclude each other; the bound is the wait from its start. -/
theorem entropyWaitIsBounded : Obligations.EntropyWaitIsBounded := by
  refine ⟨fun c s n he hw hn hr => ?_, fun c s he hw hr => cycle_request he hw hr, fun s cs he hw hlen hq => ?_⟩
  · by_cases hf : c.entFail = true
    · obtain ⟨t, ht, h⟩ := cycle_noDraw he hw hr (.inl hf)
      exact ⟨t, ht, fun _ => h, by simp [hf], by simp [hf]⟩
    · rw [Bool.not_eq_true] at hf
      by_cases hv : c.entValid = true
      · obtain ⟨t, ht, h⟩ := cycle_draw he hw hr hf hv
        exact ⟨t, ht, by simp [hf, hv], fun _ _ => h, by simp [hv]⟩
      · rw [Bool.not_eq_true] at hv
        by_cases hlast : n = 255
        · obtain ⟨t, ht, h⟩ := cycle_noDraw he hw hr (.inr ⟨hv, hlast⟩)
          exact ⟨t, ht, fun _ => h, by simp [hv], by omega⟩
        · obtain ⟨t, ht, heng, hent⟩ := cycle_wait he hw hr hf hv (by omega)
          exact ⟨t, ht, by simp [hf, hlast], by simp [hv],
            fun _ _ _ => ⟨hent, (entReq_eq t).2 ⟨_, hent⟩, busy_eq_true.2 (by simp [heng])⟩⟩
  · obtain ⟨t, ht, hgo, hend⟩ := wait_unanswered he hw (by decide) (by omega) hq
    rw [Nat.zero_add] at hgo hend
    exact ⟨t, ht, hgo, hend⟩

end Sys2Proof.Machine
end

section
/-!
What each command's word starts (O5), and the accesses of the host port that have no effect on the block (O10, O12).
-/
namespace Sys2Proof.Machine

/-! Command writes (R77, R101). -/

/-- The opcode of a command is the low byte of its word (R100, R102). -/
theorem encode_opcode (i : Instr) : (encode i).extractLsb' 0 8 = opcodeOf i := by
  cases i with
  | decrypt src => cases src <;> rfl
  | encrypt | frameRecv | frameRaw | rxFlush | keyLock => rfl

/-- Settles O5: a busy write is rejected; an idle one runs the command, whose acceptance writes `LAST_OP` first and has neither
`LAST_OP` nor `CMD_REJECTED` in its body's frame. -/
theorem commandWriteWhileBusyIsRejected : Obligations.CommandWriteWhileBusyIsRejected := by
  intro w s
  rw [run_cmdWrite]
  refine ⟨fun hb => writeCmd_busy w hb, fun i hb hdec => ?_⟩
  rw [writeCmd_of_decode hdec]
  refine ⟨_, exec_idle i hb, exec_idle i hb, ?_, ?_⟩
  · rw [encode_of_decode hdec, encode_opcode, commandBody_frame]; rfl
  · rw [commandBody_frame]; rfl

/-! Reads (R80). -/

/-- Which reads are open does not depend on the bus output (R78). -/
theorem readOpen_prdata (r : Reg) (s : State) (v : Word) : readOpen { s with prdata := v } r = readOpen s r := rfl

/-- A closed read repeated returns the same (R80). -/
theorem readReg_closed_idem {r : Reg} {s : State} (ho : readOpen s r = false) :
    readReg r (readReg r s) = readReg r s := by
  rw [readReg_closed ho, readReg_closed ((readOpen_prdata r s _).trans ho)]
  exact congrArg (fun v => { s with prdata := v }) (currentWord_prdata r s _)

theorem run_supported_read {a : Access} (ha : supported a = true) (s : State) :
    runEvent (.memRead a) s = .next (readReg (regOf a.addr) s) := by
  simp only [runEvent, hostRead, ha, if_true]

/-- Settles O12: `readReg` writes `prdata` and the count of free values, and a closed read returns the current value. -/
theorem readsHaveNoSideEffect : Obligations.ReadsHaveNoSideEffect := by
  intro a s ha
  simp only [run_supported_read ha]
  refine ⟨_, rfl, rfl, fun ho => ⟨?_, congrArg _ (readReg_closed_idem ho)⟩⟩
  rw [readReg_closed ho]

end Sys2Proof.Machine
end

section
/-!
Received bytes stay (O55): of the parts of an event only the Engine's writes the buffers during a reception, and it writes
`RX_BUF` at index `RX_LEN` only.
-/
namespace Sys2Proof.Machine

/-- What follows a stored byte leaves `TX_BUF` and `RX_BUF` alone: a plaintext goes to `PT_BUF` (R46, R208). -/
theorem readByte_afterByte (mode : FrameMode) (s : State) {off : Nat} (h : txBase ≤ off) :
    readByte (afterByte mode s) off = readByte s off := by
  unfold afterByte
  split
  · cases mode with
    | decode => exact finishDecrypt_far s (srcText_length_lt .rxBuf s) h
    | raw => rfl
  · split <;> rfl

/-- A byte taken changes, of `TX_BUF` and `RX_BUF`, the byte at index `RX_LEN` only (R206). -/
theorem readByte_frameByte_ne (mode : FrameMode) (s : State) {off : Nat} (h : txBase ≤ off)
    (hne : off ≠ rxBase + s.rxLen.toNat) : readByte (frameByte mode s) off = readByte s off := by
  unfold frameByte
  split
  · rfl
  · rw [readByte_afterByte mode _ h, readByte_takeByte_ne _ _ s hne]

/-- While busy the host's part leaves the buffers, the lengths and the engine alone (R76, R77). -/
theorem hostPart_busy {e : Event} {s u : State} (h : HostPart e s u) (hb : s.busy = true) :
    u = { s with
      done := u.done, cmdRejected := u.cmdRejected, rxOvf := u.rxOvf, wrIgnored := u.wrIgnored, prdata := u.prdata,
      draws := u.draws, pslverr := u.pslverr } := by
  cases h with
  | quiet | read => rfl
  | write error a v u he ha hu => rw [writeReg_busy hu hb]; rfl

/-- Settles O55: a byte taken goes to index `RX_LEN`, above every stored one, and nothing else in the event writes `RX_BUF`. -/
theorem storedFrameBytesAreStable : Obligations.StoredFrameBytesAreStable := by
  intro e s t mode i hs hr h hi _
  obtain ⟨u, w, c, pin, hu, hw, rfl, -⟩ := runEvent_parts hr h
  have hhost := hostPart_busy hu (busy_eq_true.2 (by simp [hs]))
  have hbyte : readByte u (rxBase + i) = readByte s (rxBase + i) := by rw [hhost]; rfl
  have hlen : u.rxLen = s.rxLen := by rw [hhost]
  have hend : readByte (cycleEnd c pin w) (rxBase + i) = readByte w (rxBase + i) := by rw [cycleEnd_writes]; rfl
  rw [hend, ← hbyte]
  rw [hs] at hw
  cases hw with
  | stay | entropy => rfl
  | encrypt d ha | decrypt src ha => cases ha
  | byte m => exact readByte_frameByte_ne m u (by simp only [txBase, rxBase]; omega) (by rw [hlen]; omega)

end Sys2Proof.Machine
end

section
/-!
The host's access beside the rest of a clock cycle (O10, O57). A rejected, dropped or unsupported access leaves marks in fields
that neither the Engine nor the RX line nor the Timer reads or writes, so the rest of the cycle is the one without it.
-/
namespace Sys2Proof.Machine

/-- `s` with the marks of a host access in `p`: `CMD_REJECTED`, `WR_IGNORED` and the bus outputs (R72, R76, R77). -/
def withHostMarks (p s : State) : State := { s with
  cmdRejected := p.cmdRejected, wrIgnored := p.wrIgnored, pslverr := p.pslverr, prdata := p.prdata }

variable (p : State)

/-! The rest of a cycle carries the marks along. -/

theorem finishDecrypt_withHostMarks (r : EnvelopeResult) (s : State) :
    finishDecrypt r (withHostMarks p s) = withHostMarks p (finishDecrypt r s) := by
  cases r <;> rfl

theorem encryptComplete_withHostMarks (d : Option (BitVec 128)) (s : State) :
    encryptComplete d (withHostMarks p s) = withHostMarks p (encryptComplete d s) := by
  cases d <;> rfl

theorem afterByte_withHostMarks (mode : FrameMode) (s : State) :
    afterByte mode (withHostMarks p s) = withHostMarks p (afterByte mode s) := by
  have hcomplete : completeFrame mode (withHostMarks p s) = withHostMarks p (completeFrame mode s) := by
    cases mode with
    | decode => exact finishDecrypt_withHostMarks p _ s
    | raw => rfl
  simp only [afterByte, hcomplete, apply_ite (withHostMarks p)]
  rfl

theorem frameByte_withHostMarks (mode : FrameMode) (s : State) :
    frameByte mode (withHostMarks p s) = withHostMarks p (frameByte mode s) := by
  have hfifo : (withHostMarks p s).rxFifo = s.rxFifo := rfl
  simp only [frameByte, hfifo]
  split
  · rfl
  · rename_i b rest _
    exact afterByte_withHostMarks p mode (takeByte b rest s)

theorem requestEntropy_withHostMarks (c : ClockIn) (s : State) :
    requestEntropy c (withHostMarks p s) = withHostMarks p (requestEntropy c s) := by
  simp only [requestEntropy, apply_ite (withHostMarks p)]; rfl

theorem takeDraw_withHostMarks (c : ClockIn) (d : Option (BitVec 128)) (s : State) :
    takeDraw c d (withHostMarks p s) = withHostMarks p (takeDraw c d s) := by
  simp only [takeDraw, encryptComplete_withHostMarks, apply_ite (withHostMarks p)]; rfl

theorem entropyCycle_withHostMarks (c : ClockIn) (s : State) :
    entropyCycle c (withHostMarks p s) = withHostMarks p (entropyCycle c s) := by
  have hent : (withHostMarks p s).entropy = s.entropy := rfl
  simp only [entropyCycle, hent]
  split
  · exact requestEntropy_withHostMarks p c s
  · simp only [takeDraw_withHostMarks, apply_ite (withHostMarks p)]; rfl
  · exact takeDraw_withHostMarks p c _ s

theorem enginePhase_withHostMarks (c : ClockIn) (a : EngineState) (s : State) :
    enginePhase c a (withHostMarks p s) = withHostMarks p (enginePhase c a s) := by
  cases a with
  | idle => exact requestEntropy_withHostMarks p c s
  | encrypting => exact entropyCycle_withHostMarks p c s
  | decrypting src =>
    have hdec : decryptComplete src (withHostMarks p s) = withHostMarks p (decryptComplete src s) := by
      cases src <;> exact finishDecrypt_withHostMarks p _ s
    simp only [enginePhase, hdec, apply_ite (withHostMarks p)]
  | receiving mode => exact frameByte_withHostMarks p mode s

theorem cycleEnd_withHostMarks (c : ClockIn) (pin : Bool) (s : State) :
    cycleEnd c pin (withHostMarks p s) = withHostMarks p (cycleEnd c pin s) := by
  have hrx : rxPhase c (withHostMarks p s) = withHostMarks p (rxPhase c s) := by
    simp only [rxPhase, rxDeliver, apply_ite (withHostMarks p)]; rfl
  have htick : ∀ u, tickStep (withHostMarks p u) = withHostMarks p (tickStep u) := by
    intro u
    have heng : (withHostMarks p u).engine = u.engine := rfl
    simp only [tickStep, heng]
    split
    · simp only [timeoutTest, apply_ite (withHostMarks p)]; rfl
    all_goals rfl
  simp only [cycleEnd, hrx, tickPhase, htick]
  split <;> rfl

/-- A cycle but for its host access: the Engine, the RX line and the Timer act on the state at its start (R250). -/
def restOfCycle (c : ClockIn) (s : State) : State := cycleEnd c (irq s) (enginePhase c s.engine s)

variable {c : ClockIn} {s u : State}

/-- A cycle whose host access leaves marks only does all else as the rest of the cycle alone. -/
theorem clockCycle_of_marks (hr : c.rstN = true) (hb : busPhase c s = .next u) (hu : u = withHostMarks u s) :
    clockCycle c s = .next (withHostMarks u (restOfCycle c s)) := by
  have hphase : enginePhase c s.engine u = withHostMarks u (enginePhase c s.engine s) :=
    (congrArg (enginePhase c s.engine) hu).trans (enginePhase_withHostMarks u c s.engine s)
  rw [clockCycle_of_bus hr hb, hphase]
  exact congrArg _ (cycleEnd_withHostMarks u c (irq s) _)

/-- The cycle without an access. -/
theorem clockCycle_no_access (hr : c.rstN = true) : clockCycle { c with psel := false } s =
    .next (withHostMarks (answerBus false s.prdata s) (restOfCycle c s)) :=
  clockCycle_of_marks (c := { c with psel := false }) hr (busPhase_quiet rfl s) rfl

/-! Unsupported accesses (R72). -/

theorem not_supported {a : Access} (h : a.addr.toNat % 4 ≠ 0 ∨ a.strb ≠ 0b1111) : supported a = false := by
  rw [Bool.eq_false_iff, Ne, supported_iff]
  exact fun ⟨h4, hstrb⟩ => h.elim (absurd h4) (absurd hstrb)

theorem busPhase_unsupported (hs : c.psel = true) (he : c.penable = true) (ha : supported c.access = false) :
    busPhase c s = .next (answerBus true (if c.pwrite then s.prdata else 0) s) := by
  simp [busPhase, hs, he, ha]

/-- Settles O10: at the event level the access faults; at the clock level it only answers on the bus. -/
theorem unsupportedAccessHasNoEffect : Obligations.UnsupportedAccessHasNoEffect := by
  intro a s h
  have ha := not_supported h
  refine ⟨by simp [runEvent, hostRead, ha], fun v => by simp [runEvent, hostWrite, ha], ?_⟩
  rintro c hr hs he rfl
  refine ⟨_, _, clockCycle_no_access hr, clockCycle_of_marks hr (busPhase_unsupported hs he ha) rfl, rfl, fun hw => ?_⟩
  simp [withHostMarks, hw]

end Sys2Proof.Machine
end

section
/-!
The outcomes of events in one clock cycle (O57), clause by clause.
-/
namespace Sys2Proof.Machine

variable {c : ClockIn} {s u : State} {off : Offset}

/-! The host's part of a cycle with an access (R70, R72, R250). -/

theorem busPhase_read (hs : c.psel = true) (he : c.penable = true) (hw : c.pwrite = false)
    (ha : supported c.access = true) :
    busPhase c s = .next (readReg (regOf c.access.addr) (answerBus false s.prdata s)) := by
  simp [busPhase, hs, he, hw, ha]

theorem busPhase_write (hs : c.psel = true) (he : c.penable = true) (hw : c.pwrite = true)
    (ha : c.access = wordAccess off) (h4 : off.toNat % 4 = 0) :
    busPhase c s = writeReg (regOf off) c.pwdata (answerBus false s.prdata s) := by
  simp only [busPhase, hs, he, hw, ha, supported_word h4, Bool.and_self, if_true]; rfl

/-- What follows the host's part leaves `prdata` (R70). -/
theorem prdata_afterBus (c : ClockIn) (pin : Bool) (a : EngineState) (u : State) :
    (cycleEnd c pin (enginePhase c a u)).prdata = u.prdata := by
  rw [cycleEnd_writes, enginePhase_frame]

/-- A read does not depend on what the bus showed before (R70). -/
theorem readReg_answerBus (error : Bool) (data : Word) (r : Reg) (s : State) :
    (readReg r (answerBus error data s)).prdata = (readReg r s).prdata := by
  cases r <;> rfl

/-- A read in a clock cycle returns what it returns alone, at the start of the cycle (R250). -/
theorem clockCycle_read {t : State} (hr : c.rstN = true) (hs : c.psel = true) (he : c.penable = true)
    (hw : c.pwrite = false) (ha : supported c.access = true) (h : clockCycle c s = .next t) :
    t.prdata = (readReg (regOf c.access.addr) s).prdata := by
  rw [clockCycle_of_bus hr (busPhase_read hs he hw ha)] at h
  rw [← next_inj h, ← readReg_answerBus false s.prdata]
  exact prdata_afterBus c _ _ _

/-- A cycle with a write of `STATUS`: what the Engine and the end of the cycle set comes after the host's clear (R35, R250). -/
theorem clockCycle_status {t : State} (hr : c.rstN = true) (hs : c.psel = true) (he : c.penable = true)
    (hw : c.pwrite = true) (ha : c.access = wordAccess 0x004) (h : clockCycle c s = .next t) :
    ∃ w, EnginePart s.engine (writeStatus c.pwdata (answerBus false s.prdata s)) w ∧ t = cycleEnd c (irq s) w := by
  rw [clockCycle_of_bus hr (busPhase_write hs he hw ha (by decide))] at h
  exact ⟨_, enginePhase_part c fun _ => rfl, (next_inj h).symm⟩

/-! A completion beside a write-one-to-clear of `DONE` (R250). -/

/-- Where the engine is idle, a completion has set `DONE`: true of every busy state, and of what follows one. -/
def DoneIfIdle (s : State) : Prop := s.busy = false → s.done = true

theorem doneIfIdle_of_busy (h : s.busy = true) : DoneIfIdle s := fun h1 => by simp [h] at h1

theorem frameByte_doneIfIdle (mode : FrameMode) (h : DoneIfIdle s) : DoneIfIdle (frameByte mode s) := by
  unfold frameByte
  split
  · exact h
  · unfold afterByte
    split
    · cases mode with
      | decode => intro _; rw [completeFrame, finishDecrypt_frame]
      | raw => exact fun _ => rfl
    · split
      · exact fun _ => rfl
      · exact h

theorem enginePart_doneIfIdle {a : EngineState} {w : State} (h : DoneIfIdle u) (hw : EnginePart a u w) :
    DoneIfIdle w := by
  cases hw with
  | stay | entropy => exact h
  | encrypt d => intro _; rw [encryptComplete_frame]
  | decrypt src => intro _; rw [decryptComplete, finishDecrypt_frame]
  | byte mode => exact frameByte_doneIfIdle mode h

theorem tickStep_doneIfIdle (h : DoneIfIdle s) : DoneIfIdle (tickStep s) := by
  unfold tickStep
  split
  · unfold timeoutTest
    split
    · exact fun _ => rfl
    · exact h
  all_goals exact h

theorem cycleEnd_doneIfIdle (pin : Bool) (h : DoneIfIdle u) : DoneIfIdle (cycleEnd c pin u) := by
  have hrx : DoneIfIdle (rxPhase c u) := by rw [rxPhase_frame]; exact h
  show DoneIfIdle (tickPhase c (rxPhase c u))
  unfold tickPhase
  split
  · exact tickStep_doneIfIdle hrx
  · exact hrx

/-! A dropped byte beside a write-one-to-clear of `RX_OVF` (R201, R250). -/

/-- Outside a reception the Engine's part leaves the FIFO, so a full one drops the byte of that cycle. -/
theorem rxOvf_of_full {a : EngineState} {w : State} (hw : EnginePart a u w) (ha : ∀ mode, a ≠ .receiving mode)
    (hv : c.rxValid = true) (hfull : u.rxFifo.length = 32) (pin : Bool) : (cycleEnd c pin w).rxOvf = true := by
  have hfifo : w.rxFifo = u.rxFifo := by
    cases hw with
    | stay | entropy => rfl
    | encrypt d => rw [encryptComplete_frame]
    | decrypt src => rw [decryptComplete, finishDecrypt_frame]
    | byte mode h => exact absurd h (ha mode)
  rw [cycleEnd_writes, rxPhase, if_pos hv, rxDeliver, if_neg (by simp [hfifo, hfull, Config.rxFifoDepth])]
  rfl

/-! A frame command accepted with a tick (R205, R250). -/

/-- A frame command with time to wait sets the deadline by the clock at its acceptance (R205). -/
theorem frame_deadline {i : Instr} {t : State} (hi : i = .frameRaw ∨ (i = .frameRecv ∧ s.keyLocked = true))
    (hb : s.busy = false) (h : exec i s = .next t) : t.deadline = s.mono + s.timeout := by
  have hframe : ∀ mode u, (frameAccept mode u).deadline = u.mono + u.timeout := by
    intro mode u; unfold frameAccept; split <;> rfl
  rw [exec_idle i hb] at h
  rw [← next_inj h]
  obtain rfl | ⟨rfl, hk⟩ := hi
  · exact hframe .raw _
  · simp only [commandBody, frameRecvBody]
    rw [if_neg (by simp [hk]), hframe]; rfl

/-- A cycle that accepts a frame command starts the reception with the `MONO` before the cycle's tick (R205, R250). -/
theorem busPhase_frame (hs : c.psel = true) (he : c.penable = true) (hw : c.pwrite = true)
    (ha : c.access = wordAccess cmdOffset)
    (hd : c.pwdata = encode .frameRaw ∨ (c.pwdata = encode .frameRecv ∧ s.keyLocked = true)) (hb : s.busy = false)
    (hto : s.timeout ≠ 0) : ∃ mode u, busPhase c s = .next u ∧ u.engine = .receiving mode ∧ u.mono = s.mono ∧
      u.frameStart = s.mono ∧ u.frameTo = s.timeout ∧ u.deadline = s.mono + s.timeout := by
  obtain ⟨i, hi, hword⟩ : ∃ i, (i = .frameRaw ∨ (i = .frameRecv ∧ s.keyLocked = true)) ∧ c.pwdata = encode i :=
    hd.elim (fun h => ⟨_, .inl rfl, h⟩) fun h => ⟨_, .inr ⟨rfl, h.2⟩, h.1⟩
  obtain ⟨mode, u, hexec, heng, hmono, hstart, hTO, -⟩ := frame_exec (s := answerBus false s.prdata s) hi hb hto
  refine ⟨mode, u, ?_, heng, hmono, hstart, hTO, frame_deadline (s := answerBus false s.prdata s) hi hb hexec⟩
  rw [busPhase_write hs he hw ha (by decide), ← hexec]
  exact writeCmd_of_decode (hword ▸ decode_encode i) _

/-- The first tick of a reception ends it exactly when it has one tick to wait (R204, log entry 10). -/
theorem tickStep_first {mode : FrameMode} (hs : s.engine = .receiving mode) (hm : s.mono = s.frameStart)
    (hto : s.frameTo ≠ 0) : tickStep s = if s.frameTo = 1 then finish .timeout (countTick s) else countTick s := by
  have h0 : 0 < s.frameTo.toNat := Nat.pos_of_ne_zero fun h => hto (BitVec.eq_of_toNat_eq h)
  have hone : 0 + 1 = s.frameTo.toNat ↔ s.frameTo = 1 := by
    rw [BitVec.toNat_eq]; exact eq_comm
  have h := tickStep_afterTicks hs hm h0
  rw [← countTick_afterTicks, afterTicks_zero] at h
  exact h.trans (ite_congr (propext hone) (fun _ => rfl) fun _ => rfl)

/-- The rest of the cycle that accepted a frame command: the Engine and the RX line leave the reception alone, and the tick is
its first. -/
theorem cycleEnd_first_tick {mode : FrameMode} (pin : Bool) (hu : u.engine = .receiving mode)
    (hm : u.mono = u.frameStart) (hto : u.frameTo ≠ 0) (ht : c.tick = true) :
    let t := cycleEnd c pin (enginePhase c .idle u)
    t.frameStart = u.frameStart ∧ t.frameTo = u.frameTo ∧ t.deadline = u.deadline ∧ t.mono = u.mono + 1 ∧
      (t.busy = false ↔ u.frameTo = 1) := by
  have hidle : enginePhase c .idle u = u := by simp [enginePhase, requestEntropy, hu]
  have hrx : (rxPhase c u).engine = .receiving mode := by rw [rxPhase_frame]; exact hu
  have hrest : tickStep (rxPhase c u) =
      if u.frameTo = 1 then finish .timeout (countTick (rxPhase c u)) else countTick (rxPhase c u) := by
    have h := tickStep_first (s := rxPhase c u) hrx (by rw [rxPhase_frame]; exact hm) (by rw [rxPhase_frame]; exact hto)
    rw [rxPhase_frame] at h
    rw [rxPhase_frame]; exact h
  have hbusy : (cycleEnd c pin u).busy = (tickStep (rxPhase c u)).busy := by
    simp only [cycleEnd, tickPhase, if_pos ht]; rfl
  dsimp only
  rw [hidle]
  refine ⟨by rw [cycleEnd_writes], by rw [cycleEnd_writes], by rw [cycleEnd_writes], by rw [cycleEnd_writes, if_pos ht], ?_⟩
  rw [hbusy, hrest]
  split
  · exact iff_of_true rfl ‹_›
  · exact iff_of_false (by simp [State.busy, countTick, hrx]) ‹_›

/-- Settles O57: the host's part reads and writes the state at the start of the cycle; a busy write leaves a mark only; what
the Engine's part and the end of the cycle set, they set after the host's clear. -/
theorem sameCycleOutcomes : Obligations.SameCycleOutcomes := by
  intro c s t hr hs he h
  refine ⟨fun hw v hv => ?_, fun hw hb => ⟨_, clockCycle_no_access hr, fun ha => ?_, fun off ha h4 hoff => ?_⟩,
    fun hw ha hb => ?_, fun hw ha hne hv hfull => ?_, fun hw ha hd hb hto ht => ?_⟩
  · cases ha : supported c.access with
    | true =>
      rw [run_supported_read ha] at hv
      rw [← next_inj hv]; exact clockCycle_read hr hs he hw ha h
    | false => simp [runEvent, hostRead, ha] at hv
  · have hbus := busPhase_write (s := s) hs he hw ha (by decide)
    rw [show regOf cmdOffset = .cmd from rfl, writeReg, writeCmd_busy _ (s := answerBus false s.prdata s) hb] at hbus
    rw [clockCycle_of_marks hr hbus rfl] at h
    exact (next_inj h).symm
  · have hbus := busPhase_write (s := s) hs he hw ha h4
    rw [writeReg_guarded _ (guardedReg_regOf hoff) (s := answerBus false s.prdata s) hb] at hbus
    rw [clockCycle_of_marks hr hbus rfl] at h
    exact (next_inj h).symm
  · obtain ⟨w, hpart, rfl⟩ := clockCycle_status hr hs he hw ha h
    have hbusy : (writeStatus c.pwdata (answerBus false s.prdata s)).busy = true := hb
    exact cycleEnd_doneIfIdle _ (enginePart_doneIfIdle (doneIfIdle_of_busy hbusy) hpart)
  · obtain ⟨w, hpart, rfl⟩ := clockCycle_status hr hs he hw ha h
    exact rxOvf_of_full hpart hne hv hfull _
  · obtain ⟨mode, u, hbus, heng, hmono, hstart, hTO, hdl⟩ := busPhase_frame hs he hw ha hd hb hto
    rw [clockCycle_of_bus hr hbus, busy_eq_false.1 hb] at h
    rw [← next_inj h]
    obtain ⟨h1, h2, h3, h4, h5⟩ := cycleEnd_first_tick (irq s) heng (hmono.trans hstart.symm) (hTO ▸ hto) ht
    exact ⟨h1.trans hstart, h2.trans hTO, h3.trans hdl, h4.trans (congrArg (· + 1) hmono), h5.trans (by rw [hTO])⟩

end Sys2Proof.Machine
end

section
/-!
The command word (R100 to R105): decoding and encoding agree, and a word is illegal exactly when one of the checks of R105
fails, in which case its idle write completes at once.
-/
namespace Sys2Proof.Machine

/-! Legal words (R100, R102). -/

/-- Settles O1: each word's fields are literals, so the decoder evaluates. -/
theorem decodeTableWords : Obligations.DecodeTableWords :=
  ⟨rfl, rfl, rfl, rfl, rfl, rfl, rfl, rfl, rfl, rfl⟩

/-- Settles O2: a word is put together again from its fields, and every command's word decodes by its row of the opcode
table. -/
theorem decodeAgreesWithEncode : Obligations.DecodeAgreesWithEncode := fun _ i =>
  ⟨encode_of_decode, fun h => h ▸ decode_encode i⟩

/-! Illegal words (R105). -/

/-- The opcode check fails outside 0x01 to 0x06 (R102). -/
theorem opOk_eq_false {c : CmdWord} : c.opOk = false ↔ c.op = 0x00 ∨ 0x07 ≤ c.op := by
  obtain ⟨op, src, rsvd⟩ := c
  simp only [CmdWord.opOk]
  revert op; decide

/-- The `SRC` check fails on a set bit beside any opcode but DECRYPT's (R100). -/
theorem srcOk_eq_false {c : CmdWord} : c.srcOk = false ↔ c.src ≠ 0 ∧ c.op ≠ 0x02 := by simp [CmdWord.srcOk]

/-- The `RSVD` check fails on any set bit (R100). -/
theorem rsvdOk_eq_false {c : CmdWord} : c.rsvdOk = false ↔ c.rsvd ≠ 0 := by simp [CmdWord.rsvdOk]

/-- Past the checks of `RSVD` and `SRC` every listed opcode names a command, so a word is refused exactly when its fields
fail a check (R105). -/
theorem decode_error_iff {w : Word} : (∃ e, decode w = .error e) ↔ (wordFields w).wellFormed = false := by
  unfold decode
  generalize wordFields w = c
  cases hr : c.rsvdOk with
  | false => simp [CmdWord.wellFormed, hr]
  | true =>
    cases hs : c.srcOk with
    | false => simp [CmdWord.wellFormed, hr, hs]
    | true =>
      simp only [CmdWord.wellFormed, CmdWord.opOk, hr, hs]
      repeat' split
      all_goals simp_all

/-- Bit 8 of a word is its `SRC` field (R100). -/
theorem wordFields_src_ne_zero {w : Word} : (wordFields w).src ≠ 0 ↔ w.getLsbD 8 = true := by
  have hbit : ∀ b : BitVec 1, b ≠ 0 ↔ b.getLsbD 0 = true := by decide
  rw [hbit, wordFields, BitVec.getLsbD_extractLsb']
  rfl

/-- The words that are illegal, field by field (R105). -/
theorem decode_error_iff_fields {w : Word} : (∃ e, decode w = .error e) ↔
    (w.extractLsb' 0 8 = 0x00 ∨ 0x07 ≤ w.extractLsb' 0 8 ∨ w.extractLsb' 9 23 ≠ 0 ∨
      (w.getLsbD 8 = true ∧ w.extractLsb' 0 8 ≠ 0x02)) := by
  rw [decode_error_iff, CmdWord.wellFormed, Bool.and_eq_false_iff, Bool.and_eq_false_iff, rsvdOk_eq_false, srcOk_eq_false,
    opOk_eq_false, wordFields_src_ne_zero]
  exact or_comm.trans or_assoc

/-- An idle block accepts an illegal word and completes it at once (R101, R105). -/
theorem acceptIllegal_idle (op : BitVec 8) {s : State} (hb : s.busy = false) :
    acceptIllegal op s = { s with lastOp := op, done := true, result := .illegalCommand } := by
  simp [acceptIllegal, accept, hb, finish, beginCommand, (busy_eq_false.1 hb).symm]

/-- An illegal word written to `CMD` is an illegal acceptance with its opcode (R105). -/
theorem writeCmd_of_decode_error {w : Word} {e : DecodeError} (h : decode w = .error e) (s : State) :
    writeCmd w s = .next (acceptIllegal (w.extractLsb' 0 8) s) := by
  simp only [writeCmd, h]; rfl

/-- Settles O3: a word is illegal when a check on its fields fails; its idle write finishes with the engine idle as it was. -/
theorem illegalWordsCompleteAtOnce : Obligations.IllegalWordsCompleteAtOnce := by
  refine fun w => ⟨decode_error_iff_fields, fun ⟨e, he⟩ s hb => ?_⟩
  rw [run_cmdWrite, writeCmd_of_decode_error he, acceptIllegal_idle _ hb]

end Sys2Proof.Machine
end

section
/-!
The cryptographic primitives (R130 to R152): the AES-256 inverse cipher, CBC, padding and hex text, each undone by its
inverse.
-/
namespace Sys2Proof.Machine

/-! The inverse cipher (R139, R141). -/

/-- One inner round of the cipher (R139). -/
def cipherRound (w : List Col) (s : Block) (r : Nat) : Block := addRoundKey w r (mixColumns (shiftRows (subBytes s)))

/-- One inner round of the inverse cipher (R141). -/
def invCipherRound (w : List Col) (r : Nat) (s : Block) : Block :=
  invMixColumns (addRoundKey w r (invSubBytes (invShiftRows s)))

theorem aesEnc_eq_rounds (w : List Col) (b : Block) : aesEnc w b =
    addRoundKey w 14 (shiftRows (subBytes ((List.range' 1 13).foldl (cipherRound w) (addRoundKey w 0 b)))) := rfl

theorem aesDec_eq_rounds (w : List Col) (b : Block) : aesDec w b =
    addRoundKey w 0 (invSubBytes (invShiftRows ((List.range' 1 13).foldr (invCipherRound w) (addRoundKey w 14 b)))) := rfl

theorem invSubBytes_invShiftRows_cancel (s : Block) : invSubBytes (invShiftRows (shiftRows (subBytes s))) = s := by
  rw [invShiftRows_shiftRows, invSubBytes_subBytes]

/-- A round of R141 starts inside a round of R139: it takes a state past the next round's SubBytes and ShiftRows back past
this round's. -/
theorem invCipherRound_cipherRound (w : List Col) (r : Nat) (s : Block) :
    invCipherRound w r (shiftRows (subBytes (cipherRound w s r))) = shiftRows (subBytes s) := by
  rw [invCipherRound, invSubBytes_invShiftRows_cancel, cipherRound, addRoundKey_addRoundKey, invMixColumns_mixColumns]

theorem invCipherRounds_cipherRounds (w : List Col) (rs : List Nat) (s : Block) :
    rs.foldr (invCipherRound w) (shiftRows (subBytes (rs.foldl (cipherRound w) s))) = shiftRows (subBytes s) := by
  induction rs generalizing s with
  | nil => rfl
  | cons r rs ih => rw [List.foldr_cons, List.foldl_cons, ih, invCipherRound_cipherRound]

/-- The cipher is undone for every key schedule. -/
theorem aesDec_aesEnc (w : List Col) (b : Block) : aesDec w (aesEnc w b) = b := by
  rw [aesDec_eq_rounds, aesEnc_eq_rounds, addRoundKey_addRoundKey, invCipherRounds_cipherRounds,
    invSubBytes_invShiftRows_cancel, addRoundKey_addRoundKey]

/-- Settles O39: the rounds cancel from the last to the first. -/
theorem aesInverse : Obligations.AesInverse := fun key b => aesDec_aesEnc (keyExpansion key) b

/-! CBC (R142, R143). -/

/-- The chaining value XORed in before the cipher is the one XORed in after the inverse cipher. -/
theorem cbcDecBlocks_cbcEncBlocks (w : List Col) (prev : Block) (ps : List Block) :
    cbcDecBlocks w prev (cbcEncBlocks w prev ps) = ps := by
  induction ps generalizing prev with
  | nil => rfl
  | cons p ps ih => rw [cbcEncBlocks, cbcDecBlocks, aesDec_aesEnc, blockXor_cancel, ih]

/-- The ciphertext taken apart is the blocks the chain made (R142). -/
theorem takeBlocks_cbcEnc (key iv p : Bytes) : takeBlocks ((cbcEnc key iv p).length / 16) (cbcEnc key iv p) =
    cbcEncBlocks (keyExpansion key) (blockOfBytes iv) (takeBlocks (p.length / 16) p) := by
  have h := takeBlocks_joinBlocks (cbcEncBlocks (keyExpansion key) (blockOfBytes iv) (takeBlocks (p.length / 16) p))
  rw [cbcEncBlocks_length, takeBlocks_length] at h
  rw [cbcEnc_length, Nat.mul_div_cancel_left _ (by decide)]
  exact h

/-- Settles O40: block by block, on the blocks of the ciphertext. -/
theorem cbcInverse : Obligations.CbcInverse := by
  intro key iv p hp
  rw [cbcDec, takeBlocks_cbcEnc, cbcDecBlocks_cbcEncBlocks]
  exact joinBlocks_takeBlocks _ p (by omega)

/-! Padding (R145, R146). -/

/-- Settles O41: the padded length is the multiple of 16 after the last one not above the length. -/
theorem paddingRule : Obligations.PaddingRule := by
  intro p
  obtain ⟨h1, h16⟩ := padLength_bounds p.length
  refine ⟨padLength p.length, h1, h16, rfl, rfl, ?_, fun m hm hlt => ?_⟩
  · rw [pad_length]; omega
  · rw [pad_length]; omega

/-- The byte `unpad` reads is the last one. -/
theorem getLast?_eq_byteAt {d : Bytes} (h : d ≠ []) : d.getLast? = some (byteAt d (d.length - 1)) := by
  have hlt : d.length - 1 < d.length := by have := List.length_pos_iff.2 h; omega
  rw [List.getLast?_eq_getElem?, byteAt, List.getD_eq_getElem?_getD, List.getElem?_eq_getElem hlt, Option.getD_some]

theorem unpad_eq_some_iff {d p : Bytes} : unpad d = some p ↔ ∃ n : Byte, d.getLast? = some n ∧ 1 ≤ n.toNat ∧
    n.toNat ≤ 16 ∧ n.toNat ≤ d.length ∧ p = d.take (d.length - n.toNat) := by
  by_cases hd : d = []
  · simp [hd, unpad]
  · rw [getLast?_eq_byteAt hd, unpad, if_neg (mt List.length_eq_zero_iff.1 hd)]
    simp only [Option.some.injEq, exists_eq_left']
    split
    · exact iff_of_false (by simp) (by omega)
    · rw [Option.some.injEq, eq_comm]
      exact ⟨fun h => ⟨by omega, by omega, by omega, h⟩, fun ⟨_, _, _, h⟩ => h⟩

theorem unpad_pad (p : Bytes) : unpad (pad p) = some p := by
  obtain ⟨h1, h16⟩ := padLength_bounds p.length
  have hn : (BitVec.ofNat 8 (padLength p.length)).toNat = padLength p.length := by
    rw [BitVec.toNat_ofNat]; exact Nat.mod_eq_of_lt (by omega)
  refine unpad_eq_some_iff.2 ⟨BitVec.ofNat 8 (padLength p.length), ?_, ?_⟩
  · rw [pad, List.getLast?_append, List.getLast?_replicate, if_neg (by omega), Option.some_or]
  · rw [hn]
    have hlen : (pad p).length = p.length + padLength p.length := by simp [pad]
    refine ⟨h1, h16, by omega, ?_⟩
    rw [hlen, Nat.add_sub_cancel, pad, List.take_left]

/-- Settles O42: the last byte decides, and it is the pad length `Pad` wrote. -/
theorem unpaddingRule : Obligations.UnpaddingRule := ⟨fun _ _ => unpad_eq_some_iff, unpad_pad⟩

/-! Hex text (R147 to R152). -/

/-- A pair of characters decodes when both are valid and the rest decodes (R150). -/
theorem hexDec_pair_eq_some_iff {hi lo : Byte} {rest e : Bytes} : hexDec (hi :: lo :: rest) = some e ↔
    ∃ h l s, hexVal hi = some h ∧ hexVal lo = some l ∧ hexDec rest = some s ∧ e = (16 * h + l) :: s := by
  rw [hexDec]
  cases hexVal hi <;> cases hexVal lo <;> cases hexDec rest <;> simp [eq_comm]

theorem hexDec_pair_eq_none_iff {hi lo : Byte} {rest : Bytes} : hexDec (hi :: lo :: rest) = none ↔
    hexVal hi = none ∨ hexVal lo = none ∨ hexDec rest = none := by
  rw [hexDec]
  cases hexVal hi <;> cases hexVal lo <;> cases hexDec rest <;> simp

theorem hexDec_eq_none_iff : ∀ t : Bytes, hexDec t = none ↔ t.length % 2 = 1 ∨ ∃ ch ∈ t, hexVal ch = none
  | [] => by simp [hexDec]
  | [_] => by simp [hexDec]
  | hi :: lo :: rest => by
    have hlen : (hi :: lo :: rest).length % 2 = rest.length % 2 := by simp only [List.length_cons]; omega
    rw [hexDec_pair_eq_none_iff, hexDec_eq_none_iff rest, hlen]
    simp only [List.mem_cons, exists_eq_or_imp]
    rw [or_left_comm (a := rest.length % 2 = 1), or_left_comm (a := rest.length % 2 = 1)]

/-- Byte `j` comes from characters `2j` and `2j + 1` (R150). -/
theorem hexDec_byteAt : ∀ {t e : Bytes}, hexDec t = some e → ∀ j, j < e.length → ∃ h l : Byte,
    hexVal (byteAt t (2 * j)) = some h ∧ hexVal (byteAt t (2 * j + 1)) = some l ∧ byteAt e j = 16 * h + l
  | [], e, he, j, hj => by simp [← Option.some.inj he] at hj
  | [_], e, he, j, hj => by cases he
  | hi :: lo :: rest, e, he, j, hj => by
    obtain ⟨h, l, s, hh, hl, hs, rfl⟩ := hexDec_pair_eq_some_iff.1 he
    cases j with
    | zero => exact ⟨h, l, hh, hl, rfl⟩
    | succ j => exact hexDec_byteAt hs j (Nat.lt_of_succ_lt_succ hj)

theorem hexDec_hexEnc (s : Bytes) : hexDec (hexEnc s) = some s := by
  induction s with
  | nil => rfl
  | cons b s ih =>
    exact hexDec_pair_eq_some_iff.2
      ⟨_, _, s, hexVal_hexDigit_high b, hexVal_hexDigit_low b, ih, congrArg (· :: s) (byte_of_nibbles b).symm⟩

/-- Settles O43: pair by pair along the text. -/
theorem hexDecodingRule : Obligations.HexDecodingRule :=
  ⟨hexDec_eq_none_iff, fun t e he => ⟨by have := hexDec_length he; omega, hexDec_byteAt he⟩, hexDec_hexEnc⟩

/-- Every digit of a nibble is in 0x30..0x39 or 0x61..0x66 (R152). -/
theorem hexDigit_range {v : Byte} (hv : v ≤ 0x0F) :
    (0x30 ≤ hexDigit v ∧ hexDigit v ≤ 0x39) ∨ (0x61 ≤ hexDigit v ∧ hexDigit v ≤ 0x66) := by
  unfold hexDigit
  split
  · exact .inl (by bv_omega)
  · exact .inr (by bv_omega)

/-- The characters of a hex text are digits of nibbles (R149). -/
theorem mem_hexEnc {s : Bytes} {ch : Byte} (h : ch ∈ hexEnc s) : ∃ v : Byte, v ≤ 0x0F ∧ ch = hexDigit v := by
  obtain ⟨b, -, hb⟩ := List.mem_flatMap.1 h
  simp only [List.mem_cons, List.not_mem_nil, or_false] at hb
  rcases hb with rfl | rfl
  · exact ⟨b >>> 4, by bv_omega, rfl⟩
  · exact ⟨b &&& 0x0F, by rw [BitVec.le_def, BitVec.toNat_and]; exact Nat.and_le_right, rfl⟩

/-- Settles O44: 0x0D and 0x0A lie below every digit. -/
theorem hexTextHasNoTerminator : Obligations.HexTextHasNoTerminator := by
  intro s ch h
  obtain ⟨v, hv, rfl⟩ := mem_hexEnc h
  have hrange := hexDigit_range hv
  exact ⟨by bv_omega, by bv_omega, hrange⟩

end Sys2Proof.Machine
end

section
/-!
The envelope (R172, R181, R182, R185): the text `EnvelopeDecrypt` judges, when it is malformed, and what a text that is not
decrypts to.
-/
namespace Sys2Proof.Machine

/-! The text judged (R151, R152, R181). -/

theorem stripTerm_append_terminator (t : Bytes) : stripTerm (t ++ terminator) = t := by
  rw [stripTerm, if_pos ((endsWithTerm_iff (t ++ terminator)).2 ⟨t, rfl⟩)]
  simp [terminator]

theorem stripTerm_of_no_terminator {s : Bytes} (h : ∀ t, s ≠ t ++ terminator) : stripTerm s = s :=
  if_neg fun hs => let ⟨t, ht⟩ := (endsWithTerm_iff s).1 hs; h t ht

/-- A hex text does not end with the terminator, whose bytes are no digits (R152). -/
theorem hexEnc_ne_append_terminator (s t : Bytes) : hexEnc s ≠ t ++ terminator := by
  intro h
  obtain ⟨-, hlf, -⟩ := hexTextHasNoTerminator s 0x0A (by simp [h, terminator])
  exact hlf rfl

/-- The text judged of an envelope is its hex text, with or without the terminator (R172). -/
theorem stripTerm_envelopeEncrypt (key iv p : Bytes) (term : Bool) :
    stripTerm (envelopeEncrypt key iv p term) = hexEnc (iv ++ cbcEnc key iv (pad p)) := by
  cases term with
  | true => exact stripTerm_append_terminator _
  | false => exact stripTerm_of_no_terminator (hexEnc_ne_append_terminator _)

/-! Malformed texts, and the rest (R181). -/

/-- The texts that are no hex of an IV and whole ciphertext blocks. -/
def Malformed (t : Bytes) : Prop :=
  t.length < 32 ∨ t.length % 2 = 1 ∨ (∃ ch ∈ t, hexVal ch = none) ∨ (t.length / 2 - 16) % 16 ≠ 0

theorem envelopeDecrypt_of_malformed {s : Bytes} (key : Bytes) (h : Malformed (stripTerm s)) :
    envelopeDecrypt key s = .fail .malformedEnvelope := by
  rw [envelopeDecrypt]
  by_cases hshort : (stripTerm s).length < 32
  · exact if_pos hshort
  · rw [if_neg hshort]
    cases hdec : hexDec (stripTerm s) with
    | none => rfl
    | some e =>
      have hlen := hexDec_length hdec
      obtain hodd | hch | hblocks := h.resolve_left hshort
      · omega
      · simp [(hexDec_eq_none_iff _).2 (.inr hch)] at hdec
      · exact if_pos (by rw [List.length_drop]; omega)

/-- A text that is not malformed is an IV and whole ciphertext blocks in hex. -/
theorem hexDec_of_not_malformed {t : Bytes} (h : ¬Malformed t) : ∃ iv c, hexDec t = some (iv ++ c) ∧ iv.length = 16 ∧
    t.length = 2 * c.length + 32 ∧ c.length % 16 = 0 := by
  simp only [Malformed, not_or, Classical.not_not] at h
  obtain ⟨hlong, heven, hdigits, hblocks⟩ := h
  cases hdec : hexDec t with
  | none => exact absurd ((hexDec_eq_none_iff t).1 hdec) (not_or.2 ⟨heven, hdigits⟩)
  | some e =>
    have hlen := hexDec_length hdec
    refine ⟨e.take 16, e.drop 16, by rw [List.take_append_drop], ?_, ?_, ?_⟩ <;> simp <;> omega

/-- Such a text's result is the unpadded plaintext with the IV, or `INVALID_PADDING` where there is none. An empty ciphertext
has no plaintext to unpad. -/
theorem envelopeDecrypt_of_hexDec {key s iv c : Bytes} (hdec : hexDec (stripTerm s) = some (iv ++ c)) (hiv : iv.length = 16)
    (hc : c.length % 16 = 0) :
    envelopeDecrypt key s = (unpad (cbcDec key iv c)).elim (.fail .invalidPadding) (.ok · iv) := by
  have hlen := hexDec_length hdec
  rw [List.length_append] at hlen
  rw [envelopeDecrypt, if_neg (by omega), hdec]
  simp only [List.take_left' hiv, List.drop_left' hiv, hc, ne_eq, not_true_eq_false, if_false]
  split
  · rename_i hempty
    rw [List.length_eq_zero_iff.1 hempty]; rfl
  · cases unpad (cbcDec key iv c) <;> rfl

theorem envelopeDecrypt_malformed_iff (key s : Bytes) :
    envelopeDecrypt key s = .fail .malformedEnvelope ↔ Malformed (stripTerm s) := by
  refine ⟨fun h => Classical.byContradiction fun hm => ?_, envelopeDecrypt_of_malformed key⟩
  obtain ⟨iv, c, hdec, hiv, -, hc⟩ := hexDec_of_not_malformed hm
  rw [envelopeDecrypt_of_hexDec hdec hiv hc] at h
  cases hp : unpad (cbcDec key iv c) <;> simp [hp] at h

/-- The last byte decides what is stripped (R146). -/
theorem unpad_of_getLast? {d : Bytes} {n : Byte} (h : d.getLast? = some n) : unpad d =
    if 1 ≤ n.toNat ∧ n.toNat ≤ 16 ∧ n.toNat ≤ d.length then some (d.take (d.length - n.toNat)) else none := by
  by_cases hn : 1 ≤ n.toNat ∧ n.toNat ≤ 16 ∧ n.toNat ≤ d.length
  · rw [if_pos hn]
    obtain ⟨h1, h16, hle⟩ := hn
    exact unpad_eq_some_iff.2 ⟨n, h, h1, h16, hle, rfl⟩
  · rw [if_neg hn]
    refine Option.eq_none_iff_forall_ne_some.2 fun p hp => hn ?_
    obtain ⟨m, hm, h1, h16, hle, -⟩ := unpad_eq_some_iff.1 hp
    obtain rfl : n = m := Option.some.inj (h.symm.trans hm)
    exact ⟨h1, h16, hle⟩

/-- Settles O47: what is not malformed decodes to an IV and whole blocks, whose last decrypted byte decides the padding. -/
theorem envelopeFailures : Obligations.EnvelopeFailures := by
  intro key s t malformed
  refine ⟨fun t' hs => (congrArg stripTerm hs).trans (stripTerm_append_terminator t'), stripTerm_of_no_terminator,
    envelopeDecrypt_malformed_iff key s, fun hm hlen => ?_, fun hm hlen => ?_⟩
  · obtain ⟨iv, c, hdec, hiv, htext, hc⟩ := hexDec_of_not_malformed hm
    obtain rfl : c = [] := List.length_eq_zero_iff.1 (by omega)
    exact envelopeDecrypt_of_hexDec hdec hiv hc
  · obtain ⟨iv, c, hdec, hiv, htext, hc⟩ := hexDec_of_not_malformed hm
    have hres := envelopeDecrypt_of_hexDec (key := key) hdec hiv hc
    have hd : cbcDec key iv c ≠ [] := List.length_pos_iff.1 (by rw [cbcDec_length]; omega)
    have hlast := getLast?_eq_byteAt hd
    rw [unpad_of_getLast? hlast] at hres
    refine ⟨iv, c, _, _, hdec, hiv, List.length_pos_iff.1 (by omega), hc, rfl, hlast, fun hn => ?_, fun h1 h16 hle => ?_⟩
    · rw [hres, if_neg (by omega)]; rfl
    · rw [hres, if_pos ⟨h1, h16, hle⟩]; rfl

/-- Settles O46: the text holds 64 characters beside 32 for each whole block of the plaintext. -/
theorem decryptedLengths : Obligations.DecryptedLengths := by
  intro key s p iv hs h
  obtain ⟨hiv, -, hblocks⟩ := envelopeDecrypt_lengths h
  exact ⟨by omega, hiv⟩

/-- Decrypting an envelope undoes the terminator, the hex text, CBC and the padding in turn (R185). -/
theorem envelopeDecrypt_envelopeEncrypt (key p : Bytes) {iv : Bytes} (term : Bool) (hiv : iv.length = 16) :
    envelopeDecrypt key (envelopeEncrypt key iv p term) = .ok p iv := by
  have hdec : hexDec (stripTerm (envelopeEncrypt key iv p term)) = some (iv ++ cbcEnc key iv (pad p)) := by
    rw [stripTerm_envelopeEncrypt, hexDec_hexEnc]
  have hpad : (pad p).length % 16 = 0 := by rw [pad_length]; omega
  rw [envelopeDecrypt_of_hexDec hdec hiv (by rw [cbcEnc_length]; omega), cbcInverse key iv _ hpad, unpad_pad]
  rfl

end Sys2Proof.Machine
end

section
/-!
Acceptance of the cipher commands (R170, R173, R174, R179, R180): what each body does, case by case, and the whole next state
of an idle block.
-/
namespace Sys2Proof.Machine

variable {src : Src} {s : State}

/-- A command whose body completes it in `t` leaves the engine idle as it was (R101). -/
theorem exec_of_finish {i : Instr} {code : ResultCode} {t : State} (hb : s.busy = false)
    (h : commandBody i (beginCommand (opcodeOf i) s) = finish code t) (ht : t.busy = false) :
    exec i s = .next { t with done := true, result := code } := by
  rw [exec_idle i hb, h, finish, ← busy_eq_false.1 ht]

/-! KEY_LOCK (R170). -/

/-- Locking a locked key changes nothing. -/
theorem keyLockBody_ok (h : s.keyLocked = true ∨ s.keyWmask = 0xFF) : keyLockBody s = finish .ok (lockKey s) := by
  by_cases hk : s.keyLocked = true
  · rw [keyLockBody, if_pos hk, lockKey, ← hk]
  · rw [keyLockBody, if_neg hk, if_pos (h.resolve_left hk)]

theorem keyLockBody_noKey (hk : s.keyLocked = false) (hm : s.keyWmask ≠ 0xFF) : keyLockBody s = finish .noKey s := by
  rw [keyLockBody, if_neg (by simp [hk]), if_neg hm]

/-- Settles O21: the lock or the refusal is the whole change beside the common part. -/
theorem keyLockResult : Obligations.KeyLockResult := fun s hb =>
  ⟨fun h => exec_of_finish (t := lockKey (beginCommand 0x06 s)) hb (keyLockBody_ok h) hb,
    fun hk hm => exec_of_finish (t := beginCommand 0x06 s) hb (keyLockBody_noKey hk hm) hb⟩

/-! ENCRYPT (R173, R174). -/

theorem encryptBody_noKey (hk : s.keyLocked = false) : encryptBody s = finish .noKey (clearTxLen s) := by
  simp [encryptBody, hk]

theorem encryptBody_badLength (hk : s.keyLocked = true) (hl : 255 < s.ptLen.toNat) :
    encryptBody s = finish .badLength (clearTxLen s) := by
  simp [encryptBody, hk, Config.maxPt, hl]

/-- Settles O22: a refusal clears `TX_LEN` beside the common part, else the command runs. -/
theorem encryptAcceptance : Obligations.EncryptAcceptance := fun s hb =>
  ⟨fun hk => exec_of_finish (t := clearTxLen (beginCommand 0x01 s)) hb (encryptBody_noKey hk) hb,
    fun hk hl => exec_of_finish (t := clearTxLen (beginCommand 0x01 s)) hb (encryptBody_badLength hk hl) hb,
    fun hk hl => exec_encrypt_runs hb hk hl⟩

/-! DECRYPT (R179, R180). -/

/-- The length of the text DECRYPT reads (R103). -/
def srcLength (src : Src) (s : State) : Nat := if src = .rxBuf then s.rxLen.toNat else s.txLen.toNat

/-- Both buffers hold 546 bytes (R9). -/
theorem srcLimits_eq (src : Src) (s : State) : srcLimits src s = (srcLength src s, 546) := by
  cases src <;> rfl

theorem length_srcText (src : Src) (s : State) : (srcText src s).length = srcLength src s := by
  rw [srcText_length, srcLimits_eq]

theorem decryptBody_noKey (hk : s.keyLocked = false) : decryptBody src s = finish .noKey (clearPtLen s) := by
  simp [decryptBody, hk]

theorem decryptBody_badLength (hk : s.keyLocked = true) (hl : 546 < srcLength src s) :
    decryptBody src s = finish .badLength (clearPtLen s) := by
  simp [decryptBody, hk, srcLimits_eq, hl]

theorem decryptBody_runs (hk : s.keyLocked = true) (hl : srcLength src s ≤ 546) :
    decryptBody src s = startDecrypt src s := by
  simp [decryptBody, hk, srcLimits_eq, Nat.not_lt.2 hl]

/-- A DECRYPT with the key locked and a source within its buffer runs (R179). -/
theorem exec_decrypt_runs (hb : s.busy = false) (hk : s.keyLocked = true) (hl : srcLength src s ≤ 546) :
    exec (.decrypt src) s = .next (startDecrypt src (beginCommand 0x02 s)) :=
  (exec_idle _ hb).trans (congrArg _ (decryptBody_runs hk hl))

/-- The largest value of `TX_LEN` is an envelope of 544 characters and its terminator (R41). -/
theorem txLenLegal_le {n : Nat} (h : txLenLegal n) : n ≤ 546 := by
  obtain rfl | ⟨k, -, hk, rfl | rfl⟩ := h <;> omega

/-- Settles O26: a refusal clears `PT_LEN` beside the common part, else the command runs. -/
theorem decryptAcceptance : Obligations.DecryptAcceptance := fun _ s hb =>
  ⟨fun hk => exec_of_finish (t := clearPtLen (beginCommand 0x02 s)) hb (decryptBody_noKey hk) hb,
    fun hk hl => exec_of_finish (t := clearPtLen (beginCommand 0x02 s)) hb (decryptBody_badLength hk hl) hb,
    fun hk hl => exec_decrypt_runs hb hk hl, fun h => txLenLegal_le h.txLen⟩

end Sys2Proof.Machine
end

section
/-!
Completion of the cipher commands (R176 to R178, R183, R185, R186): the outputs read back, at the event level and in a clock
cycle, and the round trip on the machine.
-/
namespace Sys2Proof.Machine

variable {src : Src} {s : State} {c : ClockIn}

/-! ENCRYPT (R177, R178, R186). -/

/-- An Engine step of a running ENCRYPT completes it with the held draw or this step's (R176, R177). -/
theorem run_engine_encrypting (e : Option (BitVec 128)) (he : s.engine = .encrypting) :
    runEvent (.engine e) s = .next (encryptComplete (drawOf s.entropy e) s) := by
  simp only [runEvent, engineStep, he]

/-- Without a draw, held or of this step, the completion clears `TX_LEN` (R178). -/
theorem run_engine_noDraw (he : s.engine = .encrypting) (hent : s.entropy = .idle) :
    runEvent (.engine none) s = .next (finish .randomUnavailable (clearTxLen s)) := by
  have hdraw : drawOf s.entropy none = none := by rw [hent]; rfl
  rw [run_engine_encrypting none he, hdraw, encryptComplete, releaseEntropy_of_idle hent]

/-- The envelope of the running ENCRYPT with the draw `d` (R177). -/
def envelopeOf (s : State) (d : BitVec 128) : Bytes :=
  envelopeEncrypt (keyString s) (bytesOfDraw d) (ptText s) s.txTerm

/-- The outputs of a completion with the draw `d` (R177). -/
theorem encryptComplete_reads (d : BitVec 128) (hl : s.ptLen.toNat ≤ 255) :
    txText (encryptComplete (some d) s) = envelopeOf s d ∧ ivString (encryptComplete (some d) s) = bytesOfDraw d ∧
    ∀ off, off < txBase ∨ txBase + (envelopeOf s d).length ≤ off →
      readByte (encryptComplete (some d) s) off = readByte s off := by
  obtain ⟨-, htext⟩ := putEnvelope_reads (iv := bytesOfDraw d) (releaseEntropy s) (envelope_fits d hl)
  exact ⟨htext, ivString_of_ivWords (bytesOfDraw_length d) rfl, fun off => loadByte_storeBytes_outside s.mem s.epoch _⟩

/-- Settles O24: the refusals are those of the acceptance; without a draw the completion clears `TX_LEN` only. -/
theorem encryptFailureEffects : Obligations.EncryptFailureEffects := by
  intro s hb hent
  obtain ⟨hnoKey, hbadLength, -⟩ := encryptAcceptance s hb
  refine ⟨fun h => ?_, fun hk hl => ⟨_, exec_encrypt_runs hb hk hl, ?_⟩⟩
  · cases hk : s.keyLocked with
    | false => exact ⟨_, hnoKey hk, .inl rfl, hk ▸ rfl⟩
    | true => exact ⟨_, hbadLength hk (h.resolve_left (by simp [hk])), .inr rfl, hk ▸ rfl⟩
  · rw [run_engine_noDraw (s := startEncrypt (beginCommand 0x01 s)) rfl hent, busy_eq_false.1 hb]; rfl

/-- Settles O25: only a draw ends with `OK`, and the envelope is the hex text of the IV and whole padded blocks. -/
theorem envelopeShape : Obligations.EnvelopeShape := by
  intro s u e he hl h hok
  rw [run_engine_encrypting e he] at h
  obtain rfl := next_inj h
  cases hd : drawOf s.entropy e with
  | none => simp [hd, encryptComplete] at hok
  | some d =>
    obtain ⟨htext, hiv, -⟩ := encryptComplete_reads d hl
    have hc : (cbcEnc (keyString s) (bytesOfDraw d) (pad (ptText s))).length = 16 * (s.ptLen.toNat / 16 + 1) := by
      rw [cbcEnc_length, pad_length, ptText_length]; omega
    have hhex : (hexEnc (bytesOfDraw d ++ cbcEnc (keyString s) (bytesOfDraw d) (pad (ptText s)))).length =
        32 + 32 * (s.ptLen.toNat / 16 + 1) := by
      rw [hexEnc_length, List.length_append, hc, bytesOfDraw_length]; omega
    refine ⟨?_, bytesOfDraw d, _, _, rfl, by omega, by omega, hiv, rfl, by omega, by omega, htext.trans ?_⟩
    · rw [← txText_length, htext, envelopeOf, envelopeEncrypt_length, bytesOfDraw_length, ptText_length]
    · cases hterm : s.txTerm <;> simp [envelopeOf, envelopeEncrypt, hterm, terminator]

/-! DECRYPT (R183). -/

theorem run_engine_decrypting (e : Option (BitVec 128)) (he : s.engine = .decrypting src) :
    runEvent (.engine e) s = .next (decryptComplete src s) := by
  simp only [runEvent, engineStep, he]

theorem decryptComplete_of_ok {p iv : Bytes} (h : envelopeDecrypt (keyString s) (srcText src s) = .ok p iv) :
    decryptComplete src s = finish .ok (putPlaintext p iv s) := by
  rw [decryptComplete, h]; rfl

theorem decryptComplete_of_fail {code : ResultCode} (h : envelopeDecrypt (keyString s) (srcText src s) = .fail code) :
    decryptComplete src s = finish code (clearPtLen s) := by
  rw [decryptComplete, h]; rfl

/-- The outputs of a completion with a good envelope (R183). -/
theorem decryptComplete_reads {p iv : Bytes} (hl : srcLength src s ≤ 546)
    (h : envelopeDecrypt (keyString s) (srcText src s) = .ok p iv) :
    ptText (decryptComplete src s) = p ∧ ivString (decryptComplete src s) = iv ∧
    ∀ off, off < ptBase ∨ ptBase + p.length ≤ off → readByte (decryptComplete src s) off = readByte s off := by
  obtain ⟨hp, hiv⟩ := decryptedLengths _ _ _ _ (by rwa [length_srcText]) h
  obtain ⟨-, htext⟩ := putPlaintext_reads (iv := iv) s (Nat.le_succ_of_le hp)
  rw [decryptComplete_of_ok h]
  exact ⟨htext, ivString_of_ivWords hiv rfl, fun off => loadByte_storeBytes_outside s.mem s.epoch _⟩

/-- Settles O27: acceptance leaves the key and the text, and the completion writes the plaintext or clears `PT_LEN`. -/
theorem decryptCompletes : Obligations.DecryptCompletes := by
  intro src s e hb hk hl
  refine ⟨_, _, exec_decrypt_runs hb hk hl, rfl, run_engine_decrypting e rfl, fun p iv h => ?_,
    fun code h => ⟨envelopeDecrypt_fail h, ?_⟩⟩
  · obtain ⟨htext, hiv, hframe⟩ := decryptComplete_reads (s := startDecrypt src (beginCommand 0x02 s)) hl h
    refine ⟨?_, htext, hiv, hframe, ?_⟩
    · rw [← ptText_length, htext]
    · rw [decryptComplete_of_ok (s := startDecrypt src (beginCommand 0x02 s)) h, busy_eq_false.1 hb]; rfl
  · rw [decryptComplete_of_fail (s := startDecrypt src (beginCommand 0x02 s)) h, busy_eq_false.1 hb]; rfl

/-! The round trip on the machine (R185). -/

/-- Settles O45: the text ENCRYPT leaves in `TX_BUF` is the envelope, DECRYPT's source, and decrypts to what was encrypted. -/
theorem roundTrip : Obligations.RoundTrip := by
  refine ⟨fun key iv p term hiv _ => envelopeDecrypt_envelopeEncrypt key p term hiv, fun s d e hb hk hl hent => ?_⟩
  obtain ⟨hcompletes, -, -⟩ := encryptCompletes
  obtain ⟨t, u, ht, -, hu, hlen, htext, -, -, hframe⟩ := hcompletes s d hb hk hl hent
  have hdec : envelopeDecrypt (keyString u) (srcText .txBuf u) = .ok (ptText s) (bytesOfDraw d) := by
    rw [show srcText .txBuf u = _ from htext, keyString_congr (s := u) (t := s) (by rw [hframe])]
    exact envelopeDecrypt_envelopeEncrypt _ _ _ (bytesOfDraw_length d)
  have hbu : u.busy = false := by rw [hframe]; exact hb
  have hku : u.keyLocked = true := by rw [hframe]; exact hk
  obtain ⟨v, w, hv, -, hw, hok, -⟩ := decryptCompletes .txBuf u e hbu hku (hlen ▸ envelope_fits d hl)
  obtain ⟨hptLen, hpt, hiv, -, hwframe⟩ := hok _ _ hdec
  refine ⟨t, u, v, w, ht, hu, hv, hw, by rw [hwframe], hpt, ?_, hiv⟩
  exact BitVec.eq_of_toNat_eq (hptLen.trans (ptText_length s))

/-! A clock cycle of a running cipher command (R250). -/

/-- `s` with what a host access may write while the block is busy, as in `p` (R76, R77, R80). -/
def withHostAccess (p s : State) : State := { s with
  done := p.done, cmdRejected := p.cmdRejected, rxOvf := p.rxOvf, wrIgnored := p.wrIgnored, prdata := p.prdata,
  draws := p.draws, pslverr := p.pslverr }

/-- `s` with what the RX line, the Timer and the irq pin write in a cycle without a reception, as in `p` (R201, R203, R248). -/
def withLineAndTimer (p s : State) : State := { s with
  irqPin := p.irqPin, mono := p.mono, rxFifo := p.rxFifo, rxOvf := p.rxOvf }

theorem cycleEnd_eq_withLineAndTimer {w : State} (c : ClockIn) (s : State) (hw : ∀ mode, w.engine ≠ .receiving mode) :
    cycleEnd c (irq s) w = withLineAndTimer (cycleEnd c (irq s) w) w := by
  rw [cycleEnd, cycleEnd_frame hw]; rfl

/-- A cycle of a command that completes by `complete` when the engine is ready, and waits when it is not: the completion, or
the wait, stands between a host access and the end of the cycle. -/
theorem clockCycle_of_completion {complete : State → State} (hr : c.rstN = true)
    (hs : s.engine = .encrypting ∨ ∃ src, s.engine = .decrypting src) (hdone : ∀ u, (complete u).engine = .idle)
    (hphase : ∀ p, enginePhase c s.engine (withHostAccess p s) =
      if c.engineReady then complete (withHostAccess p s) else withHostAccess p s) :
    ∃ p q, clockCycle c s =
      .next (withLineAndTimer q (if c.engineReady then complete (withHostAccess p s) else withHostAccess p s)) := by
  have hb : s.busy = true := by obtain he | ⟨src, he⟩ := hs <;> simp [busy_eq_true, he]
  have hkind : ∀ mode, s.engine ≠ .receiving mode := by obtain he | ⟨src, he⟩ := hs <;> simp [he]
  obtain ⟨u, hu⟩ := busPhase_next c s
  obtain ⟨p, rfl⟩ : ∃ p, u = withHostAccess p s := ⟨u, busPhase_busy hu hb⟩
  have hrecv : ∀ mode, (enginePhase c s.engine (withHostAccess p s)).engine ≠ .receiving mode := by
    rw [hphase p]
    split
    · simp [hdone]
    · exact hkind
  refine ⟨p, cycleEnd c (irq s) (enginePhase c s.engine (withHostAccess p s)), ?_⟩
  rw [← hphase p]
  exact (clockCycle_of_bus hr hu).trans (congrArg _ (cycleEnd_eq_withLineAndTimer c s hrecv))

/-- The Engine's part for an ENCRYPT that holds the draw `d` (log entry 11). -/
theorem enginePhase_held {d : Option (BitVec 128)} (hent : s.entropy = .answered d) :
    enginePhase c .encrypting s = if c.engineReady then encryptComplete d s else s := by
  have hkeep : setEntropy (.answered d) s = s := by rw [setEntropy, ← hent]
  simp only [enginePhase, entropyCycle, hent, takeDraw, hkeep]

theorem decryptComplete_done (src : Src) (s : State) :
    (decryptComplete src s).engine = .idle ∧ (decryptComplete src s).done = true := by
  rw [decryptComplete, finishDecrypt_frame]; exact ⟨rfl, rfl⟩

/-- What `t` shows of an ENCRYPT run on `s` that completed with the draw `d` (R177, R178). -/
def EncryptShown (d : Option (BitVec 128)) (s t : State) : Prop :=
  t.busy = false ∧ t.done = true ∧ t.entropy = .idle ∧
    (d = none → t.result = .randomUnavailable ∧ t.txLen = 0 ∧ t.iv = s.iv ∧ ∀ off, readByte t off = readByte s off) ∧
    ∀ iv, d = some iv → t.result = .ok ∧ txText t = envelopeOf s iv ∧ ivString t = bytesOfDraw iv ∧
      ∀ off, off < txBase ∨ txBase + (txText t).length ≤ off → readByte t off = readByte s off

theorem encryptComplete_shown (d : Option (BitVec 128)) (hl : s.ptLen.toNat ≤ 255) :
    EncryptShown d s (encryptComplete d s) := by
  cases d with
  | none => exact ⟨rfl, rfl, rfl, fun _ => ⟨rfl, rfl, rfl, fun _ => rfl⟩, nofun⟩
  | some iv =>
    obtain ⟨htext, hiv, hframe⟩ := encryptComplete_reads iv hl
    refine ⟨rfl, rfl, rfl, nofun, ?_⟩
    rintro _ ⟨⟩
    exact ⟨rfl, htext, hiv, htext ▸ hframe⟩

/-- What `t` shows of a DECRYPT run on `s` that completed (R183). -/
def DecryptShown (src : Src) (s t : State) : Prop :=
  t.busy = false ∧ t.done = true ∧
    (∀ p iv, envelopeDecrypt (keyString s) (srcText src s) = .ok p iv → t.result = .ok ∧ ptText t = p ∧ ivString t = iv ∧
      ∀ off, off < ptBase ∨ ptBase + p.length ≤ off → readByte t off = readByte s off) ∧
    (∀ code, envelopeDecrypt (keyString s) (srcText src s) = .fail code →
      t.result = code ∧ t.ptLen = 0 ∧ t.iv = s.iv ∧ ∀ off, readByte t off = readByte s off)

theorem decryptComplete_shown (hl : srcLength src s ≤ 546) : DecryptShown src s (decryptComplete src s) := by
  obtain ⟨heng, hdone⟩ := decryptComplete_done src s
  refine ⟨busy_eq_false.2 heng, hdone, fun p iv h => ⟨?_, decryptComplete_reads hl h⟩, fun code h => ?_⟩
  · rw [decryptComplete_of_ok h]; rfl
  · rw [decryptComplete_of_fail h]; exact ⟨rfl, rfl, rfl, fun _ => rfl⟩

/-- Settles O60: neither the host access before a completion nor the end of the cycle after it touches what the completion
reads or shows. -/
theorem clockCycleCompletesCipherCommands : Obligations.ClockCycleCompletesCipherCommands := by
  refine ⟨fun s d e he hent hl => ⟨_, run_engine_encrypting e he, ?_⟩, fun c s d he hent hl hr => ?_,
    fun c s src he hl hr => ?_⟩
  · rw [hent]; exact encryptComplete_shown d hl
  · obtain ⟨p, q, h⟩ := clockCycle_of_completion (complete := encryptComplete d) hr (.inl he)
      (fun u => by rw [encryptComplete_frame]) fun p => by rw [he]; exact enginePhase_held (s := withHostAccess p s) hent
    refine ⟨_, h, fun hready => ?_, fun hready => ?_⟩
    · rw [if_pos hready]; exact encryptComplete_shown (s := withHostAccess p s) d hl
    · rw [if_neg (by simp [hready])]; exact ⟨he, hent⟩
  · obtain ⟨p, q, h⟩ := clockCycle_of_completion (complete := decryptComplete src) hr (.inr ⟨src, he⟩)
      (fun u => (decryptComplete_done src u).1) fun p => by rw [he]; rfl
    refine ⟨_, h, fun hready => ?_, fun hready => ?_⟩
    · rw [if_pos hready]; exact decryptComplete_shown (s := withHostAccess p s) hl
    · rw [if_neg (by simp [hready])]; exact he

end Sys2Proof.Machine
end

section
/-!
Acceptance of the frame commands (R205, R207, R209, R210): what each body does, case by case, and the whole next state of an
idle block.
-/
namespace Sys2Proof.Machine

variable {s : State} {mode : FrameMode}

theorem frameRecvBody_noKey (hk : s.keyLocked = false) : frameRecvBody s = finish .noKey (clearPtLen s) := by
  simp [frameRecvBody, hk]

theorem frameRecvBody_locked (hk : s.keyLocked = true) : frameRecvBody s = frameAccept .decode (clearPtLen s) := by
  simp [frameRecvBody, hk]

/-- With `TIMEOUT = 0` the deadline is the time of the acceptance (R205). -/
theorem frameAccept_elapsed (ht : s.timeout = 0) : frameAccept mode s =
    finish .timeout { s with rxLen := 0, frameStart := s.mono, frameTo := 0, deadline := s.mono } := by
  rw [frameAccept, if_pos ht, latchFrame, ht]; simp

theorem frameAccept_starts (ht : s.timeout ≠ 0) : frameAccept mode s = startReceiving mode (latchFrame s) := if_neg ht

/-- Settles O28: the refusal clears `PT_LEN` beside the common part. -/
theorem frameRecvNeedsKey : Obligations.FrameRecvNeedsKey := fun s hb hk =>
  exec_of_finish (t := clearPtLen (beginCommand 0x03 s)) hb (frameRecvBody_noKey hk) hb

theorem exec_frameRaw (hb : s.busy = false) : exec .frameRaw s = .next (frameAccept .raw (beginCommand 0x04 s)) :=
  exec_idle _ hb

theorem exec_frameRecv (hb : s.busy = false) (hk : s.keyLocked = true) :
    exec .frameRecv s = .next (frameAccept .decode (clearPtLen (beginCommand 0x03 s))) :=
  (exec_idle _ hb).trans (congrArg _ (frameRecvBody_locked (s := beginCommand 0x03 s) hk))

/-- Settles O29: both commands are the frame acceptance, and `TIMEOUT` decides whether it completes or starts. -/
theorem frameAcceptance : Obligations.FrameAcceptance := by
  intro s hb
  refine ⟨fun ht => ⟨?_, fun hk => ?_⟩, fun ht => ⟨?_, fun hk => ?_⟩⟩
  · rw [exec_frameRaw hb, frameAccept_elapsed (s := beginCommand 0x04 s) ht, busy_eq_false.1 hb]; rfl
  · rw [exec_frameRecv hb hk, frameAccept_elapsed (s := clearPtLen (beginCommand 0x03 s)) ht, busy_eq_false.1 hb]; rfl
  · rw [exec_frameRaw hb, frameAccept_starts (s := beginCommand 0x04 s) ht]; rfl
  · rw [exec_frameRecv hb hk, frameAccept_starts (s := clearPtLen (beginCommand 0x03 s)) ht]; rfl

/-- Settles O30: the flush is the whole change beside the common part. -/
theorem rxFlushEmptiesFifo : Obligations.RxFlushEmptiesFifo := fun s hb =>
  exec_of_finish (t := emptyFifo (beginCommand 0x05 s)) hb rfl hb

end Sys2Proof.Machine
end

section
/-!
The byte step of a reception (R206, R208): which of its outcomes a byte has, what the step writes, and the frame it ends read
back (O34, O35).
-/
namespace Sys2Proof.Machine

variable {mode : FrameMode} {s : State} {b : Byte} {rest : Bytes}

/-! The outcomes of a byte step. -/

theorem engineStep_idle (e : Option (BitVec 128)) (he : s.engine = .idle) : engineStep e s = s := by
  simp only [engineStep, he]

theorem engineStep_receiving (e : Option (BitVec 128)) (he : s.engine = .receiving mode) :
    engineStep e s = frameByte mode s := by
  simp only [engineStep, he]

theorem run_engine_receiving (e : Option (BitVec 128)) (he : s.engine = .receiving mode) :
    runEvent (.engine e) s = .next (frameByte mode s) := congrArg _ (engineStep_receiving e he)

theorem frameByte_empty (hf : s.rxFifo = []) : frameByte mode s = s := by
  simp only [frameByte, hf]

theorem frameByte_cons (hf : s.rxFifo = b :: rest) : frameByte mode s = afterByte mode (takeByte b rest s) := by
  simp only [frameByte, hf]

/-- The byte that ends the text with CR LF completes the frame (R206). -/
theorem frameByte_completes (hf : s.rxFifo = b :: rest) (hl : s.rxLen.toNat < 546)
    (ht : endsWithTerm (rxText s ++ [b]) = true) : frameByte mode s = completeFrame mode (takeByte b rest s) := by
  rw [frameByte_cons hf, afterByte, rxText_takeByte b rest s hl, if_pos ht]

/-- The byte that fills `RX_BUF` without ending the frame overflows it (R206). -/
theorem frameByte_overflows (hf : s.rxFifo = b :: rest) (ht : endsWithTerm (rxText s ++ [b]) = false)
    (hl : s.rxLen.toNat + 1 = 546) : frameByte mode s = finish .frameOverflow (takeByte b rest s) := by
  have hroom : s.rxLen.toNat < 546 := by omega
  have hfull : (takeByte b rest s).rxLen.toNat = Config.rxCap := (rxLen_succ hroom).trans hl
  rw [frameByte_cons hf, afterByte, rxText_takeByte b rest s hroom, if_neg (by simp [ht]), if_pos hfull]

/-- Every other byte is only stored (R206). -/
theorem frameByte_stores (hf : s.rxFifo = b :: rest) (ht : endsWithTerm (rxText s ++ [b]) = false)
    (hl : s.rxLen.toNat + 1 < 546) : frameByte mode s = takeByte b rest s := by
  have hroom : s.rxLen.toNat < 546 := by omega
  have hlen : (takeByte b rest s).rxLen.toNat = s.rxLen.toNat + 1 := rxLen_succ hroom
  rw [frameByte_cons hf, afterByte, rxText_takeByte b rest s hroom, if_neg (by simp [ht]),
    if_neg (by rw [hlen]; exact Nat.ne_of_lt hl)]

/-! What a byte step writes. -/

theorem rxFifo_frameByte (mode : FrameMode) (s : State) : (frameByte mode s).rxFifo = s.rxFifo.tail := by
  cases hf : s.rxFifo with
  | nil => rw [frameByte_empty hf, hf]; rfl
  | cons b rest => rw [frameByte_cons hf, afterByte_frame]; rfl

theorem rxLen_frameByte (mode : FrameMode) (hf : s.rxFifo = b :: rest) : (frameByte mode s).rxLen = s.rxLen + 1 := by
  rw [frameByte_cons hf, afterByte_frame]; rfl

/-- A complete frame decrypted is DECRYPT's completion with the source `RX_BUF` (R208, R183). -/
theorem completeFrame_decode (s : State) : completeFrame .decode s = decryptComplete .rxBuf s := rfl

theorem completeFrame_done (mode : FrameMode) (s : State) :
    (completeFrame mode s).engine = .idle ∧ (completeFrame mode s).done = true := by
  cases mode with
  | raw => exact ⟨rfl, rfl⟩
  | decode => exact decryptComplete_done .rxBuf s

/-- What follows a stored byte leaves `RX_BUF` and its length (R208). -/
theorem rxText_afterByte (mode : FrameMode) (s : State) : rxText (afterByte mode s) = rxText s := by
  have hlen : (afterByte mode s).rxLen = s.rxLen := by rw [afterByte_frame]
  rw [rxText, hlen]
  exact readBytes_of_eq fun i _ => readByte_afterByte mode s (by simp only [txBase, rxBase]; omega)

/-- The text received after a byte step (R206). -/
theorem rxText_frameByte (mode : FrameMode) (hf : s.rxFifo = b :: rest) (hl : s.rxLen.toNat < 546) :
    rxText (frameByte mode s) = rxText s ++ [b] := by
  rw [frameByte_cons hf, rxText_afterByte, rxText_takeByte b rest s hl]

/-- A byte step without a decryption writes one byte of the buffers (R206, R209). -/
theorem readByte_frameByte_of_kept (hf : s.rxFifo = b :: rest) (hl : s.rxLen.toNat < 546)
    (hkeep : mode = .raw ∨ endsWithTerm (rxText s ++ [b]) = false) {off : Nat} (hoff : off ≠ rxBase + s.rxLen.toNat) :
    readByte (frameByte mode s) off = readByte s off := by
  have hmem : (frameByte mode s).mem = (takeByte b rest s).mem := by
    rw [frameByte_cons hf, afterByte, rxText_takeByte b rest s hl]
    split
    · obtain rfl := hkeep.resolve_right (by simp [*])
      rfl
    · split <;> rfl
  rw [readByte_congr hmem (by rw [frameByte_frame]; rfl) off]
  exact readByte_takeByte_ne b rest s hoff

/-- A frame decrypted shows what DECRYPT shows of its text (R208). -/
theorem completeFrame_decode_shown (b : Byte) (rest : Bytes) (hl : s.rxLen.toNat < 546) :
    DecryptShown .rxBuf (takeByte b rest s) (completeFrame .decode (takeByte b rest s)) :=
  decryptComplete_shown (Nat.le_trans (Nat.le_of_eq (rxLen_succ hl)) hl)

/-- A byte step of any kind writes, beside that byte, only `PT_BUF` (R46, R208). -/
theorem readByte_frameByte_outside (mode : FrameMode) (hf : s.rxFifo = b :: rest) (hl : s.rxLen.toNat < 546) {off : Nat}
    (hpt : off < ptBase ∨ ptBase + Config.ptCap ≤ off) (hoff : off ≠ rxBase + s.rxLen.toNat) :
    readByte (frameByte mode s) off = readByte s off := by
  by_cases hkeep : mode = .raw ∨ endsWithTerm (rxText s ++ [b]) = false
  · exact readByte_frameByte_of_kept hf hl hkeep hoff
  · obtain ⟨hmode, ht⟩ := not_or.1 hkeep
    obtain rfl : mode = .decode := by cases mode <;> simp at hmode ⊢
    obtain ⟨-, -, hok, hfail⟩ := completeFrame_decode_shown b rest hl
    rw [frameByte_completes hf hl (by simpa using ht), ← readByte_takeByte_ne b rest s hoff]
    cases hr : envelopeDecrypt (keyString (takeByte b rest s)) (srcText .rxBuf (takeByte b rest s)) with
    | ok p iv =>
      have hlen : (srcText .rxBuf (takeByte b rest s)).length ≤ 546 := by
        rw [length_srcText]; exact Nat.le_trans (Nat.le_of_eq (rxLen_succ hl)) hl
      obtain ⟨hp, -⟩ := decryptedLengths _ _ _ _ hlen hr
      obtain ⟨-, -, -, hframe⟩ := hok p iv hr
      exact hframe off (hpt.imp_right fun h => by simp only [Config.ptCap] at h; omega)
    | fail code =>
      obtain ⟨-, -, -, hframe⟩ := hfail code hr
      exact hframe off

/-- Settles O34: the terminator test, then the capacity, tells which outcome the byte has. -/
theorem frameByteStep : Obligations.FrameByteStep := by
  intro mode s e he
  rw [run_engine_receiving e he]
  refine ⟨fun hf => congrArg _ (frameByte_empty hf), fun b rest hf hl => ⟨_, rfl, ?_, ?_, rxText_frameByte mode hf hl,
    fun off => readByte_frameByte_outside mode hf hl, ?_, fun ht hfull => ?_, fun ht hroom => ?_,
    fun hkeep off => readByte_frameByte_of_kept hf hl hkeep⟩⟩
  · rw [rxFifo_frameByte, hf]; rfl
  · rw [rxLen_frameByte mode hf]; exact rxLen_succ hl
  · rintro rfl ht
    rw [frameByte_completes hf hl ht]; rfl
  · rw [frameByte_overflows hf ht hfull]; rfl
  · rw [frameByte_stores hf ht hroom]; rfl

/-- Settles O35: the frame is complete in this step, and its decode is DECRYPT's completion on the text received. -/
theorem frameDecodeStep : Obligations.FrameDecodeStep := by
  intro s e b rest he hf hl ht
  have hread : ∀ off, off ≠ rxBase + s.rxLen.toNat → readByte (takeByte b rest s) off = readByte s off := fun off =>
    readByte_takeByte_ne b rest s
  have htext : srcText .rxBuf (takeByte b rest s) = rxText s ++ [b] := rxText_takeByte b rest s hl
  obtain ⟨-, -, hok, hfail⟩ := completeFrame_decode_shown b rest hl
  refine ⟨_, run_engine_receiving e he, rxText_frameByte .decode hf hl, fun p iv h => ?_, fun code h => ?_⟩
  · rw [← htext] at h
    obtain ⟨-, hpt, hiv, hframe⟩ := hok p iv h
    rw [frameByte_completes hf hl ht]
    refine ⟨hpt, ?_, hiv, fun off ho hne => (hframe off ho).trans (hread off hne), ?_⟩
    · rw [← ptText_length, hpt]
    · rw [completeFrame_decode, decryptComplete_of_ok h]; rfl
  · rw [← htext] at h
    obtain ⟨-, -, -, hframe⟩ := hfail code h
    rw [frameByte_completes hf hl ht]
    refine ⟨envelopeDecrypt_fail h, fun off hne => (hframe off).trans (hread off hne), ?_⟩
    rw [completeFrame_decode, decryptComplete_of_fail h]; rfl

end Sys2Proof.Machine
end

section
/-!
The RX line and the Timer beside the Engine (R201, R203, R204, R215): each alone, and in one clock cycle with a byte step.
-/
namespace Sys2Proof.Machine

variable {mode : FrameMode} {s : State} {b : Byte} {rest : Bytes} {c : ClockIn}

/-! A received byte (R201). -/

theorem rxDeliver_push (b : Byte) (h : s.rxFifo.length < 32) : rxDeliver b s = pushByte b s := if_pos h

theorem rxDeliver_lose (b : Byte) (h : 32 ≤ s.rxFifo.length) : rxDeliver b s = loseByte s := if_neg (Nat.not_lt.2 h)

/-- Settles O31: the Engine's pop leaves 31 bytes of a full FIFO before the RX line's part of the cycle. -/
theorem rxByteDelivery : Obligations.RxByteDelivery := by
  intro b s
  refine ⟨fun h => congrArg _ (rxDeliver_push b h), fun h => congrArg _ (rxDeliver_lose b h), ?_⟩
  rintro c mode he hfull hr hsel hv rfl
  have hcycle : clockCycle c s = .next (cycleEnd c (irq s) (frameByte mode (answerBus false s.prdata s))) := by
    rw [clockCycle_of_bus hr (busPhase_quiet hsel s), he]; rfl
  have hpop : (frameByte mode (answerBus false s.prdata s)).rxFifo = s.rxFifo.tail := rxFifo_frameByte mode _
  have hovf : (frameByte mode (answerBus false s.prdata s)).rxOvf = s.rxOvf := by rw [frameByte_frame]; rfl
  generalize frameByte mode (answerBus false s.prdata s) = w at hcycle hpop hovf
  have hrx : rxPhase c w = pushByte c.rxData w :=
    (if_pos hv).trans (rxDeliver_push _ (by rw [hpop, List.length_tail]; omega))
  refine ⟨_, hcycle, ?_, ?_⟩
  · rw [cycleEnd_writes, hrx, ← hpop]; rfl
  · rw [cycleEnd_writes, hrx, ← hovf]; rfl

/-! A tick (R203, R204). -/

theorem tickStep_no_reception (h : ∀ mode, s.engine ≠ .receiving mode) : tickStep s = countTick s := by
  unfold tickStep
  split
  · exact absurd ‹_› (h _)
  all_goals rfl

theorem tickStep_reception (he : s.engine = .receiving mode) : tickStep s = timeoutTest (countTick s) := by
  simp only [tickStep, he]

/-- The tick ends the reception when as many ticks as `TO` have passed, the tick included (R204). -/
theorem tickStep_expires (he : s.engine = .receiving mode) (h : s.frameTo.toNat ≤ (s.mono + 1 - s.frameStart).toNat) :
    tickStep s = finish .timeout (countTick s) := (tickStep_reception he).trans (if_pos h)

theorem tickStep_waits (he : s.engine = .receiving mode) (h : (s.mono + 1 - s.frameStart).toNat < s.frameTo.toNat) :
    tickStep s = countTick s := (tickStep_reception he).trans (if_neg (Nat.not_le.2 h))

/-- Settles O32: the test compares the elapsed time modulo 2^32 with `TO`. -/
theorem tickAndTimeoutTest : Obligations.TickAndTimeoutTest := fun _ =>
  ⟨fun h => congrArg _ (tickStep_no_reception h), fun _ he =>
    ⟨fun h => congrArg _ (tickStep_expires he (by rwa [elapsed_toNat])),
      fun h => congrArg _ (tickStep_waits he (by rwa [elapsed_toNat]))⟩⟩

/-! The terminator in the cycle of a tick (R215). -/

/-- A clock cycle of a reception that ends in it: the byte step, between a host access and the end of the cycle. -/
theorem clockCycle_of_last_byte (he : s.engine = .receiving mode) (hr : c.rstN = true)
    (hlast : ∀ p, (frameByte mode (withHostAccess p s)).engine = .idle) :
    ∃ p q, clockCycle c s = .next (withLineAndTimer q (frameByte mode (withHostAccess p s))) ∧
      (c.tick = true → q.mono = s.mono + 1) := by
  obtain ⟨u, hu⟩ := busPhase_next c s
  obtain ⟨p, rfl⟩ : ∃ p, u = withHostAccess p s := ⟨u, busPhase_busy hu (busy_eq_true.2 (by simp [he]))⟩
  have hphase : enginePhase c s.engine (withHostAccess p s) = frameByte mode (withHostAccess p s) := by rw [he]; rfl
  refine ⟨p, cycleEnd c (irq s) (frameByte mode (withHostAccess p s)), ?_, fun ht => ?_⟩
  · rw [clockCycle_of_bus hr hu, hphase]
    exact congrArg _ (cycleEnd_eq_withLineAndTimer c s (by simp [hlast p]))
  · rw [cycleEnd_writes, if_pos ht, frameByte_frame]; rfl

/-- Settles O56: the byte step leaves no reception for the tick to end, and neither the host access before it nor the end of
the cycle after it touches what it reads or shows. -/
theorem terminatorBeatsDeadline : Obligations.TerminatorBeatsDeadline := by
  intro c mode s b rest he hf hl ht hr htick
  have hlast : ∀ p, frameByte mode (withHostAccess p s) = completeFrame mode (takeByte b rest (withHostAccess p s)) :=
    fun p => frameByte_completes (s := withHostAccess p s) hf hl ht
  obtain ⟨p, q, h, hmono⟩ := clockCycle_of_last_byte he hr fun p => by rw [hlast p]; exact (completeFrame_done _ _).1
  have htext : rxText (frameByte mode (withHostAccess p s)) = rxText s ++ [b] :=
    rxText_frameByte (s := withHostAccess p s) mode hf hl
  rw [hlast p] at h htext
  obtain ⟨heng, hdone⟩ := completeFrame_done mode (takeByte b rest (withHostAccess p s))
  have hraw : mode = .raw → (completeFrame mode (takeByte b rest (withHostAccess p s))).result = .ok := by
    rintro rfl; rfl
  have hdecode : mode = .decode → DecryptShown .rxBuf (takeByte b rest (withHostAccess p s))
      (completeFrame mode (takeByte b rest (withHostAccess p s))) := by
    rintro rfl; exact completeFrame_decode_shown b rest hl
  have hsrc : srcText .rxBuf (takeByte b rest (withHostAccess p s)) = rxText s ++ [b] :=
    rxText_takeByte b rest (withHostAccess p s) hl
  rw [DecryptShown, hsrc] at hdecode
  generalize completeFrame mode (takeByte b rest (withHostAccess p s)) = w at h htext heng hdone hraw hdecode
  refine ⟨_, h, heng, hdone, hmono htick, htext, hraw, fun hm p' iv hdec => ?_, fun hm code hdec => ?_⟩
  · obtain ⟨-, -, hok, -⟩ := hdecode hm
    obtain ⟨hres, hpt, hiv, -⟩ := hok p' iv hdec
    exact ⟨hres, hpt, hiv⟩
  · obtain ⟨-, -, -, hfail⟩ := hdecode hm
    obtain ⟨hres, hlen, -⟩ := hfail code hdec
    exact ⟨hres, hlen, by obtain rfl | rfl := envelopeDecrypt_fail hdec <;> simp⟩

end Sys2Proof.Machine
end

section
/-!
The frame of a stream (O36): how far a schedule has brought a FRAME_RAW is an invariant of the frame events, with what the
schedule still holds as its index, whatever the order in which it delivers bytes, ticks and Engine steps (R211).
-/
namespace Sys2Proof.Machine

/-! Runs of events. -/

theorem runEvents_cons_inv {e : Event} {es : List Event} {s u : State} (h : runEvents (e :: es) s = .next u) :
    ∃ t, runEvent e s = .next t ∧ runEvents es t = .next u := by
  rw [runEvents] at h
  cases ht : runEvent e s with
  | next t => exact ⟨t, rfl, by simpa only [ht] using h⟩
  | fault f | refused r => simp [ht] at h

theorem runEvents_append_inv {es fs : List Event} {s u : State} (h : runEvents (es ++ fs) s = .next u) :
    ∃ t, runEvents es s = .next t ∧ runEvents fs t = .next u := by
  rw [runEvents_append] at h
  cases ht : runEvents es s with
  | next t => exact ⟨t, rfl, by simpa only [ht] using h⟩
  | fault f | refused r => simp [ht] at h

/-- No event of the frame unit clears a flag (R27, R30). -/
theorem frameEvent_flagsKept {e : Event} (he : isFrameEvent e = true) {s t : State} (h : runEvent e s = .next t) :
    FlagsKept s t := by
  obtain ⟨b, rfl⟩ | rfl | ⟨d, rfl⟩ := isFrameEvent_cases he <;> rw [← next_inj h]
  · exact rxPhase_flagsKept (endInputs (some b) false) s
  · exact tickStep_flagsKept s
  · exact enginePart_flagsKept (engineStep_part d s)

theorem runEvents_flagsKept {es : List Event} (hes : ∀ e ∈ es, isFrameEvent e = true) {s t : State}
    (h : runEvents es s = .next t) : FlagsKept s t := by
  induction es generalizing s with
  | nil => rw [← next_inj h]; exact .refl s
  | cons e es ih =>
    obtain ⟨u, hu, ht⟩ := runEvents_cons_inv h
    obtain ⟨he, hes⟩ := List.forall_mem_cons.1 hes
    exact (frameEvent_flagsKept he hu).trans (ih hes ht)

/-! The invariant. -/

variable {frame tail : Bytes} {es : List Event} {s t : State}

/-- A FRAME_RAW under a schedule that still holds `es`, on a stream of which `frame` is the frame and `tail` the bytes after
it: it receives, with the bytes `missing` of the frame still to store and too few ticks to come to time out, or it has the
frame. -/
inductive FrameProgress (frame tail : Bytes) (es : List Event) (s : State) : Prop
  | receiving (missing : Bytes) (he : s.engine = .receiving .raw) (hne : missing ≠ [])
      (hframe : frame = rxText s ++ missing) (hstream : s.rxFifo ++ delivered es = missing ++ tail)
      (htime : (s.mono - s.frameStart).toNat + tickCount es < s.frameTo.toNat)
  | complete (he : s.engine = .idle) (hres : s.result = .ok) (htext : rxText s = frame)
      (htail : s.rxFifo ++ delivered es = tail)

/-- A byte delivered moves from the schedule to the FIFO, unless it is lost (R201). -/
theorem FrameProgress.after_rxByte {b : Byte} (h : FrameProgress frame tail (.rxByte b :: es) s)
    (hovf : (rxDeliver b s).rxOvf = false) : FrameProgress frame tail es (rxDeliver b s) := by
  by_cases hfull : 32 ≤ s.rxFifo.length
  · rw [rxDeliver_lose b hfull] at hovf; cases hovf
  · rw [rxDeliver_push b (Nat.lt_of_not_le hfull)]
    have hmove : (pushByte b s).rxFifo ++ delivered es = s.rxFifo ++ delivered (.rxByte b :: es) := by simp [delivered]
    cases h with
    | receiving missing he hne hframe hstream htime =>
      exact .receiving missing he hne hframe (hmove.trans hstream) htime
    | complete he hres htext htail => exact .complete he hres htext (hmove.trans htail)

/-- One tick more has elapsed, where the count does not wrap (R204). -/
theorem elapsed_succ {now start : Word} (h : (now - start).toNat + 1 < 2 ^ 32) :
    (now + 1 - start).toNat = (now - start).toNat + 1 := by
  bv_omega

/-- A tick does not end the reception, since fewer than `TO` come in all (R204). -/
theorem FrameProgress.after_tick (h : FrameProgress frame tail (.tick :: es) s) :
    FrameProgress frame tail es (tickStep s) := by
  cases h with
  | receiving missing he hne hframe hstream htime =>
    have hticks : tickCount (.tick :: es) = tickCount es + 1 := List.countP_cons_of_pos rfl
    have hnext := elapsed_succ (now := s.mono) (start := s.frameStart) (by have := s.frameTo.isLt; omega)
    rw [tickStep_waits he (by omega)]
    exact .receiving missing he hne hframe hstream (by simp only [countTick]; omega)
  | complete he hres htext htail =>
    rw [tickStep_no_reception (by simp [he])]
    exact .complete he hres htext htail

/-- Before its last byte the frame does not end with CR LF (R211). -/
theorem no_term_before_end {text missing : Bytes} (hterm : firstTermAtEnd (text ++ missing)) (hne : missing ≠ []) :
    endsWithTerm text = false := by
  have h := hterm.2 text.length (by have := List.length_pos_iff.2 hne; simp; omega)
  rwa [List.take_left' rfl] at h

/-- A byte step stores the next byte of the frame, and its last byte completes it (R206). -/
theorem FrameProgress.after_engine (hterm : firstTermAtEnd frame) (hcap : frame.length ≤ 546) {d : Option (BitVec 128)}
    (h : FrameProgress frame tail (.engine d :: es) s) : FrameProgress frame tail es (engineStep d s) := by
  cases h with
  | complete he hres htext htail => rw [engineStep_idle d he]; exact .complete he hres htext htail
  | receiving missing he hne hframe hstream htime =>
    rw [engineStep_receiving d he]
    cases hf : s.rxFifo with
    | nil => rw [frameByte_empty hf]; exact .receiving missing he hne hframe hstream htime
    | cons b rest =>
      obtain ⟨c, missing, rfl⟩ := List.exists_cons_of_ne_nil hne
      rw [hf] at hstream
      obtain ⟨rfl, hrest⟩ : b = c ∧ rest ++ delivered es = missing ++ tail := List.cons.inj hstream
      have hlen : frame.length = s.rxLen.toNat + (missing.length + 1) := by simp [hframe]
      have hroom : s.rxLen.toNat < 546 := by omega
      have hframe' : frame = rxText (takeByte b rest s) ++ missing := by
        rw [rxText_takeByte b rest s hroom]; simpa using hframe
      cases missing with
      | nil =>
        rw [frameByte_completes hf hroom (hframe ▸ hterm.1)]
        exact .complete rfl rfl (hframe'.trans (List.append_nil _)).symm hrest
      | cons x xs =>
        have hopen : endsWithTerm (rxText s ++ [b]) = false := by
          rw [← rxText_takeByte b rest s hroom]
          exact no_term_before_end (hframe' ▸ hterm) (List.cons_ne_nil x xs)
        rw [frameByte_stores hf hopen (by simp at hlen; omega)]
        exact .receiving (x :: xs) he (List.cons_ne_nil x xs) hframe' hrest htime

/-- Every event of the frame unit but a lost byte keeps the frame in progress. -/
theorem FrameProgress.after_event (hterm : firstTermAtEnd frame) (hcap : frame.length ≤ 546) {e : Event}
    (he : isFrameEvent e = true) (h : FrameProgress frame tail (e :: es) s) (ht : runEvent e s = .next t)
    (hovf : t.rxOvf = false) : FrameProgress frame tail es t := by
  obtain ⟨b, rfl⟩ | rfl | ⟨d, rfl⟩ := isFrameEvent_cases he <;> obtain rfl := next_inj ht
  · exact h.after_rxByte hovf
  · exact h.after_tick
  · exact h.after_engine hterm hcap

/-- A schedule that loses no byte keeps the frame in progress to its end. -/
theorem FrameProgress.after_events {fs : List Event} (hterm : firstTermAtEnd frame) (hcap : frame.length ≤ 546)
    (hes : ∀ e ∈ es, isFrameEvent e = true) (h : FrameProgress frame tail (es ++ fs) s) (ht : runEvents es s = .next t)
    (hovf : t.rxOvf = false) : FrameProgress frame tail fs t := by
  induction es generalizing s with
  | nil => rwa [← next_inj ht]
  | cons e es ih =>
    obtain ⟨u, hu, ht⟩ := runEvents_cons_inv ht
    obtain ⟨he, hes⟩ := List.forall_mem_cons.1 hes
    have hu_ovf : u.rxOvf = false := cleared_of_kept (runEvents_flagsKept hes ht).rxOvf hovf
    exact ih hes (h.after_event hterm hcap he hu hu_ovf) ht

/-! The end of the schedule. -/

theorem delivered_append (es fs : List Event) : delivered (es ++ fs) = delivered es ++ delivered fs := by
  induction es with
  | nil => rfl
  | cons e es ih => cases e <;> simp [delivered, ih]

theorem delivered_engines (d : Option (BitVec 128)) (n : Nat) : delivered (List.replicate n (.engine d)) = [] := by
  induction n with
  | zero => rfl
  | succ n ih => exact ih

theorem tickCount_append_engines (es : List Event) (d : Option (BitVec 128)) (n : Nat) :
    tickCount (es ++ List.replicate n (.engine d)) = tickCount es := by
  simp [tickCount, List.countP_replicate, ticks]

/-- With the whole stream delivered, an Engine step of a reception stores a byte. -/
theorem rxLen_after_engine {n : Nat} {d : Option (BitVec 128)} (hcap : frame.length ≤ 546)
    (h : FrameProgress frame tail (List.replicate n (.engine d)) s) (hbusy : s.engine ≠ .idle) :
    (engineStep d s).rxLen.toNat = s.rxLen.toNat + 1 := by
  cases h with
  | complete he => exact absurd he hbusy
  | receiving missing he hne hframe hstream htime =>
    obtain ⟨b, missing, rfl⟩ := List.exists_cons_of_ne_nil hne
    rw [delivered_engines, List.append_nil] at hstream
    have hroom : s.rxLen.toNat < 546 := by simp [hframe] at hcap; omega
    rw [engineStep_receiving d he, rxLen_frameByte .raw hstream]
    exact rxLen_succ hroom

/-- With the whole stream delivered, as many Engine steps as bytes are missing complete the frame. -/
theorem FrameProgress.finishes {n : Nat} (hterm : firstTermAtEnd frame) (hcap : frame.length ≤ 546)
    (h : FrameProgress frame tail (List.replicate n (.engine none)) s)
    (hn : s.engine ≠ .idle → frame.length ≤ s.rxLen.toNat + n)
    (ht : runEvents (List.replicate n (.engine none)) s = .next t) :
    t.engine = .idle ∧ t.result = .ok ∧ rxText t = frame ∧ t.rxFifo = tail := by
  induction n generalizing s with
  | zero =>
    cases h with
    | receiving missing he hne hframe =>
      have hbusy : s.engine ≠ .idle := fun hidle => by rw [he] at hidle; cases hidle
      have hshort := hn hbusy
      rw [hframe, List.length_append, rxText_length] at hshort
      exact absurd (List.length_eq_zero_iff.1 (by omega)) hne
    | complete he hres htext htail =>
      rw [← next_inj ht]
      exact ⟨he, hres, htext, (List.append_nil _).symm.trans htail⟩
  | succ n ih =>
    obtain ⟨u, hu, ht⟩ := runEvents_cons_inv ht
    obtain rfl := next_inj hu
    refine ih (h.after_engine hterm hcap) (fun hbusy => ?_) ht
    have hrun : s.engine ≠ .idle := fun he => hbusy (by rwa [engineStep_idle none he])
    have := hn hrun
    rw [rxLen_after_engine hcap h hrun]; omega

/-- Settles O36: the reception starts with the whole frame missing, the schedule keeps it in progress, and the Engine steps
after it complete it. -/
theorem frameIndependentOfChunking : Obligations.FrameIndependentOfChunking := by
  intro s u es frame tail n he hlen hmono _ hes hticks hterm hcap hstream hn hrun hovf
  obtain ⟨t, ht, hu⟩ := runEvents_append_inv hrun
  have hengines : ∀ e ∈ List.replicate n (Event.engine none), isFrameEvent e = true := fun e hmem => by
    rw [List.eq_of_mem_replicate hmem]; rfl
  have htext : rxText s = [] := List.length_eq_zero_iff.1 (by simp [hlen])
  have hstart : FrameProgress frame tail (es ++ List.replicate n (.engine none)) s := by
    refine .receiving frame he (by rintro rfl; cases hterm.1) (by rw [htext]; rfl) ?_ ?_
    · rwa [delivered_append, delivered_engines, List.append_nil]
    · rw [tickCount_append_engines, hmono, BitVec.sub_self]; simpa using hticks
  have hmid := hstart.after_events hterm hcap hes ht (cleared_of_kept (runEvents_flagsKept hengines hu).rxOvf hovf)
  exact hmid.finishes hterm hcap (fun _ => by omega) hu

end Sys2Proof.Machine
end

section
/-!
FRAME_RECV beside FRAME_RAW and DECRYPT (O37): under one schedule the two receptions stay in step, and where the raw one has
the frame the other has what DECRYPT makes of it (R214).
-/
namespace Sys2Proof.Machine

variable {r r' t t' : State} {b : Byte} {es : List Event}

/-- The FRAME_RECV in step with the FRAME_RAW of `r` (R207, R209). -/
def asFrameRecv (r : State) : State := { r with engine := .receiving .decode, ptLen := 0, lastOp := 0x03 }

/-- DECRYPT of `RX_BUF` accepted in `r`, whose frame decrypts to `e`, and completed (R179, R183), but for `LAST_OP`, which is
FRAME_RECV's. -/
def decodedTo (e : EnvelopeResult) (r : State) : State :=
  { finishDecrypt e (startDecrypt .rxBuf (beginCommand 0x02 r)) with lastOp := 0x03 }

/-- The FRAME_RECV that has decoded the frame the FRAME_RAW has in `r` (R208). -/
def asDecoded (r : State) : State := decodedTo (envelopeDecrypt (keyString r) (rxText r)) r

/-! A decode depends on the key and the text only, and leaves what the RX line and the Timer write. -/

theorem decodedTo_pushByte (e : EnvelopeResult) : decodedTo e (pushByte b r) = pushByte b (decodedTo e r) := by
  cases e <;> rfl

theorem decodedTo_loseByte (e : EnvelopeResult) : decodedTo e (loseByte r) = loseByte (decodedTo e r) := by
  cases e <;> rfl

theorem decodedTo_countTick (e : EnvelopeResult) : decodedTo e (countTick r) = countTick (decodedTo e r) := by
  cases e <;> rfl

/-- What FRAME_RECV decodes is what DECRYPT of `RX_BUF` leaves, but for `LAST_OP` (R208, R183). -/
theorem asDecoded_eq_decrypt (r : State) :
    asDecoded r = { decryptComplete .rxBuf (startDecrypt .rxBuf (beginCommand 0x02 r)) with lastOp := 0x03 } := rfl

theorem asDecoded_idle (r : State) : (asDecoded r).engine = .idle := by
  rw [asDecoded, decodedTo, finishDecrypt_frame]

theorem asDecoded_rxFifo (r : State) : (asDecoded r).rxFifo = r.rxFifo := by
  rw [asDecoded, decodedTo, finishDecrypt_frame]; rfl

theorem rxDeliver_asDecoded (b : Byte) (r : State) : rxDeliver b (asDecoded r) = asDecoded (rxDeliver b r) := by
  rw [rxDeliver, asDecoded_rxFifo, rxDeliver]
  split
  · exact (decodedTo_pushByte _).symm
  · exact (decodedTo_loseByte _).symm

theorem countTick_asDecoded (r : State) : countTick (asDecoded r) = asDecoded (countTick r) :=
  (decodedTo_countTick _).symm

/-- The step that completes the frame decodes it as DECRYPT does (R208, R183). -/
theorem completeFrame_asFrameRecv (r : State) : completeFrame .decode (asFrameRecv r) = asDecoded (finish .ok r) := by
  have hdecode : ∀ e, finishDecrypt e (asFrameRecv r) = decodedTo e (finish .ok r) := fun e => by cases e <;> rfl
  exact hdecode (envelopeDecrypt (keyString r) (rxText r))

/-- A FRAME_RAW in `r` beside a FRAME_RECV in `t`: both receive alike, or the raw one has the frame and the other has decoded
it, or the raw one has failed. -/
inductive RawBesideRecv : State → State → Prop
  | receiving {r : State} (he : r.engine = .receiving .raw) (hk : r.keyLocked = true) (hl : r.rxLen.toNat < 546) :
      RawBesideRecv r (asFrameRecv r)
  | complete {r : State} (he : r.engine = .idle) (hk : r.keyLocked = true) (hl : r.rxLen.toNat ≤ 546) :
      RawBesideRecv r (asDecoded r)
  | failed {r t : State} (he : r.engine = .idle) (hres : r.result ≠ .ok) : RawBesideRecv r t

/-- Both receptions take the same byte and the same outcome (R206, R208, R209). -/
theorem frameByte_beside (he : r.engine = .receiving .raw) (hk : r.keyLocked = true) (hl : r.rxLen.toNat < 546) :
    RawBesideRecv (frameByte .raw r) (frameByte .decode (asFrameRecv r)) := by
  cases hf : r.rxFifo with
  | nil =>
    rw [frameByte_empty hf, frameByte_empty (s := asFrameRecv r) hf]
    exact .receiving he hk hl
  | cons b rest =>
    have hlen : (takeByte b rest r).rxLen.toNat = r.rxLen.toNat + 1 := rxLen_succ hl
    cases ht : endsWithTerm (rxText r ++ [b]) with
    | true =>
      rw [frameByte_completes hf hl ht, frameByte_completes (s := asFrameRecv r) hf hl ht]
      have hdecode := completeFrame_asFrameRecv (takeByte b rest r)
      exact hdecode ▸ .complete rfl hk (Nat.le_trans (Nat.le_of_eq hlen) hl)
    | false =>
      by_cases hfull : r.rxLen.toNat + 1 = 546
      · rw [frameByte_overflows hf ht hfull]
        exact .failed rfl (by simp)
      · have hroom : r.rxLen.toNat + 1 < 546 := by omega
        rw [frameByte_stores hf ht hroom, frameByte_stores (s := asFrameRecv r) hf ht hroom]
        exact .receiving he hk (Nat.lt_of_le_of_lt (Nat.le_of_eq hlen) hroom)

/-- A tick ends both receptions or neither (R204). -/
theorem tickStep_beside (he : r.engine = .receiving .raw) (hk : r.keyLocked = true) (hl : r.rxLen.toNat < 546) :
    RawBesideRecv (tickStep r) (tickStep (asFrameRecv r)) := by
  by_cases htime : r.frameTo.toNat ≤ (r.mono + 1 - r.frameStart).toNat
  · rw [tickStep_expires he htime]
    exact .failed rfl (by simp)
  · rw [tickStep_waits he (Nat.lt_of_not_le htime), tickStep_waits (s := asFrameRecv r) rfl (Nat.lt_of_not_le htime)]
    exact .receiving he hk hl

/-- A received byte reaches both in any case (R201). -/
theorem rxDeliver_beside (b : Byte) (h : RawBesideRecv r t) : RawBesideRecv (rxDeliver b r) (rxDeliver b t) := by
  have hkeep : (rxDeliver b r).engine = r.engine ∧ (rxDeliver b r).result = r.result ∧
      (rxDeliver b r).keyLocked = r.keyLocked ∧ (rxDeliver b r).rxLen = r.rxLen := by
    rw [rxDeliver_frame]; exact ⟨rfl, rfl, rfl, rfl⟩
  obtain ⟨heng, hresult, hkey, hlen⟩ := hkeep
  cases h with
  | receiving he hk hl =>
    have hsame : rxDeliver b (asFrameRecv r) = asFrameRecv (rxDeliver b r) := by
      rw [rxDeliver, rxDeliver, apply_ite asFrameRecv]; rfl
    exact hsame ▸ .receiving (heng.trans he) (hkey.trans hk) (hlen ▸ hl)
  | complete he hk hl =>
    exact rxDeliver_asDecoded b r ▸ .complete (heng.trans he) (hkey.trans hk) (hlen ▸ hl)
  | failed he hres => exact .failed (heng.trans he) (hresult ▸ hres)

/-- One event of the frame unit keeps the two in step. -/
theorem RawBesideRecv.after_event {e : Event} (he : isFrameEvent e = true) (h : RawBesideRecv r t)
    (hr : runEvent e r = .next r') (ht : runEvent e t = .next t') : RawBesideRecv r' t' := by
  obtain ⟨b, rfl⟩ | rfl | ⟨d, rfl⟩ := isFrameEvent_cases he
  all_goals
    obtain rfl := next_inj hr
    obtain rfl := next_inj ht
  · exact rxDeliver_beside b h
  · cases h with
    | receiving he hk hl => exact tickStep_beside he hk hl
    | complete he hk hl =>
      rw [tickStep_no_reception (by simp [he]), tickStep_no_reception (by simp [asDecoded_idle]), countTick_asDecoded]
      exact .complete he hk hl
    | failed he hres =>
      rw [tickStep_no_reception (by simp [he])]
      exact .failed he hres
  · cases h with
    | receiving he hk hl =>
      rw [engineStep_receiving d he, engineStep_receiving (s := asFrameRecv r) d rfl]
      exact frameByte_beside he hk hl
    | complete he hk hl =>
      rw [engineStep_idle d he, engineStep_idle d (asDecoded_idle r)]
      exact .complete he hk hl
    | failed he hres =>
      rw [engineStep_idle d he]
      exact .failed he hres

theorem RawBesideRecv.after_events (hes : ∀ e ∈ es, isFrameEvent e = true) (h : RawBesideRecv r t)
    (hr : runEvents es r = .next r') (ht : runEvents es t = .next t') : RawBesideRecv r' t' := by
  induction es generalizing r t with
  | nil => rwa [← next_inj hr, ← next_inj ht]
  | cons e es ih =>
    obtain ⟨r1, hr1, hr⟩ := runEvents_cons_inv hr
    obtain ⟨t1, ht1, ht⟩ := runEvents_cons_inv ht
    obtain ⟨he, hes⟩ := List.forall_mem_cons.1 hes
    exact ih hes (h.after_event he hr1 ht1) hr ht

/-- Accepted in the same state, the two start in step, or both time out at once (R205, R207, R209). -/
theorem frameCommands_beside {s : State} (hb : s.busy = false) (hk : s.keyLocked = true)
    (hr : exec .frameRaw s = .next r) (ht : exec .frameRecv s = .next t) : RawBesideRecv r t := by
  obtain ⟨helapsed, hstarts⟩ := frameAcceptance s hb
  by_cases hto : s.timeout = 0
  · obtain ⟨hraw, -⟩ := helapsed hto
    rw [← next_inj (hraw.symm.trans hr)]
    exact .failed (busy_eq_false.1 hb) (by simp)
  · obtain ⟨hraw, hrecv⟩ := hstarts hto
    rw [← next_inj (hraw.symm.trans hr), ← next_inj ((hrecv hk).symm.trans ht)]
    exact .receiving rfl hk (show (0 : BitVec 10).toNat < 546 by decide)

/-- Settles O37: the schedule keeps the two in step, so at the raw frame's completion the other has decoded it, and DECRYPT
decodes the same text with the same key. -/
theorem frameRecvIsRawThenDecrypt : Obligations.FrameRecvIsRawThenDecrypt := by
  intro s t0 t r0 r es hb hk hes ht0 ht hr0 hr hidle hok
  have hstep := (frameCommands_beside hb hk hr0 ht0).after_events hes hr ht
  cases hstep with
  | receiving he => simp [he] at hidle
  | failed he hres => exact absurd hok hres
  | complete he hk hl =>
    refine ⟨_, _, exec_decrypt_runs (src := .rxBuf) (busy_eq_false.2 he) hk hl, run_engine_decrypting none rfl,
      busy_eq_false.2 (decryptComplete_done .rxBuf _).1, busy_eq_false.2 (asDecoded_idle r), ?_⟩
    rw [asDecoded_eq_decrypt]
    generalize decryptComplete .rxBuf (startDecrypt .rxBuf (beginCommand 0x02 r)) = v
    exact ⟨rfl, rfl, rfl, rfl, rfl, fun off => rfl⟩

end Sys2Proof.Machine
end

section
/-!
Faults, interrupts and results (R241, R246, R248, R258): which outcome an event has, what the `irq` output shows, and which
step ends which command with which result code.
-/
namespace Sys2Proof.Machine

variable {s t : State} {mode : FrameMode} {src : Src}

/-! Stops of the machine (R246, R258). -/

/-- A clock cycle answers a next state, in reset and out of it: there an unsupported access only sets `pslverr` (R72). -/
theorem clockCycle_next (c : ClockIn) (s : State) : ∃ t, clockCycle c s = .next t := by
  cases hr : c.rstN with
  | false => exact ⟨_, runEvent_of_resets (e := .clock c) (by simp [resets, hr])⟩
  | true =>
    obtain ⟨t, ht⟩ := busPhase_next c s
    exact ⟨_, clockCycle_of_bus hr ht⟩

/-- An unsupported access raises `BusError` with its address, and every other event answers a next state (R72, R246, R258). -/
theorem runEvent_next_or_busError (e : Event) (s : State) :
    (noBusError e = true ∧ ∃ t, runEvent e s = .next t) ∨
    (noBusError e = false ∧ ∃ a, runEvent e s = .fault (.busError a)) := by
  cases e with
  | memRead a =>
    cases ha : supported a with
    | true => exact .inl ⟨ha, _, run_supported_read ha s⟩
    | false => exact .inr ⟨ha, a.addr, by simp [runEvent, hostRead, ha]⟩
  | memWrite a v =>
    cases ha : supported a with
    | true =>
      obtain ⟨t, ht⟩ := writeReg_next (regOf a.addr) v s
      exact .inl ⟨ha, t, by simp [runEvent, hostWrite, ha, ht]⟩
    | false => exact .inr ⟨ha, a.addr, by simp [runEvent, hostWrite, ha]⟩
  | clock c => exact .inl ⟨rfl, clockCycle_next c s⟩
  | engine | rxByte | tick | reset => exact .inl ⟨rfl, _, rfl⟩

/-- Settles O11: a step is its event's, and an event answers a next state or is an unsupported access that faults. -/
theorem onlyBusErrorStops : Obligations.OnlyBusErrorStops := by
  intro s
  have hstep : step s = runEvent (nextEvent s).1 (nextEvent s).2 := rfl
  rw [hstep]
  obtain ⟨he, t, ht⟩ | ⟨he, a, ha⟩ := runEvent_next_or_busError (nextEvent s).1 (nextEvent s).2
  · exact ⟨fun _ => ⟨t, ht⟩, by simp [ht], by simp [ht]⟩
  · exact ⟨by simp [he], fun _ _ => he, by simp [ha]⟩

/-! The interrupt output (R248). -/

theorem irq_iff : irq s = true ↔ s.done = true ∧ s.ie = true := by simp [irq]

/-- The pin of a cycle out of reset is the formula for the state the cycle starts from (R248). -/
theorem clockCycle_irqPin {c : ClockIn} (hr : c.rstN = true) (h : clockCycle c s = .next t) : t.irqPin = irq s := by
  obtain ⟨u, -, rfl⟩ := clockCycle_inv hr h
  rfl

/-- Settles O59: the pin is the last part of a cycle; RX_FLUSH sets `DONE`, and a 1 in bit 1 of a write to `STATUS` clears
it. -/
theorem irqFollowsDone : Obligations.IrqFollowsDone := by
  refine ⟨fun _ => irq_iff, fun c s t => clockCycle_irqPin, fun s t hb hie h => ?_, fun s t v hv h => ?_⟩
  · rw [← next_inj ((rxFlushEmptiesFifo s hb).symm.trans h)]
    exact irq_iff.2 ⟨rfl, hie⟩
  · obtain ⟨u, hu, -, hdone, -⟩ := statusWriteClearsFlags v s
    rw [← next_inj (hu.symm.trans h), ← Bool.not_eq_true, irq_iff, hdone, hv]
    simp

/-! Results of an acceptance (R241): the completing cases of each command's acceptance. -/

theorem encrypt_accept_result (hb : s.busy = false) (hd : t.done = true) (h : exec .encrypt s = .next t) :
    t.result = .noKey ∨ t.result = .badLength := by
  obtain ⟨hnoKey, hbadLength, hruns⟩ := encryptAcceptance s hb
  cases hk : s.keyLocked with
  | false => rw [← next_inj ((hnoKey hk).symm.trans h)]; exact .inl rfl
  | true =>
    obtain hl | hl := Nat.lt_or_ge 255 s.ptLen.toNat
    · rw [← next_inj ((hbadLength hk hl).symm.trans h)]; exact .inr rfl
    · rw [← next_inj ((hruns hk hl).symm.trans h)] at hd; cases hd

theorem decrypt_accept_result (hb : s.busy = false) (hd : t.done = true) (h : exec (.decrypt src) s = .next t) :
    t.result = .noKey ∨ t.result = .badLength := by
  obtain ⟨hnoKey, hbadLength, hruns, -⟩ := decryptAcceptance src s hb
  cases hk : s.keyLocked with
  | false => rw [← next_inj ((hnoKey hk).symm.trans h)]; exact .inl rfl
  | true =>
    obtain hl | hl := Nat.lt_or_ge 546 (srcLength src s)
    · rw [← next_inj ((hbadLength hk hl).symm.trans h)]; exact .inr rfl
    · rw [← next_inj ((hruns hk hl).symm.trans h)] at hd; cases hd

theorem frameRaw_accept_result (hb : s.busy = false) (hd : t.done = true) (h : exec .frameRaw s = .next t) :
    t.result = .timeout := by
  obtain ⟨helapsed, hstarts⟩ := frameAcceptance s hb
  by_cases hto : s.timeout = 0
  · obtain ⟨hraw, -⟩ := helapsed hto
    rw [← next_inj (hraw.symm.trans h)]
  · obtain ⟨hraw, -⟩ := hstarts hto
    rw [← next_inj (hraw.symm.trans h)] at hd; cases hd

theorem frameRecv_accept_result (hb : s.busy = false) (hd : t.done = true) (h : exec .frameRecv s = .next t) :
    t.result = .noKey ∨ t.result = .timeout := by
  obtain ⟨helapsed, hstarts⟩ := frameAcceptance s hb
  cases hk : s.keyLocked with
  | false => rw [← next_inj ((frameRecvNeedsKey s hb hk).symm.trans h)]; exact .inl rfl
  | true =>
    by_cases hto : s.timeout = 0
    · obtain ⟨-, hrecv⟩ := helapsed hto
      rw [← next_inj ((hrecv hk).symm.trans h)]; exact .inr rfl
    · obtain ⟨-, hrecv⟩ := hstarts hto
      rw [← next_inj ((hrecv hk).symm.trans h)] at hd; cases hd

theorem rxFlush_accept_result (hb : s.busy = false) (h : exec .rxFlush s = .next t) : t.result = .ok := by
  rw [← next_inj ((rxFlushEmptiesFifo s hb).symm.trans h)]

theorem keyLock_accept_result (hb : s.busy = false) (h : exec .keyLock s = .next t) :
    t.result = .ok ∨ t.result = .noKey := by
  obtain ⟨hok, hnoKey⟩ := keyLockResult s hb
  by_cases hk : s.keyLocked = true ∨ s.keyWmask = 0xFF
  · rw [← next_inj ((hok hk).symm.trans h)]; exact .inl rfl
  · obtain ⟨hl, hm⟩ := not_or.1 hk
    rw [← next_inj ((hnoKey (by simpa using hl) hm).symm.trans h)]; exact .inr rfl

theorem illegal_accept_result {w : Word} (hw : ∀ i, decode w ≠ .ok i) (hb : s.busy = false)
    (h : runEvent (cmdWriteEvent w) s = .next t) : t.result = .illegalCommand := by
  obtain ⟨-, hillegal⟩ := illegalWordsCompleteAtOnce w
  cases hdec : decode w with
  | ok i => exact absurd hdec (hw i)
  | error e => rw [← next_inj ((hillegal ⟨e, hdec⟩ s hb).symm.trans h)]

/-! Results of an Engine step and of a tick (R241). -/

theorem encryptComplete_result (d : Option (BitVec 128)) (s : State) :
    (encryptComplete d s).result = .ok ∨ (encryptComplete d s).result = .randomUnavailable := by
  cases d with
  | none => exact .inr rfl
  | some d => exact .inl rfl

theorem decryptComplete_result (src : Src) (s : State) : (decryptComplete src s).result = .ok ∨
    (decryptComplete src s).result = .malformedEnvelope ∨ (decryptComplete src s).result = .invalidPadding := by
  cases h : envelopeDecrypt (keyString s) (srcText src s) with
  | ok p iv => rw [decryptComplete_of_ok h]; exact .inl rfl
  | fail code => rw [decryptComplete_of_fail h]; exact .inr (envelopeDecrypt_fail h)

/-- What follows a stored byte completes the frame, overflows it, or nothing (R206). -/
theorem afterByte_cases (mode : FrameMode) (s : State) : afterByte mode s = completeFrame mode s ∨
    afterByte mode s = finish .frameOverflow s ∨ afterByte mode s = s := by
  unfold afterByte
  split
  · exact .inl rfl
  · split
    · exact .inr (.inl rfl)
    · exact .inr (.inr rfl)

/-- A byte step that ends its reception completes the frame or overflows it (R206). -/
theorem frameByte_ends (he : s.engine = .receiving mode) (hb : (frameByte mode s).busy = false) :
    (∃ u, frameByte mode s = completeFrame mode u) ∨ (frameByte mode s).result = .frameOverflow := by
  cases hf : s.rxFifo with
  | nil => simp [frameByte_empty hf, busy_eq_false, he] at hb
  | cons b rest =>
    rw [frameByte_cons hf] at hb ⊢
    obtain h | h | h := afterByte_cases mode (takeByte b rest s)
    · exact .inl ⟨_, h⟩
    · rw [h]; exact .inr rfl
    · simp [h, busy_eq_false, he] at hb

theorem frameByte_raw_result (he : s.engine = .receiving .raw) (hb : (frameByte .raw s).busy = false) :
    (frameByte .raw s).result = .ok ∨ (frameByte .raw s).result = .frameOverflow :=
  (frameByte_ends he hb).imp_left fun ⟨_, hu⟩ => by rw [hu]; rfl

theorem frameByte_decode_result (he : s.engine = .receiving .decode) (hb : (frameByte .decode s).busy = false) :
    (frameByte .decode s).result = .ok ∨ (frameByte .decode s).result = .malformedEnvelope ∨
      (frameByte .decode s).result = .invalidPadding ∨ (frameByte .decode s).result = .frameOverflow := by
  obtain ⟨u, hu⟩ | hovf := frameByte_ends he hb
  · rw [hu, completeFrame_decode]
    exact (decryptComplete_result .rxBuf u).imp_right (Or.imp_right .inl)
  · exact .inr (.inr (.inr hovf))

/-- A tick ends a reception only, and by the timeout (R204). -/
theorem tickStep_ends (hs : s.busy = true) (ht : (tickStep s).busy = false) :
    (tickStep s).result = .timeout ∧ ∃ mode, s.engine = .receiving mode := by
  have hcount : (countTick s).busy = true := hs
  by_cases hm : ∃ mode, s.engine = .receiving mode
  · obtain ⟨mode, he⟩ := hm
    obtain hw | hx := Nat.lt_or_ge (s.mono + 1 - s.frameStart).toNat s.frameTo.toNat
    · rw [tickStep_waits he hw, hcount] at ht; cases ht
    · rw [tickStep_expires he hx]; exact ⟨rfl, mode, he⟩
  · rw [tickStep_no_reception fun mode he => hm ⟨mode, he⟩, hcount] at ht; cases ht

/-- Settles O38: the completing cases of each acceptance, then those of the running command's Engine step and of a tick. -/
theorem resultCodesPerCommand : Obligations.ResultCodesPerCommand := by
  intro s t e
  refine ⟨fun hb hd => ⟨encrypt_accept_result hb hd, fun _ => decrypt_accept_result hb hd, frameRecv_accept_result hb hd,
      frameRaw_accept_result hb hd, rxFlush_accept_result hb, keyLock_accept_result hb,
      fun _ hw => illegal_accept_result hw hb⟩,
    fun _ ht h => ⟨fun he => ?_, fun src he => ?_, fun he => ?_, fun he => ?_⟩, fun hs ht h => ?_⟩
  · obtain rfl := next_inj ((run_engine_encrypting e he).symm.trans h)
    exact encryptComplete_result _ s
  · obtain rfl := next_inj ((run_engine_decrypting e he).symm.trans h)
    exact decryptComplete_result src s
  · obtain rfl := next_inj ((run_engine_receiving e he).symm.trans h)
    exact frameByte_decode_result he ht
  · obtain rfl := next_inj ((run_engine_receiving e he).symm.trans h)
    exact frameByte_raw_result he ht
  · obtain rfl := next_inj h
    exact tickStep_ends hs ht

end Sys2Proof.Machine
end

section
/-!
SUPPORT. O7: a reset event, at either level, is `resetState` (`runEvent_of_resets`), and the buffers of `resetState` hold the
free values of the reset just counted.
-/
namespace Sys2Proof.Machine

/-- After a reset nothing is written yet, so every storage byte reads as the free value of that reset (R54, log entry 3). -/
theorem readByte_resetState (s : State) {off : Nat} (hs : isStorage off = true) :
    readByte (resetState s) off = Config.resetByte (s.epoch + 1) off := by
  have hunwritten : Memory.get State.reset.mem off = none := rfl
  simp [readByte, loadByte, hs, hunwritten]

/-- Settles O7: every reset event is `resetState`, which resets each field but the three of the model's own. -/
theorem resetWinsFromEveryState : Obligations.ResetWinsFromEveryState := by
  intro e s he
  exact ⟨resetState s, runEvent_of_resets he, rfl, resetState_inputs s, resetState_epoch s,
    fun _ hs => readByte_resetState s hs⟩

end Sys2Proof.Machine
end
